-- ==== Sys2Proof/Word.lean ====
section
/-! DEFINITION. The byte, the one machine word of this hardware (R8). Every other quantity of the spec is an
unbounded natural number, an integer, an exact rational or a member of a closed type (R12, R245). -/

namespace Sys2Proof

/-- R8: a byte is 8 bits, value 0..255, bit 0 the least significant. -/
abbrev Byte := BitVec 8

end Sys2Proof
end

