-- ==== Sys2Proof/Syntax.lean ====
section
/-! DEFINITION. The closed types of the spec (element types, message kinds, index kinds), the contents of the data
memories, the rows of the opcode table as instructions, and the host's actions (R120). Plain data throughout. -/

namespace Sys2Proof

/-- R14, R97: the nine payload element types. -/
inductive EType where
  | u8 | u16 | u32 | u64 | i8 | i16 | i32 | i64 | f32
  deriving DecidableEq, Repr, Inhabited

/-- R28, R94: the four message kinds. -/
inductive Kind where
  | na | read | write | event
  deriving DecidableEq, Repr, Inhabited

/-- R28: what indexes the rows of the record table. -/
inductive IndexKind where
  | positional
  | seconds
  | moment
  deriving DecidableEq, Repr, Inhabited

/-- R24, R261: what `STATUS.EXP` and `STATUS.ACT` can hold. R24 names integers and element types; the row of
`EPOCH_INDEX` in R261 adds an index kind (DEDUCED, log 7). -/
inductive Value where
  | int (v : Int)
  | etype (t : EType)
  | indexKind (k : IndexKind)
  deriving DecidableEq, Repr, Inhabited

/-- R28: one row of the record table. `ts` is a rational number of seconds, or the coordinate of a moment (R13);
it is present exactly when the table's index kind is not POSITIONAL. `kind` is present exactly when the table has
the kind column. `payload` holds the raw patterns of the elements (R30). -/
structure Record where
  ts : Option Rat
  kind : Option Kind
  payload : List Nat
  deriving DecidableEq, Repr, Inhabited

/-- R28: the content of `TBL`. Which contents are tables of the spec (rectangular, patterns in range) is
`Table.wellFormed`. -/
structure Table where
  indexKind : IndexKind
  etype : Option EType
  ncols : Nat
  hasKind : Bool
  rows : List Record
  deriving DecidableEq, Repr, Inhabited

/-- R34: the content of `TR`: transition times (seconds or sample indices) and the level the line goes to
(`true` is 1, high). The two sequences may differ in length. -/
structure Transitions where
  t : List Rat
  s : List Bool
  deriving DecidableEq, Repr, Inhabited

/-- R38: the content of `AN`: the local time (or sample index) and the harp second of each anchor. -/
structure Anchors where
  localTimes : List Rat
  harp : List Int
  deriving DecidableEq, Repr, Inhabited

/-- R39: one index of `PM`: `PM.x[k]`, `PM.slope[k]` and `PM.offset[k]`. -/
structure MapEntry where
  x : Rat
  slope : Rat
  offset : Rat
  deriving DecidableEq, Repr, Inhabited

/-- R39: the content of `PM`. Index 0 carries the global fit, index `k` of `1..N-1` the local fit through anchors
`k-1` and `k`. The three arrays of the spec have the one length `N`, so they are held as one array of triples. -/
structure PiecewiseMap where
  global : MapEntry
  locals : List MapEntry
  deriving DecidableEq, Repr, Inhabited

/-- R122: the three kinds of row of the opcode table, told apart by the byte they apply to. -/
inductive Format where
  /-- the payload type tag, at frame offset 4 -/
  | tag
  /-- the message kind, at frame offset 0 -/
  | kind
  /-- the value the host writes to `CMD` -/
  | cmd
  deriving DecidableEq, Repr, Inhabited

/-- The rows of spec/opcode_table.json, in its order. A TAG row has the one field `T` (bit 4, R96): whether the
frame is timestamped. Log 1 says what running a TAG or a KIND row means. -/
inductive Instr where
  | tagU8 (timestamped : Bool)
  | tagU16 (timestamped : Bool)
  | tagU32 (timestamped : Bool)
  | tagU64 (timestamped : Bool)
  | tagI8 (timestamped : Bool)
  | tagI16 (timestamped : Bool)
  | tagI32 (timestamped : Bool)
  | tagI64 (timestamped : Bool)
  | tagF32 (timestamped : Bool)
  | kindNa
  | kindRead
  | kindWrite
  | kindEvent
  | decode
  | encode
  | segment
  | bardec
  | outlierRepair
  | outlierDrop
  | clockdecRepair
  | clockdecDrop
  | alignBuild
  | alignQuery
  | align
  deriving DecidableEq, Repr, Inhabited

/-- `SET <register>, <value>` of R120: a host write of an operand register (R32, R33, R35, R37). -/
inductive RegWrite where
  | expAddr (v : Option Byte)
  | expType (v : Option EType)
  | expLen (v : Option Nat)
  | epoch (v : Option Rat)
  | keepKind (v : Bool)
  | ncols (v : Option Nat)
  | encAddr (v : Byte)
  | encPort (v : Byte)
  | encDtype (v : Option EType)
  | encKind (v : Option Kind)
  | sampleRate (v : Option Rat)
  | baud (v : Rat)
  | minDelta (v : Rat)
  | bcLo (v : Nat)
  | bcHi (v : Nat)
  deriving DecidableEq, Repr, Inhabited

/-- `LOAD <memory>, <content>` of R120: a host write of a whole memory the host may write (R27, R28, R34, R38, R40), or
of one of the two sequences of `TR`, which R34 says are loaded separately. -/
inductive MemLoad where
  | ibuf (data : List Byte)
  | tbl (table : Table)
  /-- both sequences of `TR` in one action, the form R121 uses -/
  | tr (transitions : Transitions)
  /-- `TR.t` alone (R34) -/
  | trTimes (times : List Rat)
  /-- `TR.s` alone (R34) -/
  | trStates (levels : List Bool)
  | an (anchors : Anchors)
  | qt (times : List Rat)
  deriving DecidableEq, Repr, Inhabited

/-- R272: the registers a host write does not change. -/
inductive ReadOnlyReg where
  | status | hdr | outlierCount | bcVal
  deriving DecidableEq, Repr, Inhabited

/-- `READ <register or memory>` of R120: what the host reads (R22 to R26, R28, R31, R36 to R40); `CMD` is there
because R272 says what reading it gives. -/
inductive ReadLoc where
  | status | outlierCount | hdr | bcVal | tbl | obuf | edg | an | pm | qa | cmd
  deriving DecidableEq, Repr, Inhabited

/-- The host's actions between commands (R20, R22, R120), and the platform's reset event (R301). -/
inductive HostAction where
  /-- the host writes a value to `CMD` (R23) -/
  | cmd (value : Byte)
  | set (w : RegWrite)
  | load (m : MemLoad)
  | read (l : ReadLoc)
  /-- the host writes a read-only register; the value written plays no part (R272) -/
  | setReadOnly (r : ReadOnlyReg)
  | reset
  deriving DecidableEq, Repr, Inhabited

end Sys2Proof
end

