-- ==== Sys2Proof/Config.lean ====
section
/-! DEFINITION. The constants the source fixes (R6) and the values the spec leaves free. A free value is an opaque
constant: nothing can be proved about which value it is. -/

namespace Sys2Proof

/-- R6: one tick is 1/31250 s. -/
def Config.tick : Rat := 1 / 31250

/-- R6: ticks in one second. -/
def Config.ticksPerSecond : Rat := 31250

/-- R6: `TS_FLAG`, bit 4 of the payload type tag. -/
def Config.tsFlag : Byte := 0x10

/-- R6: `HDR_LEN`, the bytes kind, length, address, port, tag. -/
def Config.hdrLen : Nat := 5

/-- R6: `TS_LEN`, 4 bytes of seconds and 2 of ticks. -/
def Config.tsLen : Nat := 6

/-- R6: `CK_LEN`. -/
def Config.ckLen : Nat := 1

/-- R6: `PORT_DEFAULT`. -/
def Config.portDefault : Byte := 255

/-- R6: `MIN_DELTA_SECONDS`. -/
def Config.minDeltaSeconds : Rat := 1 / 2

/-- R93: the longest frame, because the length byte holds `stride - 2`. -/
def Config.maxStride : Nat := 257

/-- R197: how many bit periods the extractor needs (positions 0..38). -/
def Config.barcodeMinPeriods : Nat := 39

/-- R110: the bit periods of one barcode on the clock line. -/
def Config.barcodePeriods : Nat := 40

/-- R6, R7, R13: the coordinate of `REF_EPOCH` (1904-01-01T00:00:00) on the absolute timeline, the open parameter
`TIMELINE`; a host may load it into `EPOCH`. No rule depends on it. FREE VALUE (log 5). -/
opaque Config.refEpoch : Rat

/-- FREE VALUE (log 4): a byte of a register whose content the spec calls unspecified. The first argument is the
count of host actions at that moment, the second tells the registers of one moment apart. -/
opaque Config.freeByte : Nat → Nat → Byte

/-- FREE VALUE (log 4): a number in a register whose content the spec calls unspecified; arguments as `freeByte`. -/
opaque Config.freeNat : Nat → Nat → Nat

/-- FREE VALUE (log 4): what a host read of an invalid byte memory answers (R43, I11). -/
opaque Config.freeBytes : Nat → List Byte

/-- FREE VALUE (log 4): what a host read of an invalid `TBL` answers. -/
opaque Config.freeTable : Nat → Table

/-- FREE VALUE (log 4): what a host read of an invalid `EDG` answers. -/
opaque Config.freeRanges : Nat → List (Nat × Nat)

/-- FREE VALUE (log 4): what a host read of an invalid `AN` answers. -/
opaque Config.freeAnchors : Nat → Anchors

/-- FREE VALUE (log 4): what a host read of an invalid `PM` answers. -/
opaque Config.freeMap : Nat → PiecewiseMap

/-- FREE VALUE (log 4): what a host read of an invalid `QA` answers. -/
opaque Config.freeTimes : Nat → List Rat

end Sys2Proof
end

