-- ==== Sys2Proof/Decode.lean ====
section
/-! DEFINITION. The three decoders of the opcode table (R122), each total on bytes, the type dispatcher's table
(R97, R147), and the encoder. The same byte means different rows at different places (0x01 is TAG.U8 at frame
offset 4, KIND.READ at frame offset 0 and DECODE in `CMD`), so a decoder is asked for one format (log 2). -/

namespace Sys2Proof

/-- R97: the bytes of one element of a type. -/
def EType.size : EType → Nat
  | .u8 => 1
  | .u16 => 2
  | .u32 => 4
  | .u64 => 8
  | .i8 => 1
  | .i16 => 2
  | .i32 => 4
  | .i64 => 8
  | .f32 => 4

/-- R96: the timestamp flag of a payload type tag. -/
def timestampFlag (tag : Byte) : Bool := tag &&& Config.tsFlag != 0

/-- R96: the base tag, the tag with bit 4 cleared. -/
def baseTag (tag : Byte) : Byte := tag &&& 0xEF

/-- R97, R147: `TypeOf` on a base tag; `none` off the closed table. -/
def typeOfBase (base : Byte) : Option EType :=
  match base.toNat with
  | 1 => some .u8
  | 2 => some .u16
  | 4 => some .u32
  | 8 => some .u64
  | 129 => some .i8
  | 130 => some .i16
  | 132 => some .i32
  | 136 => some .i64
  | 68 => some .f32
  | _ => none

/-- R147: the type dispatcher, the table applied to the tag with bit 4 cleared. -/
def typeOf (tag : Byte) : Option EType := typeOfBase (baseTag tag)

/-- R97, R147: `TagOf`, the base tag of an element type. -/
def tagOf : EType → Byte
  | .u8 => 1
  | .u16 => 2
  | .u32 => 4
  | .u64 => 8
  | .i8 => 129
  | .i16 => 130
  | .i32 => 132
  | .i64 => 136
  | .f32 => 68

/-- R165: the tag of a frame: the base tag, with 0x10 ORed in if the frame is timestamped. -/
def tagByte (t : EType) (timestamped : Bool) : Byte :=
  if timestamped then tagOf t ||| Config.tsFlag else tagOf t

/-- R94: the kind of a code byte; codes 4..255 are not assigned. -/
def kindOf (b : Byte) : Option Kind :=
  match b.toNat with
  | 0 => some .na
  | 1 => some .read
  | 2 => some .write
  | 3 => some .event
  | _ => none

/-- R94: the code byte of a kind. -/
def kindCode : Kind → Byte
  | .na => 0
  | .read => 1
  | .write => 2
  | .event => 3

/-- The TAG row of an element type and a timestamp flag. -/
def tagInstr : EType → Bool → Instr
  | .u8, t => .tagU8 t
  | .u16, t => .tagU16 t
  | .u32, t => .tagU32 t
  | .u64, t => .tagU64 t
  | .i8, t => .tagI8 t
  | .i16, t => .tagI16 t
  | .i32, t => .tagI32 t
  | .i64, t => .tagI64 t
  | .f32, t => .tagF32 t

/-- The KIND row of a kind. -/
def kindInstr : Kind → Instr
  | .na => .kindNa
  | .read => .kindRead
  | .write => .kindWrite
  | .event => .kindEvent

/-- R122: the decoder of the byte at frame offset 4. An unassigned base tag (R98) is no row. -/
def decodeTag (b : Byte) : Option Instr :=
  (typeOf b).map fun t => tagInstr t (timestampFlag b)

/-- R122: the decoder of the byte at frame offset 0. A kind above 3 (R106) is no row. -/
def decodeKind (b : Byte) : Option Instr := (kindOf b).map kindInstr

/-- R118, R119: the decoder of the value written to `CMD`; every other value is illegal. -/
def decodeCmd (b : Byte) : Option Instr :=
  match b.toNat with
  | 0x01 => some .decode
  | 0x02 => some .encode
  | 0x10 => some .segment
  | 0x11 => some .bardec
  | 0x12 => some .outlierRepair
  | 0x13 => some .outlierDrop
  | 0x14 => some .clockdecRepair
  | 0x15 => some .clockdecDrop
  | 0x20 => some .alignBuild
  | 0x21 => some .alignQuery
  | 0x22 => some .align
  | _ => none

/-- R122: a byte read where rows of format `f` apply; `none` is the decoder's refusal. What the block does with a
refused byte is R106: `UNKNOWN_TYPE`, `BAD_KIND` (when kinds are kept) and `ILLEGAL_CMD`. -/
def decodeAt (f : Format) (b : Byte) : Option Instr :=
  match f with
  | .tag => decodeTag b
  | .kind => decodeKind b
  | .cmd => decodeCmd b

/-- R122: where the byte of a row stands. -/
def Instr.format : Instr → Format
  | .tagU8 _ => .tag
  | .tagU16 _ => .tag
  | .tagU32 _ => .tag
  | .tagU64 _ => .tag
  | .tagI8 _ => .tag
  | .tagI16 _ => .tag
  | .tagI32 _ => .tag
  | .tagI64 _ => .tag
  | .tagF32 _ => .tag
  | .kindNa => .kind
  | .kindRead => .kind
  | .kindWrite => .kind
  | .kindEvent => .kind
  | .decode => .cmd
  | .encode => .cmd
  | .segment => .cmd
  | .bardec => .cmd
  | .outlierRepair => .cmd
  | .outlierDrop => .cmd
  | .clockdecRepair => .cmd
  | .clockdecDrop => .cmd
  | .alignBuild => .cmd
  | .alignQuery => .cmd
  | .align => .cmd

/-- The byte of an instruction, from the tables of R97 (with the flag of R96), R94 and R118. Every row is one byte. -/
def encode : Instr → Byte
  | .tagU8 t => tagByte .u8 t
  | .tagU16 t => tagByte .u16 t
  | .tagU32 t => tagByte .u32 t
  | .tagU64 t => tagByte .u64 t
  | .tagI8 t => tagByte .i8 t
  | .tagI16 t => tagByte .i16 t
  | .tagI32 t => tagByte .i32 t
  | .tagI64 t => tagByte .i64 t
  | .tagF32 t => tagByte .f32 t
  | .kindNa => kindCode .na
  | .kindRead => kindCode .read
  | .kindWrite => kindCode .write
  | .kindEvent => kindCode .event
  | .decode => 0x01
  | .encode => 0x02
  | .segment => 0x10
  | .bardec => 0x11
  | .outlierRepair => 0x12
  | .outlierDrop => 0x13
  | .clockdecRepair => 0x14
  | .clockdecDrop => 0x15
  | .alignBuild => 0x20
  | .alignQuery => 0x21
  | .align => 0x22

/-- The host's question: one byte with nothing said of the place it stands at. Commands are asked first, then tags,
then kinds (log 2): a command code wins over a tag or a kind of the same number. -/
def decodeTableWord (nbits w : Nat) : Option Instr :=
  if nbits = 8 ∧ w < 256 then
    let b : Byte := BitVec.ofNat 8 w
    (decodeCmd b).or ((decodeTag b).or (decodeKind b))
  else none

end Sys2Proof
end

