-- ==== Sys2Proof/WellFormed.lean ====
section
/-! DEFINITION. Which terms are terms of the spec. Instructions, register values and most memory contents are closed
types, so every term is one; a record table is a table of R28 only when it is rectangular. -/

namespace Sys2Proof

/-- R122: a row's only field is the one bit `T`, so no instruction is ill formed. -/
def Instr.wellFormed : Instr → Bool := fun _ => true

/-- R28, R30: a row fits its table: `ts` present exactly when the index kind is not POSITIONAL, `kind` present
exactly when the table has the kind column, `ncols` elements, each a pattern of the element type's width (so a
table with rows has an element type). -/
def Record.fits (t : Table) (r : Record) : Bool :=
  r.ts.isSome == (t.indexKind != .positional) && r.kind.isSome == t.hasKind &&
    r.payload.length == t.ncols &&
    match t.etype with
    | some e => r.payload.all fun p => p < 256 ^ e.size
    | none => false

/-- R28: the table is rectangular by construction. A table without rows may have any shape (R131). -/
def Table.wellFormed (t : Table) : Bool := t.rows.all (Record.fits t)

/-- A host action is one of the spec when what it loads is a content of the memory's type. -/
def HostAction.wellFormed : HostAction → Bool
  | .load (.tbl t) => t.wellFormed
  | _ => true

end Sys2Proof
end

