-- ==== Sys2Proof/Machine/State.lean ====
section
/-! DEFINITION. The state of the block as plain data, the reasons a step can stop, and the state after reset. -/

namespace Sys2Proof.Machine

/-- Why the model stops where the spec describes no machine state. The faults of the hardware (R261) are NOT these:
they are next states that report a code in `STATUS` (`raiseFault`). -/
inductive Fault where
  /-- Raised by ENCODE when `TBL` is valid but its content is no table of R28 (ragged, a pattern too wide, a missing
  timestamp, kind or element type). R28 says a table is rectangular by construction, and no run reaches such a
  state. Safe: the model stops and claims nothing. -/
  | malformedTable
  deriving DecidableEq, Repr

/-- What the model gives no meaning to. -/
inductive Refusal where
  /-- Raised by `exec` for an instruction without a meaning; no arm does. Safe. -/
  | notModelled (mnemonic : String)
  /-- Raised by `step` when the host's next action loads `TBL` with a content that is no table of R28: such a load
  is not among the host's actions of the spec. Safe. -/
  | illTypedLoad
  deriving DecidableEq, Repr

/-- R24: `STATUS`. `code` is the 8-bit number of R261. -/
structure Status where
  code : Byte
  err : Bool
  warn : Bool
  exp : Option Value
  act : Option Value
  sticky : Bool
  deriving DecidableEq, Repr

/-- R26: the fields of `HDR` beside its valid bit. -/
structure Header where
  stride : Nat
  address : Byte
  port : Byte
  tag : Byte
  rows : Nat
  deriving DecidableEq, Repr

/-- R26, R43: `HDR` and `HDR.VALID`. -/
structure HdrRegs where
  valid : Bool
  fields : Header
  deriving DecidableEq, Repr

/-- The state of the block (R20 to R43), the host's pending actions and the count of those consumed.

A data memory is `some content` when its valid bit is 1 and `none` when it is 0: the content of an invalid memory is
unspecified (R43), no command reads it (R276) and the model holds none (log 3). The two sequences of `TR` are loaded
separately (R34), so they are two fields (log 18). -/
structure State where
  /-- R24 -/
  status : Status
  /-- R25 -/
  outlierCount : Nat
  /-- R26 -/
  hdr : HdrRegs
  /-- R27: `IBUF.valid`, `IBUF.data` -/
  ibuf : Option (List Byte)
  /-- R28: `TBL` -/
  tbl : Option Table
  /-- R31: `OBUF` -/
  obuf : Option (List Byte)
  /-- R34: `TR.t`, `none` until the host has loaded it; `TR` as a whole and its valid bit are `State.tr` -/
  trTimes : Option (List Rat)
  /-- R34: `TR.s`, loaded separately from `TR.t` -/
  trStates : Option (List Bool)
  /-- R36: `EDG`, half-open index ranges into `TR` -/
  edg : Option (List (Nat × Nat))
  /-- R38: `AN` -/
  an : Option Anchors
  /-- R39: `PM` -/
  pm : Option PiecewiseMap
  /-- R40: `QT` -/
  qt : Option (List Rat)
  /-- R40: `QA` -/
  qa : Option (List Rat)
  /-- R37: `BC_VAL`, optional in the spec itself -/
  bcVal : Option (BitVec 32)
  /-- R32: `EXP_ADDR` -/
  expAddr : Option Byte
  /-- R32: `EXP_TYPE` -/
  expType : Option EType
  /-- R32: `EXP_LEN` -/
  expLen : Option Nat
  /-- R32, R33: `EPOCH`, the coordinate of a moment (R13) -/
  epoch : Option Rat
  /-- R32: `KEEP_KIND` -/
  keepKind : Bool
  /-- R29: `NCOLS` -/
  ncols : Option Nat
  /-- R33: `ENC_ADDR` -/
  encAddr : Byte
  /-- R33: `ENC_PORT` -/
  encPort : Byte
  /-- R33: `ENC_DTYPE` -/
  encDtype : Option EType
  /-- R33: `ENC_KIND` -/
  encKind : Option Kind
  /-- R35: `SAMPLE_RATE` -/
  sampleRate : Option Rat
  /-- R35: `BAUD` -/
  baud : Rat
  /-- R35: `MIN_DELTA` -/
  minDelta : Rat
  /-- R37: `BC_LO` -/
  bcLo : Nat
  /-- R37: `BC_HI` -/
  bcHi : Nat
  /-- The model's own (log 6): the host's actions still to come, the next one first. A `CMD` write among them is
  where the block fetches its next instruction. -/
  host : List HostAction
  /-- The model's own (log 4): how many host actions were consumed; free values are drawn at it. -/
  freeCtr : Nat
  deriving DecidableEq, Repr

/-- R44, R300: the machine after reset. The values of `encAddr`, `baud`, `minDelta`, `bcLo`, `bcHi` and of the
fields of `HDR` beside its valid bit are DESIGN CHOICES (log 8): the spec leaves them unspecified. -/
def State.reset : State where
  status := { code := 0, err := false, warn := false, exp := none, act := none, sticky := false }
  outlierCount := 0
  hdr := { valid := false, fields := { stride := 0, address := 0, port := 0, tag := 0, rows := 0 } }
  ibuf := none
  tbl := none
  obuf := none
  trTimes := none
  trStates := none
  edg := none
  an := none
  pm := none
  qt := none
  qa := none
  bcVal := none
  expAddr := none
  expType := none
  expLen := none
  epoch := none
  keepKind := false
  ncols := none
  encAddr := 0
  encPort := Config.portDefault
  encDtype := none
  encKind := none
  sampleRate := none
  baud := 0
  minDelta := 0
  bcLo := 0
  bcHi := 0
  host := []
  freeCtr := 0

end Sys2Proof.Machine
end

