-- ==== Sys2Proof/Machine/Flags.lean ====
section
/-! DEFINITION. `STATUS`: the fault codes and every computation of its flags (R24, R41, R261, R266, R268). There are
no other flags: no arithmetic result is reported through one (R41). -/

namespace Sys2Proof.Machine

/-- R261: the names of `STATUS.CODE`. -/
inductive Code where
  | ok
  | addrMismatch
  | typeMismatch
  | lenMismatch
  | hdrTruncated
  | unknownType
  | strideTooSmall
  | badKind
  | colMismatch
  | kindUnspecified
  | kindAmbiguous
  | epochIndex
  | coerceUnsupported
  | frameTooLong
  | tsRange
  | arrayLen
  | badParam
  | badRange
  | nonAscending
  | barcodeShort
  | tooFewAnchors
  | anchorsNotAscending
  | operandInvalid
  | illegalCmd
  deriving DecidableEq, Repr

/-- R261: the number of a code. Numbers 24 to 255 are never produced. -/
def Code.num : Code → Byte
  | .ok => 0
  | .addrMismatch => 1
  | .typeMismatch => 2
  | .lenMismatch => 3
  | .hdrTruncated => 4
  | .unknownType => 5
  | .strideTooSmall => 6
  | .badKind => 7
  | .colMismatch => 8
  | .kindUnspecified => 9
  | .kindAmbiguous => 10
  | .epochIndex => 11
  | .coerceUnsupported => 12
  | .frameTooLong => 13
  | .tsRange => 14
  | .arrayLen => 15
  | .badParam => 16
  | .badRange => 17
  | .nonAscending => 18
  | .barcodeShort => 19
  | .tooFewAnchors => 20
  | .anchorsNotAscending => 21
  | .operandInvalid => 22
  | .illegalCmd => 23

/-- R203, R264: an outlier-correcting command warns exactly when its count is positive. -/
def outlierWarning (count : Nat) : Bool := 0 < count

/-- R268: `STATUS` after a command that completes; `STICKY` stays. -/
def okStatus (warn : Bool) (old : Status) : Status :=
  { code := Code.ok.num, err := false, warn := warn, exp := none, act := none, sticky := old.sticky }

/-- R266 (2), R269: `STATUS` after a fault. -/
def faultStatus (code : Code) (exp act : Option Value) : Status :=
  { code := code.num, err := true, warn := false, exp := exp, act := act, sticky := true }

end Sys2Proof.Machine
end

