-- ==== Sys2Proof/Machine/Ops.lean ====
section
/-! DEFINITION. The named operations: bytes and integers (R8, R9), rounding (R11), frame addresses (R66), the
checksum (R169), the ways a command can be checked, and how it ends: `raiseFault` is the one taking of a fault
(R266), `returnOk` the one normal completion (R268); a return from a fault does not exist (R268). -/

namespace Sys2Proof.Machine

/-! ### Bytes and integers -/

/-- R8: byte `i` of a byte sequence. Every use is in range (R68). -/
def byteAt (b : List Byte) (i : Nat) : Byte := b.getD i 0

/-- R10: `MemRead(M, addr, n)`, with no side effect; every use has `addr + n ≤ len(M)` (R68). -/
def memRead (b : List Byte) (addr n : Nat) : List Byte := (b.drop addr).take n

/-- R9, R61: `LE(b)`, the unsigned little-endian integer of a byte sequence. -/
def leNat : List Byte → Nat
  | [] => 0
  | b :: rest => b.toNat + 256 * leNat rest

/-- R9: `LEbytes(v, n)`, the `n` bytes of `v`, least significant first. -/
def leBytes (v : Nat) : Nat → List Byte
  | 0 => []
  | n + 1 => BitVec.ofNat 8 v :: leBytes (v / 256) n

/-- R9: `sext_N(v)`, the two's complement reading of an `N`-bit pattern. -/
def signExtend (bits v : Nat) : Int := if v < 2 ^ (bits - 1) then v else (v : Int) - 2 ^ bits

/-- R169: the 8-bit sum of a byte sequence, carries discarded. -/
def checksum (b : List Byte) : Byte := BitVec.ofNat 8 (b.map BitVec.toNat).sum

/-- R8: `b[i:j]`, positions `i` to `j-1`. -/
def slice {α : Type} (l : List α) (i j : Nat) : List α := (l.drop i).take (j - i)

/-- R11: the nearest integer, an exact half going to the even neighbour. -/
def roundHalfEven (q : Rat) : Int :=
  let f := q.floor
  let d := q - f
  if d < 1 / 2 then f
  else if 1 / 2 < d then f + 1
  else if f % 2 = 0 then f else f + 1

/-! ### Frame addresses (R66, R134) -/

/-- R103, R134: where the payload starts in a frame. -/
def payloadOffset (timestamped : Bool) : Nat :=
  if timestamped then Config.hdrLen + Config.tsLen else Config.hdrLen

/-- R66: the offset of row `r`'s frame. -/
def frameAddr (stride r : Nat) : Nat := r * stride

/-- R66: the kind byte of row `r`. -/
def kindAddr (stride r : Nat) : Nat := frameAddr stride r + 0

/-- R66: the seconds field of row `r`. -/
def secondsAddr (stride r : Nat) : Nat := frameAddr stride r + 5

/-- R66: the ticks field of row `r`. -/
def ticksAddr (stride r : Nat) : Nat := frameAddr stride r + 9

/-- R66: element `c` of row `r`. -/
def elemAddr (stride off size r c : Nat) : Nat := frameAddr stride r + off + c * size

/-- R66: the checksum byte of row `r`; DECODE never reads it (R142). -/
def cksumAddr (stride r : Nat) : Nat := frameAddr stride r + stride - 1

/-! ### Checks of a command -/

/-- R10, R266: what `raise F(exp, act)` carries. -/
structure Raise where
  code : Code
  exp : Option Value
  act : Option Value
  deriving DecidableEq, Repr

/-- A test of the pseudocode: go on if it holds, else raise. -/
def require (p : Prop) [Decidable p] (f : Raise) : Except Raise Unit := if p then .ok () else .error f

/-- R133, R135, R136: an expectation register against the value found; an unsupplied one checks nothing. -/
def expect {α : Type} [DecidableEq α] (want : Option α) (got : α) (code : Code) (asValue : α → Value) :
    Except Raise Unit :=
  match want with
  | none => .ok ()
  | some w => if w = got then .ok () else .error { code := code, exp := some (asValue w), act := some (asValue got) }

/-- R276: an operand memory, `OPERAND_INVALID` when its valid bit is 0. -/
def operand {α : Type} (m : Option α) : Except Raise α :=
  match m with
  | some a => .ok a
  | none => .error { code := .operandInvalid, exp := none, act := none }

/-- A loop of the pseudocode whose rounds may raise: all the results in order, or what the first raising round
raises (R267: lowest row, interval or range first). -/
def collect {α : Type} : List (Except Raise α) → Except Raise (List α)
  | [] => .ok []
  | .error f :: _ => .error f
  | .ok a :: rest =>
    match collect rest with
    | .ok as => .ok (a :: as)
    | .error f => .error f

/-! ### How a command ends -/

/-- The destinations a command can have (R45, column "writes"): memories, `HDR` and `BC_VAL`. -/
inductive Dest where
  | tbl | hdr | obuf | edg | bcVal | an | pm | qa
  deriving DecidableEq, Repr

/-- R26, R43: `HDR` with `HDR.VALID = 0`. Its other fields are then unspecified: free values (log 4). -/
def invalidHdr (draw : Nat) : HdrRegs :=
  { valid := false
    fields :=
      { stride := Config.freeNat draw 0
        address := Config.freeByte draw 0
        port := Config.freeByte draw 1
        tag := Config.freeByte draw 2
        rows := Config.freeNat draw 1 } }

/-- R266 (3): the valid bit of a destination becomes 0; `BC_VAL` becomes `none`. -/
def invalidate (s : State) : Dest → State
  | .tbl => { s with tbl := none }
  | .hdr => { s with hdr := invalidHdr s.freeCtr }
  | .obuf => { s with obuf := none }
  | .edg => { s with edg := none }
  | .bcVal => { s with bcVal := none }
  | .an => { s with an := none }
  | .pm => { s with pm := none }
  | .qa => { s with qa := none }

/-- R266: TAKING A FAULT. The command stops, `STATUS` reports code, expected and actual value, every destination is
invalidated and nothing else changes (`OUTLIER_COUNT` keeps its value, operands are untouched). There is no saved
address, no mode and no vector. -/
def raiseFault (f : Raise) (dests : List Dest) (s : State) : State :=
  { dests.foldl invalidate s with status := faultStatus f.code f.exp f.act }

/-- R268: normal completion, `return OK`. -/
def returnOk (warn : Bool) (s : State) : State := { s with status := okStatus warn s.status }

/-- How every command ends: its result is written and it returns OK, or it raises and produces nothing (R260, R266,
R268, R271). -/
def finish {α : Type} (dests : List Dest) (result : Except Raise α) (commit : α → State → State)
    (warn : α → Bool) (s : State) : State :=
  match result with
  | .ok a => returnOk (warn a) (commit a s)
  | .error f => raiseFault f dests s

/-- R119, R276: a write of a value that is no command; it has no destinations, so only `STATUS` changes. -/
def illegalCommand (b : Byte) (s : State) : State :=
  raiseFault { code := .illegalCmd, exp := none, act := some (.int b.toNat) } [] s

end Sys2Proof.Machine
end

