-- ==== Sys2Proof/Machine/Operands.lean ====
section
/-! DEFINITION. What each command reads (R45) as one record of operand registers, and how a payload pattern is read
as a value (R30, R164). A command's result is a function of these records and of its operand memories (R42). -/

namespace Sys2Proof.Machine

/-- R32: the operand registers of DECODE. -/
structure DecodeOperands where
  expAddr : Option Byte
  expType : Option EType
  expLen : Option Nat
  epoch : Option Rat
  keepKind : Bool
  ncols : Option Nat
  deriving DecidableEq, Repr

/-- R33: the operand registers of ENCODE. -/
structure EncodeOperands where
  addr : Byte
  port : Byte
  dtype : Option EType
  kind : Option Kind
  epoch : Option Rat
  deriving DecidableEq, Repr

/-- R35: the two rates BARDEC and CLOCKDEC.* read. -/
structure Rates where
  baud : Rat
  sampleRate : Option Rat
  deriving DecidableEq, Repr

/-- R32, R45: the registers DECODE reads. -/
def State.decodeOperands (s : State) : DecodeOperands :=
  { expAddr := s.expAddr, expType := s.expType, expLen := s.expLen, epoch := s.epoch,
    keepKind := s.keepKind, ncols := s.ncols }

/-- R33, R45: the registers ENCODE reads. -/
def State.encodeOperands (s : State) : EncodeOperands :=
  { addr := s.encAddr, port := s.encPort, dtype := s.encDtype, kind := s.encKind, epoch := s.epoch }

/-- R35, R45: the rates the barcode commands read. -/
def State.rates (s : State) : Rates := { baud := s.baud, sampleRate := s.sampleRate }

/-- R34, R43: `TR`. Its valid bit is 1 when the host has written its whole content, which is both sequences: together
or one after the other (DEDUCED, log 18). -/
def State.tr (s : State) : Option Transitions :=
  match s.trTimes, s.trStates with
  | some t, some levels => some { t := t, s := levels }
  | _, _ => none

/-- R30: the bits of one element. -/
def elemBits (t : EType) : Nat := 8 * t.size

/-- R97: the signed integer types. -/
def isSigned : EType → Bool
  | .i8 => true
  | .i16 => true
  | .i32 => true
  | .i64 => true
  | _ => false

/-- R164: the integer types; F32 is the other one. -/
def isInteger : EType → Bool
  | .f32 => false
  | _ => true

/-- R30: the value of a pattern of an integer type. -/
def patternValue (t : EType) (p : Nat) : Int := if isSigned t then signExtend (elemBits t) p else p

/-- R164: the least value of an integer type. -/
def minValue (t : EType) : Int := if isSigned t then -2 ^ (elemBits t - 1) else 0

/-- R164: the greatest value of an integer type. -/
def maxValue (t : EType) : Int :=
  if isSigned t then 2 ^ (elemBits t - 1) - 1 else 2 ^ elemBits t - 1

/-- R164: the pattern of a value in a type, `v mod 2^(8·size)`. -/
def valuePattern (t : EType) (v : Int) : Nat := (v % 2 ^ elemBits t).toNat

/-- R164: whether every element of a table can change its type without changing its value. -/
def coercible (src dst : EType) (rows : List Record) : Bool :=
  src == dst ||
    (isInteger src && isInteger dst &&
      rows.all fun r => r.payload.all fun p =>
        minValue dst ≤ patternValue src p && patternValue src p ≤ maxValue dst)

/-- R164: the pattern an element is written with; an unchanged type keeps the pattern. -/
def coercePattern (src dst : EType) (p : Nat) : Nat :=
  if src = dst then p else valuePattern dst (patternValue src p)

end Sys2Proof.Machine
end

