-- ==== Sys2Proof/Machine/Barcode.lean ====
section
/-! DEFINITION. The barcode unit (R190 to R207): the pure functions `Segment`, `BarDec`, `Repair`, `Drop`, and the
six commands. All arithmetic is exact (R12). -/

namespace Sys2Proof.Machine

/-! ### SEGMENT -/

/-- R191: the boundaries `S`: the positions whose difference to the next time exceeds `md`, strictly; the list
starts at position `i`. -/
def boundariesFrom (md : Rat) : Nat → List Rat → List Nat
  | i, a :: b :: rest =>
    if md < b - a then i :: boundariesFrom md (i + 1) (b :: rest) else boundariesFrom md (i + 1) (b :: rest)
  | _, _ => []

/-- R191: the half-open ranges strictly between consecutive boundaries. -/
def rangesBetween : List Nat → List (Nat × Nat)
  | i :: j :: rest => (i + 1, j + 1) :: rangesBetween (j :: rest)
  | _ => []

/-- R191: `Segment(t, md)`. -/
def segmentRanges (t : List Rat) (md : Rat) : List (Nat × Nat) := rangesBetween (boundariesFrom md 0 t)

/-- R191: what SEGMENT writes. -/
def commitRanges (ranges : List (Nat × Nat)) (s : State) : State := { s with edg := some ranges }

/-- R45: the destination of SEGMENT. -/
def segmentDests : List Dest := [.edg]

/-- R191: SEGMENT. -/
def execSegment (s : State) : Host.Outcome State Fault Refusal :=
  .next
    (finish segmentDests
      (do
        let tr ← operand s.tr
        .ok (segmentRanges tr.t s.minDelta))
      commitRanges (fun _ => false) s)

/-! ### BARDEC -/

/-- R194: a transition time in seconds. -/
def normalise (sampleRate : Option Rat) (t : Rat) : Rat :=
  match sampleRate with
  | some sr => t / sr
  | none => t

/-- R195: the bit periods of one interval, rounded on its own. -/
def bitPeriods (baud a b : Rat) : Int := roundHalfEven ((b - a) * baud)

/-- R195, R196: the state vector of normalised transitions; the interval counter starts at `i`. The level of the
last transition is not expanded. -/
def expandLevels (baud : Rat) : Nat → List Rat → List Bool → Except Raise (List Bool)
  | i, a :: b :: ts, s :: ss =>
    if bitPeriods baud a b < 0 then .error { code := .nonAscending, exp := none, act := some (.int i) }
    else
      match expandLevels baud (i + 1) (b :: ts) ss with
      | .ok v => .ok (List.replicate (bitPeriods baud a b).toNat s ++ v)
      | .error f => .error f
  | _, _, _ => .ok []

/-- R111: the position of bit `n` of the value. -/
def bitPos (n : Nat) : Nat := 1 + 10 * (n / 8) + n % 8

/-- R112, R197: the 32-bit value of a state vector of at least 39 levels. -/
def barcodeValue (v : List Bool) : Nat :=
  ((List.range 32).map fun n => if v.getD (bitPos n) false then 2 ^ n else 0).sum

/-- R200: `BarDec(t, s, baud, sr)` of one barcode's own transitions. -/
def barDec (rates : Rates) (t : List Rat) (levels : List Bool) : Except Raise Nat := do
  let v ← expandLevels rates.baud 0 (t.map (normalise rates.sampleRate)) levels
  require (Config.barcodeMinPeriods ≤ v.length)
    { code := .barcodeShort, exp := some (.int Config.barcodeMinPeriods), act := some (.int v.length) }
  .ok (barcodeValue v)

/-- R198: the two arrays of `TR` must have one length. -/
def checkPaired (n m : Nat) : Except Raise Unit :=
  require (n = m) { code := .arrayLen, exp := some (.int n), act := some (.int m) }

/-- R198: a sample rate, where given, is positive. -/
def sampleRatePositive (sampleRate : Option Rat) : Bool :=
  match sampleRate with
  | some sr => 0 < sr
  | none => true

/-- R198: positive rates. -/
def checkRates (r : Rates) : Except Raise Unit :=
  require (0 < r.baud ∧ sampleRatePositive r.sampleRate = true) { code := .badParam, exp := none, act := none }

/-- R200: BARDEC as a function of its operands. -/
def barDecRange (rates : Rates) (lo hi : Nat) (tr : Transitions) : Except Raise Nat := do
  checkPaired tr.t.length tr.s.length
  require (lo ≤ hi ∧ hi ≤ tr.t.length)
    { code := .badRange, exp := some (.int tr.t.length), act := some (.int hi) }
  checkRates rates
  barDec rates (slice tr.t lo hi) (slice tr.s lo hi)

/-- R37: what BARDEC writes, an unsigned 32-bit integer. -/
def commitBarcode (v : Nat) (s : State) : State := { s with bcVal := some (BitVec.ofNat 32 v) }

/-- R45: the destination of BARDEC. -/
def bardecDests : List Dest := [.bcVal]

/-- R193, R200: BARDEC. -/
def execBardec (s : State) : Host.Outcome State Fault Refusal :=
  .next
    (finish bardecDests
      (do
        let tr ← operand s.tr
        barDecRange s.rates s.bcLo s.bcHi tr)
      commitBarcode (fun _ => false) s)

/-! ### OUTLIER -/

/-- R201: the pass of `Repair` after a value already repaired to `prev`. -/
def repairFrom (prev : Int) : List Int → List Int × Nat
  | [] => ([], 0)
  | h :: rest =>
    if 1 < (h - prev).natAbs then
      ((prev + 1) :: (repairFrom (prev + 1) rest).1, (repairFrom (prev + 1) rest).2 + 1)
    else (h :: (repairFrom h rest).1, (repairFrom h rest).2)

/-- R201: `Repair(h)`: the repaired values and how many were overwritten. -/
def repair : List Int → List Int × Nat
  | [] => ([], 0)
  | h :: rest => (h :: (repairFrom h rest).1, (repairFrom h rest).2)

/-- R202: the maximal runs of values that ascend by exactly 1. -/
def ascendingRuns : List (Rat × Int) → List (List (Rat × Int))
  | [] => []
  | a :: rest =>
    match ascendingRuns rest with
    | (b :: run) :: runs => if b.2 - a.2 = 1 then (a :: b :: run) :: runs else [a] :: (b :: run) :: runs
    | runs => [a] :: runs

/-- R202: the anchors of the runs of length at least 2, in order. -/
def keptAnchors (pairs : List (Rat × Int)) : List (Rat × Int) :=
  ((ascendingRuns pairs).filter fun run => 2 ≤ run.length).flatten

/-- What an outlier correction produces: the anchors and the count of corrected or removed ones (R203). -/
structure Corrected where
  anchors : Anchors
  count : Nat
  deriving DecidableEq, Repr

/-- R201: the repair policy on anchors; local times are untouched. -/
def repairAnchors (a : Anchors) : Corrected :=
  { anchors := { localTimes := a.localTimes, harp := (repair a.harp).1 }, count := (repair a.harp).2 }

/-- R202: the drop policy on anchors (of equal length); a value takes its local time with it. -/
def dropAnchors (a : Anchors) : Corrected :=
  let kept := keptAnchors (a.localTimes.zip a.harp)
  { anchors := { localTimes := kept.map Prod.fst, harp := kept.map Prod.snd }
    count := a.harp.length - kept.length }

/-- R201, R202: what OUTLIER.* write. -/
def commitCorrected (c : Corrected) (s : State) : State := { s with an := some c.anchors, outlierCount := c.count }

/-- R45, R266: the destination of OUTLIER.* whose valid bit a fault clears; `OUTLIER_COUNT` keeps its value. -/
def outlierDests : List Dest := [.an]

/-- R201, R202: the shared body of OUTLIER.*. -/
def correctAnchors (policy : Anchors → Corrected) (s : State) : State :=
  finish outlierDests
    (do
      let a ← operand s.an
      checkPaired a.localTimes.length a.harp.length
      .ok (policy a))
    commitCorrected (fun c => outlierWarning c.count) s

/-- R201: OUTLIER.REPAIR. -/
def execOutlierRepair (s : State) : Host.Outcome State Fault Refusal := .next (correctAnchors repairAnchors s)

/-- R202: OUTLIER.DROP. -/
def execOutlierDrop (s : State) : Host.Outcome State Fault Refusal := .next (correctAnchors dropAnchors s)

/-! ### CLOCKDEC -/

/-- R205: the gap threshold, half a second in the units of `TR.t`, exact. -/
def gapThreshold (sampleRate : Option Rat) : Rat :=
  match sampleRate with
  | some sr => Config.minDeltaSeconds * sr
  | none => Config.minDeltaSeconds

/-- What CLOCKDEC.* produce: the ranges before, and the anchors after outlier correction. -/
structure ClockDecoded where
  ranges : List (Nat × Nat)
  corrected : Corrected
  deriving DecidableEq, Repr

/-- R204: one anchor's harp second. -/
def decodeRange (rates : Rates) (tr : Transitions) (range : Nat × Nat) : Except Raise Int :=
  match barDec rates (slice tr.t range.1 range.2) (slice tr.s range.1 range.2) with
  | .ok v => .ok v
  | .error f => .error f

/-- R204: the anchors of a transition stream before outlier correction. -/
def rawAnchors (rates : Rates) (tr : Transitions) (ranges : List (Nat × Nat)) : Except Raise Anchors := do
  let harp ← collect (ranges.map (decodeRange rates tr))
  .ok { localTimes := ranges.map fun r => tr.t.getD r.1 0, harp := harp }

/-- R204: CLOCKDEC.* as a function of its operands. -/
def clockDecode (policy : Anchors → Corrected) (rates : Rates) (tr : Transitions) : Except Raise ClockDecoded := do
  checkPaired tr.t.length tr.s.length
  checkRates rates
  let ranges := segmentRanges tr.t (gapThreshold rates.sampleRate)
  let a ← rawAnchors rates tr ranges
  .ok { ranges := ranges, corrected := policy a }

/-- R204: what CLOCKDEC.* write. -/
def commitClock (c : ClockDecoded) (s : State) : State :=
  { s with edg := some c.ranges, an := some c.corrected.anchors, outlierCount := c.corrected.count }

/-- R45, R266: the destinations of CLOCKDEC.* that a fault invalidates. -/
def clockdecDests : List Dest := [.edg, .an]

/-- R204: the shared body of CLOCKDEC.*. -/
def clockFrom (policy : Anchors → Corrected) (s : State) : State :=
  finish clockdecDests
    (do
      let tr ← operand s.tr
      clockDecode policy s.rates tr)
    commitClock (fun c => outlierWarning c.corrected.count) s

/-- R204: CLOCKDEC.REPAIR. -/
def execClockdecRepair (s : State) : Host.Outcome State Fault Refusal := .next (clockFrom repairAnchors s)

/-- R204: CLOCKDEC.DROP. -/
def execClockdecDrop (s : State) : Host.Outcome State Fault Refusal := .next (clockFrom dropAnchors s)

end Sys2Proof.Machine
end

