-- ==== Sys2Proof/Machine/Aligner.lean ====
section
/-! DEFINITION. The clock aligner (R230 to R241): building the piecewise-linear map, querying it, and the three
commands. All arithmetic is exact (R12). -/

namespace Sys2Proof.Machine

/-! ### The map -/

/-- R39: `PM.n`. -/
def mapSize (m : PiecewiseMap) : Nat := m.locals.length + 1

/-- R39: the entries of `PM` at indices `0..N-1`. -/
def mapEntries (m : PiecewiseMap) : List MapEntry := m.global :: m.locals

/-- R39: `PM.x`. -/
def mapTimes (m : PiecewiseMap) : List Rat := (mapEntries m).map MapEntry.x

/-! ### ALIGN.BUILD -/

/-- R231 (4): the least `k` with `x_k ≤ x_{k-1}`; the list starts at index `k - 1`. -/
def firstDescent : Nat → List Rat → Option Nat
  | k, a :: b :: rest => if b ≤ a then some k else firstDescent (k + 1) (b :: rest)
  | _, _ => none

/-- R231 (4): strict ascent of the local times. -/
def checkAscending (x : List Rat) : Except Raise Unit :=
  match firstDescent 1 x with
  | some k => .error { code := .anchorsNotAscending, exp := none, act := some (.int k) }
  | none => .ok ()

/-- R231 (2) to (4). -/
def checkAnchors (a : Anchors) : Except Raise Unit := do
  checkPaired a.localTimes.length a.harp.length
  require (2 ≤ a.localTimes.length)
    { code := .tooFewAnchors, exp := some (.int 2), act := some (.int a.localTimes.length) }
  checkAscending a.localTimes

/-- R232: the divisor `N·Sxx - Sx·Sx` of the global fit. -/
def fitDen (p : List (Rat × Rat)) : Rat :=
  (p.length : Rat) * (p.map fun q => q.1 * q.1).sum - (p.map Prod.fst).sum * (p.map Prod.fst).sum

/-- R232: the slope of the least-squares line through the points. -/
def globalSlope (p : List (Rat × Rat)) : Rat :=
  ((p.length : Rat) * (p.map fun q => q.1 * q.2).sum - (p.map Prod.fst).sum * (p.map Prod.snd).sum) / fitDen p

/-- R232: the offset of the least-squares line through the points. -/
def globalOffset (p : List (Rat × Rat)) : Rat :=
  ((p.map Prod.snd).sum - globalSlope p * (p.map Prod.fst).sum) / (p.length : Rat)

/-- R233: the slope of the line through two anchors. -/
def localSlope (a b : Rat × Rat) : Rat := (b.2 - a.2) / (b.1 - a.1)

/-- R233: the local fits at indices `1..N-1`, entry `k` through the anchors `k-1` and `k`. -/
def localFits : List (Rat × Rat) → List MapEntry
  | a :: b :: rest =>
    { x := b.1, slope := localSlope a b, offset := a.2 - localSlope a b * a.1 } :: localFits (b :: rest)
  | _ => []

/-- The anchors as points `(x_k, y_k)`, the harp seconds as rationals (R247: exact). -/
def anchorPoints (a : Anchors) : List (Rat × Rat) := a.localTimes.zip (a.harp.map fun h => (h : Rat))

/-- R234: the map of anchors that passed `checkAnchors`. -/
def buildMap (a : Anchors) : PiecewiseMap :=
  { global :=
      { x := a.localTimes.headD 0, slope := globalSlope (anchorPoints a), offset := globalOffset (anchorPoints a) }
    locals := localFits (anchorPoints a) }

/-- R231 to R234: the map of anchors, or the fault. -/
def buildFrom (a : Anchors) : Except Raise PiecewiseMap := do
  checkAnchors a
  .ok (buildMap a)

/-- R234: what ALIGN.BUILD writes. -/
def commitMap (m : PiecewiseMap) (s : State) : State := { s with pm := some m }

/-- R45: the destination of ALIGN.BUILD. -/
def alignBuildDests : List Dest := [.pm]

/-- R231, R234: ALIGN.BUILD. -/
def execAlignBuild (s : State) : Host.Outcome State Fault Refusal :=
  .next
    (finish alignBuildDests
      (do
        let a ← operand s.an
        buildFrom a)
      commitMap (fun _ => false) s)

/-! ### ALIGN.QUERY -/

/-- R235: the left-insertion index of `t` in `PM.x`. -/
def insertionIndex (m : PiecewiseMap) (t : Rat) : Nat := ((mapTimes m).filter fun x => x < t).length

/-- R236: the index used: beyond the last anchor it wraps to 0, the global fit. -/
def queryIndex (m : PiecewiseMap) (t : Rat) : Nat :=
  if insertionIndex m t = mapSize m then 0 else insertionIndex m t

/-- R39: the entry at an index below `PM.n`. -/
def entryAt (m : PiecewiseMap) (i : Nat) : MapEntry := (mapEntries m).getD i m.global

/-- R237: one query: one multiplication, then one addition. -/
def alignTime (m : PiecewiseMap) (t : Rat) : Rat :=
  t * (entryAt m (queryIndex m t)).slope + (entryAt m (queryIndex m t)).offset

/-- R237: all queries, in order. -/
def alignTimes (m : PiecewiseMap) (q : List Rat) : List Rat := q.map (alignTime m)

/-- R237: what ALIGN.QUERY writes. -/
def commitTimes (q : List Rat) (s : State) : State := { s with qa := some q }

/-- R45: the destination of ALIGN.QUERY. -/
def alignQueryDests : List Dest := [.qa]

/-- R235, R237: ALIGN.QUERY. -/
def execAlignQuery (s : State) : Host.Outcome State Fault Refusal :=
  .next
    (finish alignQueryDests
      (do
        let m ← operand s.pm
        let q ← operand s.qt
        .ok (alignTimes m q))
      commitTimes (fun _ => false) s)

/-! ### ALIGN -/

/-- R238: what ALIGN writes: the new map and the aligned times. -/
def commitAlign (r : PiecewiseMap × List Rat) (s : State) : State := { s with pm := some r.1, qa := some r.2 }

/-- R45: the destinations of ALIGN. -/
def alignDests : List Dest := [.pm, .qa]

/-- R238: ALIGN; the validity of both operands is tested before anything is built. -/
def execAlign (s : State) : Host.Outcome State Fault Refusal :=
  .next
    (finish alignDests
      (do
        let a ← operand s.an
        let q ← operand s.qt
        let m ← buildFrom a
        .ok (m, alignTimes m q))
      commitAlign (fun _ => false) s)

end Sys2Proof.Machine
end

