-- ==== Sys2Proof/Machine/Codec.lean ====
section
/-! DEFINITION. The message codec: DECODE (R130 to R147) and ENCODE (R160 to R171), as functions of their operands,
and the two commands. -/

namespace Sys2Proof.Machine

/-! ### DECODE -/

/-- What DECODE produces: the table, and the header registers unless the buffer is empty (R131). -/
structure Decoded where
  table : Table
  header : Option Header
  deriving DecidableEq, Repr

/-- R132 to R136: the geometry of a buffer, derived from the header of its first frame. -/
structure Layout where
  stride : Nat
  rows : Nat
  tag : Byte
  timestamped : Bool
  off : Nat
  etype : EType
  count : Nat
  deriving DecidableEq, Repr

/-- R131: the table of an empty buffer. -/
def emptyTable (o : DecodeOperands) : Table :=
  { indexKind := if o.epoch.isSome then .moment else .seconds
    etype := o.expType
    ncols := o.ncols.getD 0
    hasKind := o.keepKind
    rows := [] }

/-- R135: the type dispatcher applied to a tag, raising off the closed table. -/
def dispatchType (tag : Byte) : Except Raise EType :=
  match typeOf tag with
  | some t => .ok t
  | none => .error { code := .unknownType, exp := none, act := some (.int (baseTag tag).toNat) }

/-- R132 to R136, R146: the tests on the header bytes, in the order of R141. The buffer is not empty. -/
def parseHeader (o : DecodeOperands) (b : List Byte) : Except Raise Layout := do
  require (5 ≤ b.length)
    { code := .hdrTruncated, exp := some (.int 5), act := some (.int b.length) }
  let stride := (byteAt b 1).toNat + 2
  expect o.expAddr (byteAt b 2) .addrMismatch fun a => .int a.toNat
  let tag := byteAt b 4
  let off := payloadOffset (timestampFlag tag)
  let etype ← dispatchType tag
  expect o.expType etype .typeMismatch .etype
  require (off + 1 ≤ stride)
    { code := .strideTooSmall, exp := some (.int (off + 1 : Nat)), act := some (.int stride) }
  let count := (stride - off - 1) / etype.size
  expect o.expLen count .lenMismatch fun n => .int n
  expect o.ncols count .colMismatch fun n => .int n
  .ok { stride := stride, rows := b.length / stride, tag := tag, timestamped := timestampFlag tag,
        off := off, etype := etype, count := count }

/-- R100, R137: the timestamp of row `r` in seconds. -/
def rowSeconds (b : List Byte) (stride r : Nat) : Rat :=
  (leNat (memRead b (secondsAddr stride r) 4) : Rat) +
    (leNat (memRead b (ticksAddr stride r) 2) : Rat) * Config.tick

/-- R137: the index of row `r`: seconds, or a moment when an epoch is given; none without the timestamp flag. -/
def rowIndex (o : DecodeOperands) (l : Layout) (b : List Byte) (r : Nat) : Option Rat :=
  if l.timestamped then
    match o.epoch with
    | some e => some (e + rowSeconds b l.stride r)
    | none => some (rowSeconds b l.stride r)
  else none

/-- R139: the kind of row `r` when kinds are kept; byte 0 is not read otherwise. -/
def rowKind (o : DecodeOperands) (l : Layout) (b : List Byte) (r : Nat) : Except Raise (Option Kind) :=
  if o.keepKind then
    match kindOf (byteAt b (kindAddr l.stride r)) with
    | some k => .ok (some k)
    | none =>
      .error { code := .badKind, exp := none,
               act := some (.int (byteAt b (kindAddr l.stride r)).toNat) }
  else .ok none

/-- R102, R138: the patterns of row `r`. -/
def rowPayload (l : Layout) (b : List Byte) (r : Nat) : List Nat :=
  (List.range l.count).map fun c =>
    leNat (memRead b (elemAddr l.stride l.off l.etype.size r c) l.etype.size)

/-- R146: one round of DECODE's row loop. -/
def decodeRow (o : DecodeOperands) (l : Layout) (b : List Byte) (r : Nat) : Except Raise Record := do
  let kind ← rowKind o l b r
  .ok { ts := rowIndex o l b r, kind := kind, payload := rowPayload l b r }

/-- R137: the index kind of a table with a known frame layout. -/
def indexKindOf (o : DecodeOperands) (timestamped : Bool) : IndexKind :=
  if timestamped then (if o.epoch.isSome then .moment else .seconds) else .positional

/-- R146: DECODE of a buffer, as a function of the operand registers and the bytes. -/
def decodeBuffer (o : DecodeOperands) (b : List Byte) : Except Raise Decoded :=
  if b = [] then .ok { table := emptyTable o, header := none }
  else do
    let l ← parseHeader o b
    let rows ← collect ((List.range l.rows).map (decodeRow o l b))
    .ok
      { table :=
          { indexKind := indexKindOf o l.timestamped, etype := some l.etype, ncols := l.count,
            hasKind := o.keepKind, rows := rows }
        header :=
          some { stride := l.stride, address := byteAt b 2, port := byteAt b 3, tag := l.tag, rows := l.rows } }

/-- R131, R140: what a successful DECODE writes. -/
def commitDecoded (d : Decoded) (s : State) : State :=
  { s with
    tbl := some d.table
    hdr := match d.header with
      | some h => { valid := true, fields := h }
      | none => invalidHdr s.freeCtr }

/-- R45: the destinations of DECODE. -/
def decodeDests : List Dest := [.tbl, .hdr]

/-- R146 on the buffer `ibuf` in place of `IBUF`: the shared body of DECODE and of the rows of a frame header. -/
def decodeFrom (ibuf : Option (List Byte)) (s : State) : State :=
  finish decodeDests
    (do
      let b ← operand ibuf
      decodeBuffer s.decodeOperands b)
    commitDecoded (fun _ => false) s

/-- R130, R146: DECODE. -/
def execDecode (s : State) : Host.Outcome State Fault Refusal := .next (decodeFrom s.ibuf s)

/-! ### ENCODE -/

/-- R163: how the timestamps of a table become seconds. -/
inductive Timing where
  /-- no timestamp fields -/
  | untimed
  /-- `T_r = ts_r` -/
  | seconds
  /-- `T_r = ts_r - e` -/
  | since (e : Rat)
  deriving DecidableEq, Repr

/-- R163: whether frames carry timestamps. -/
def Timing.stamped : Timing → Bool
  | .untimed => false
  | .seconds => true
  | .since _ => true

/-- R163: the table of the five cases. -/
def timingOf (epoch : Option Rat) (k : IndexKind) : Except Raise Timing :=
  match epoch, k with
  | some e, .moment => .ok (.since e)
  | some _, .seconds =>
    .error { code := .epochIndex, exp := some (.indexKind .moment), act := some (.indexKind .seconds) }
  | some _, .positional =>
    .error { code := .epochIndex, exp := some (.indexKind .moment), act := some (.indexKind .positional) }
  | none, .seconds => .ok .seconds
  | none, .positional => .ok .untimed
  | none, .moment =>
    .error { code := .epochIndex, exp := some (.indexKind .seconds), act := some (.indexKind .moment) }

/-- R163: `T_r`, from the row's `ts`. -/
def Timing.secondsOf : Timing → Rat → Rat
  | .untimed, ts => ts
  | .seconds, ts => ts
  | .since e, ts => ts - e

/-- R101, R167: the ticks field of `T`, with no carry into the seconds. -/
def ticksOf (t : Rat) : Nat := (roundHalfEven ((t - t.floor) * Config.ticksPerSecond) % 65536).toNat

/-- R167: the six timestamp bytes of `T`, raising outside `0 ≤ floor(T) < 2^32`. -/
def timestampBytes (t : Rat) : Except Raise (List Byte) := do
  require (0 ≤ t.floor ∧ t.floor < 2 ^ 32)
    { code := .tsRange, exp := none, act := some (.int t.floor) }
  .ok (leBytes t.floor.toNat 4 ++ leBytes (ticksOf t) 2)

/-- R165, R166: what all the frames of one ENCODE share. -/
structure FrameShape where
  timing : Timing
  src : EType
  dst : EType
  stride : Nat
  deriving DecidableEq, Repr

/-- R166: the length of a frame. -/
def strideOf (ncols : Nat) (dst : EType) (stamped : Bool) : Nat :=
  ncols * dst.size + 6 + if stamped then 6 else 0

/-- R162 to R166, R171: the tests on the table and the operand registers, in the order of R267. -/
def planFrames (o : EncodeOperands) (t : Table) : Except Raise FrameShape := do
  require (¬ (t.hasKind = true ∧ o.kind.isSome = true)) { code := .kindAmbiguous, exp := none, act := none }
  require (t.hasKind = true ∨ o.kind.isSome = true) { code := .kindUnspecified, exp := none, act := none }
  let timing ← timingOf o.epoch t.indexKind
  let src := t.etype.getD .u8
  let dst := o.dtype.getD src
  require (coercible src dst t.rows = true)
    { code := .coerceUnsupported, exp := some (.etype dst), act := some (.etype src) }
  let stride := strideOf t.ncols dst timing.stamped
  require (stride ≤ Config.maxStride)
    { code := .frameTooLong, exp := some (.int Config.maxStride), act := some (.int stride) }
  .ok { timing := timing, src := src, dst := dst, stride := stride }

/-- R162: the kind a row is written with: its own when the table has the kind column, else the constant. -/
def kindWritten (o : EncodeOperands) (t : Table) (r : Record) : Kind :=
  (if t.hasKind then r.kind else o.kind).getD .na

/-- R168: the header, of five bytes. -/
def headerBytes (o : EncodeOperands) (f : FrameShape) (k : Kind) : List Byte :=
  [kindCode k, BitVec.ofNat 8 (f.stride - 2), o.addr, o.port, tagByte f.dst f.timing.stamped]

/-- R168: the payload bytes of a row in the target type. -/
def payloadBytes (f : FrameShape) (r : Record) : List Byte :=
  (r.payload.map fun p => leBytes (coercePattern f.src f.dst p) f.dst.size).flatten

/-- R168, R169: the frame of a body is the body and its checksum. -/
def sealFrame (body : List Byte) : List Byte := body ++ [checksum body]

/-- R163, R167: the timestamp field of a row; none without timestamps. -/
def stampBytes (f : FrameShape) (r : Record) : Except Raise (List Byte) :=
  if f.timing.stamped then timestampBytes (f.timing.secondsOf (r.ts.getD 0)) else .ok []

/-- R167, R168: the frame of one row. -/
def encodeRow (o : EncodeOperands) (f : FrameShape) (t : Table) (r : Record) : Except Raise (List Byte) := do
  let stamp ← stampBytes f r
  .ok (sealFrame (headerBytes o f (kindWritten o t r) ++ stamp ++ payloadBytes f r))

/-- R171: ENCODE of a table, as a function of the operand registers and the table. The defaults of `getD` are never
used on a well-formed table. -/
def encodeTable (o : EncodeOperands) (t : Table) : Except Raise (List Byte) :=
  if t.rows = [] then .ok []
  else do
    let f ← planFrames o t
    let frames ← collect (t.rows.map (encodeRow o f t))
    .ok frames.flatten

/-- R45: the destination of ENCODE. -/
def encodeDests : List Dest := [.obuf]

/-- R170: what a successful ENCODE writes. -/
def commitEncoded (data : List Byte) (s : State) : State := { s with obuf := some data }

/-- R160, R171 on a state whose table, if valid, is a table of R28. -/
def encodeFrom (s : State) : State :=
  finish encodeDests
    (do
      let t ← operand s.tbl
      encodeTable s.encodeOperands t)
    commitEncoded (fun _ => false) s

/-- R28: whether `TBL` holds what the spec says it can. -/
def tableSound (s : State) : Bool :=
  match s.tbl with
  | some t => t.wellFormed
  | none => true

/-- R160, R171: ENCODE. A valid `TBL` that is no table of R28 stops the model (`Fault.malformedTable`). -/
def execEncode (s : State) : Host.Outcome State Fault Refusal :=
  if tableSound s then .next (encodeFrom s) else .fault .malformedTable

end Sys2Proof.Machine
end

