-- ==== Sys2Proof/Machine/FrameRows.lean ====
section
/-! DEFINITION. The meanings of the TAG and KIND rows of the opcode table. The host issues commands only; a TAG or a
KIND row is a byte of a frame header, and the command that runs it is DECODE. So the meaning of a row is the DECODE
of `IBUF` with the row's byte standing in the first frame's header: at offset 4 for a TAG row (R96, R134, R135), at
offset 0 for a KIND row (R94, R139). `IBUF` itself is not written (R27). DESIGN CHOICE, log 1. -/

namespace Sys2Proof.Machine

/-- The buffer as the parser sees it when the byte at `offset` of the first frame is `v`; a buffer too short to
have that byte is unchanged. -/
def withHeaderByte (ibuf : Option (List Byte)) (offset : Nat) (v : Byte) : Option (List Byte) :=
  ibuf.map fun b => b.set offset v

/-- R122, R134: DECODE with this tag at frame offset 4 of the first frame. -/
def decodeTagged (tag : Byte) (s : State) : State := decodeFrom (withHeaderByte s.ibuf 4 tag) s

/-- R122, R139: DECODE with this kind byte at frame offset 0 of the first frame. -/
def decodeKinded (kind : Byte) (s : State) : State := decodeFrom (withHeaderByte s.ibuf 0 kind) s

/-- R97: tag 0x01, or 0x11 when timestamped. -/
def execTagU8 (timestamped : Bool) (s : State) : Host.Outcome State Fault Refusal :=
  .next (decodeTagged (tagByte .u8 timestamped) s)

/-- R97: tag 0x02, or 0x12 when timestamped. -/
def execTagU16 (timestamped : Bool) (s : State) : Host.Outcome State Fault Refusal :=
  .next (decodeTagged (tagByte .u16 timestamped) s)

/-- R97: tag 0x04, or 0x14 when timestamped. -/
def execTagU32 (timestamped : Bool) (s : State) : Host.Outcome State Fault Refusal :=
  .next (decodeTagged (tagByte .u32 timestamped) s)

/-- R97: tag 0x08, or 0x18 when timestamped. -/
def execTagU64 (timestamped : Bool) (s : State) : Host.Outcome State Fault Refusal :=
  .next (decodeTagged (tagByte .u64 timestamped) s)

/-- R97: tag 0x81, or 0x91 when timestamped. -/
def execTagI8 (timestamped : Bool) (s : State) : Host.Outcome State Fault Refusal :=
  .next (decodeTagged (tagByte .i8 timestamped) s)

/-- R97: tag 0x82, or 0x92 when timestamped. -/
def execTagI16 (timestamped : Bool) (s : State) : Host.Outcome State Fault Refusal :=
  .next (decodeTagged (tagByte .i16 timestamped) s)

/-- R97: tag 0x84, or 0x94 when timestamped. -/
def execTagI32 (timestamped : Bool) (s : State) : Host.Outcome State Fault Refusal :=
  .next (decodeTagged (tagByte .i32 timestamped) s)

/-- R97: tag 0x88, or 0x98 when timestamped. -/
def execTagI64 (timestamped : Bool) (s : State) : Host.Outcome State Fault Refusal :=
  .next (decodeTagged (tagByte .i64 timestamped) s)

/-- R97: tag 0x44, or 0x54 when timestamped. -/
def execTagF32 (timestamped : Bool) (s : State) : Host.Outcome State Fault Refusal :=
  .next (decodeTagged (tagByte .f32 timestamped) s)

/-- R94: kind byte 0. -/
def execKindNa (s : State) : Host.Outcome State Fault Refusal := .next (decodeKinded (kindCode .na) s)

/-- R94: kind byte 1. -/
def execKindRead (s : State) : Host.Outcome State Fault Refusal := .next (decodeKinded (kindCode .read) s)

/-- R94: kind byte 2. -/
def execKindWrite (s : State) : Host.Outcome State Fault Refusal := .next (decodeKinded (kindCode .write) s)

/-- R94: kind byte 3. -/
def execKindEvent (s : State) : Host.Outcome State Fault Refusal := .next (decodeKinded (kindCode .event) s)

/-- A frame of 12 bytes (R91, R92), long enough for both formats, its checksum right (R104): where `withFetchWord`
puts the byte of a TAG or a KIND row. -/
def benchFrame (kind tag : Byte) : List Byte :=
  sealFrame [kind, 10, 0, 0, tag, 0, 0, 0, 0, 0, 0]

end Sys2Proof.Machine
end

