-- ==== Sys2Proof/Machine/HostPort.lean ====
section
/-! DEFINITION. The host's side of the interface (R20, R22, R23, R71, R120, R272): the next action, what each action
does, what a read answers, and the calls of R120 as sequences of actions. -/

namespace Sys2Proof.Machine

/-- What the block finds when it looks for its next work. -/
inductive Fetched where
  /-- no action of the host is left: the block waits (R300) -/
  | idle
  /-- the host has written `CMD` (R23): the value, and the state without that action -/
  | command (value : Byte) (s : State)
  /-- another action of the host, and the state without it -/
  | action (a : HostAction) (s : State)

/-- Taking the host's next action off the sequence. -/
def popAction (rest : List HostAction) (s : State) : State := { s with host := rest, freeCtr := s.freeCtr + 1 }

/-- R23, R71: the host's actions are taken in order; a `CMD` write is the fetch of an instruction. -/
def fetch (s : State) : Fetched :=
  match s.host with
  | [] => .idle
  | .cmd v :: rest => .command v (popAction rest s)
  | a :: rest => .action a (popAction rest s)

/-- R32, R33, R35, R37: a host write of an operand register. -/
def writeReg (w : RegWrite) (s : State) : State :=
  match w with
  | .expAddr v => { s with expAddr := v }
  | .expType v => { s with expType := v }
  | .expLen v => { s with expLen := v }
  | .epoch v => { s with epoch := v }
  | .keepKind v => { s with keepKind := v }
  | .ncols v => { s with ncols := v }
  | .encAddr v => { s with encAddr := v }
  | .encPort v => { s with encPort := v }
  | .encDtype v => { s with encDtype := v }
  | .encKind v => { s with encKind := v }
  | .sampleRate v => { s with sampleRate := v }
  | .baud v => { s with baud := v }
  | .minDelta v => { s with minDelta := v }
  | .bcLo v => { s with bcLo := v }
  | .bcHi v => { s with bcHi := v }

/-- R43: a host write of a memory's whole content sets its valid bit. The sequences of `TR` can be loaded separately
(R34): a load of one leaves the other as it was, and `TR` is valid once both are loaded (`State.tr`). -/
def loadMem (m : MemLoad) (s : State) : State :=
  match m with
  | .ibuf data => { s with ibuf := some data }
  | .tbl table => { s with tbl := some table }
  | .tr transitions => { s with trTimes := some transitions.t, trStates := some transitions.s }
  | .trTimes times => { s with trTimes := some times }
  | .trStates levels => { s with trStates := some levels }
  | .an anchors => { s with an := some anchors }
  | .qt times => { s with qt := some times }

/-- R301: the reset event of the platform; the host's later actions and the model's own count stay. -/
def resetEvent (s : State) : State := { State.reset with host := s.host, freeCtr := s.freeCtr }

/-- What an action other than a `CMD` write does. A read has no side effect (R65); a write of a read-only register
has none either (R272). A load of `TBL` with what is no table (R28) is no action of the spec. `CMD` writes do not
come here: `fetch` gives them out as commands. -/
def hostAction (a : HostAction) (s : State) : Host.Outcome State Fault Refusal :=
  match a with
  | .cmd _ => .next s
  | .set w => .next (writeReg w s)
  | .load m => if (HostAction.load m).wellFormed then .next (loadMem m s) else .refused .illTypedLoad
  | .read _ => .next s
  | .setReadOnly _ => .next s
  | .reset => .next (resetEvent s)

/-- What a host read answers. -/
inductive ReadValue where
  | status (v : Status)
  | count (v : Nat)
  | hdr (v : HdrRegs)
  | barcode (v : Option (BitVec 32))
  | table (valid : Bool) (v : Table)
  | bytes (valid : Bool) (v : List Byte)
  | ranges (valid : Bool) (v : List (Nat × Nat))
  | anchors (valid : Bool) (v : Anchors)
  | map (valid : Bool) (v : PiecewiseMap)
  | times (valid : Bool) (v : List Rat)
  | byte (v : Byte)
  deriving DecidableEq, Repr

/-- R22, R43, R65, R272, I9, I11: a host read. It answers the valid bit and the content; the content of an invalid
memory, and of `CMD`, is a free value. -/
def hostRead (l : ReadLoc) (s : State) : ReadValue :=
  match l with
  | .status => .status s.status
  | .outlierCount => .count s.outlierCount
  | .hdr => .hdr s.hdr
  | .bcVal => .barcode s.bcVal
  | .tbl => .table s.tbl.isSome (s.tbl.getD (Config.freeTable s.freeCtr))
  | .obuf => .bytes s.obuf.isSome (s.obuf.getD (Config.freeBytes s.freeCtr))
  | .edg => .ranges s.edg.isSome (s.edg.getD (Config.freeRanges s.freeCtr))
  | .an => .anchors s.an.isSome (s.an.getD (Config.freeAnchors s.freeCtr))
  | .pm => .map s.pm.isSome (s.pm.getD (Config.freeMap s.freeCtr))
  | .qa => .times s.qa.isSome (s.qa.getD (Config.freeTimes s.freeCtr))
  | .cmd => .byte (Config.freeByte s.freeCtr 3)

/-! ### The calls of R120, expanded as R121 says -/

/-- R121: `decode(b, a?, d?, l?, e?, k?)`. -/
def callDecode (b : List Byte) (a : Option Byte) (d : Option EType) (l : Option Nat) (e : Option Rat) (k : Bool) :
    List HostAction :=
  [.load (.ibuf b), .set (.expAddr a), .set (.expType d), .set (.expLen l), .set (.epoch e), .set (.keepKind k),
    .cmd (encode .decode), .read .tbl]

/-- R121: `encode(tbl, a, d?, p?, e?, kind?)`; an omitted port is 255. -/
def callEncode (t : Table) (a : Byte) (d : Option EType) (p : Option Byte) (e : Option Rat) (k : Option Kind) :
    List HostAction :=
  [.load (.tbl t), .set (.encAddr a), .set (.encDtype d), .set (.encPort (p.getD Config.portDefault)),
    .set (.epoch e), .set (.encKind k), .cmd (encode .encode), .read .obuf]

/-- R121: `decode_clock(t, s, sr?, baud)`, the caller naming the policy. -/
def callDecodeClock (drop : Bool) (tr : Transitions) (sr : Option Rat) (baud : Rat) : List HostAction :=
  [.load (.tr tr), .set (.sampleRate sr), .set (.baud baud),
    .cmd (encode (if drop then .clockdecDrop else .clockdecRepair)), .read .an]

/-- R121: `align(q, al, ah)`. -/
def callAlign (q : List Rat) (a : Anchors) : List HostAction :=
  [.load (.qt q), .load (.an a), .cmd (encode .align), .read .qa]

end Sys2Proof.Machine
end

