-- ==== Sys2Proof/Machine/Dispatch.lean ====
section
/-! DEFINITION. One arm for each constructor of `Instr`, in the order of the opcode table. -/

namespace Sys2Proof.Machine

def exec (i : Instr) (s : State) : Host.Outcome State Fault Refusal :=
  match i with
  | .tagU8 t => Sys2Proof.Machine.execTagU8 t s
  | .tagU16 t => Sys2Proof.Machine.execTagU16 t s
  | .tagU32 t => Sys2Proof.Machine.execTagU32 t s
  | .tagU64 t => Sys2Proof.Machine.execTagU64 t s
  | .tagI8 t => Sys2Proof.Machine.execTagI8 t s
  | .tagI16 t => Sys2Proof.Machine.execTagI16 t s
  | .tagI32 t => Sys2Proof.Machine.execTagI32 t s
  | .tagI64 t => Sys2Proof.Machine.execTagI64 t s
  | .tagF32 t => Sys2Proof.Machine.execTagF32 t s
  | .kindNa => Sys2Proof.Machine.execKindNa s
  | .kindRead => Sys2Proof.Machine.execKindRead s
  | .kindWrite => Sys2Proof.Machine.execKindWrite s
  | .kindEvent => Sys2Proof.Machine.execKindEvent s
  | .decode => Sys2Proof.Machine.execDecode s
  | .encode => Sys2Proof.Machine.execEncode s
  | .segment => Sys2Proof.Machine.execSegment s
  | .bardec => Sys2Proof.Machine.execBardec s
  | .outlierRepair => Sys2Proof.Machine.execOutlierRepair s
  | .outlierDrop => Sys2Proof.Machine.execOutlierDrop s
  | .clockdecRepair => Sys2Proof.Machine.execClockdecRepair s
  | .clockdecDrop => Sys2Proof.Machine.execClockdecDrop s
  | .alignBuild => Sys2Proof.Machine.execAlignBuild s
  | .alignQuery => Sys2Proof.Machine.execAlignQuery s
  | .align => Sys2Proof.Machine.execAlign s

end Sys2Proof.Machine
end

