-- ==== Sys2Proof/Machine/Step.lean ====
section
/-! DEFINITION. One step of the machine: the host's next action, a command of it fetched, decoded and run to
completion (R20, R23, R71). With no action left the block waits (R300). -/

namespace Sys2Proof.Machine

/-- R23, R119: a `CMD` value that names a command runs it; any other raises `ILLEGAL_CMD`. -/
def step (s : State) : Host.Outcome State Fault Refusal :=
  match fetch s with
  | .idle => .next s
  | .action a s' => hostAction a s'
  | .command v s' =>
    match decodeCmd v with
    | some i => exec i s'
    | none => .next (illegalCommand v s')

/-- `s` with the byte of an instruction where the very next step fetches it. A command stands in the host's next
`CMD` write. A tag or a kind stands in the header of the frame in `IBUF`, and the host's next action is the DECODE
that reads it (for a kind, with `KEEP_KIND` set: the byte is not read otherwise, R139). -/
def State.withFetchWord (s : State) (nbits w : Nat) : State :=
  let b : Byte := BitVec.ofNat 8 w
  match (decodeTableWord nbits w).map Instr.format with
  | some .tag =>
    { s with ibuf := some (benchFrame 0 b), host := .cmd (encode .decode) :: s.host }
  | some .kind =>
    { s with ibuf := some (benchFrame b (tagByte .u8 false)), keepKind := true,
             host := .cmd (encode .decode) :: s.host }
  | _ => { s with host := .cmd b :: s.host }

end Sys2Proof.Machine
end

