-- ==== Sys2Proof/Machine/Wire.lean ====
section
/-! DEFINITION. What a well-formed frame and a well-formed single-register buffer are (R108), and the bit frame of a
barcode on the clock line (R110 to R113). No command looks at either: the spec's laws speak of them. -/

namespace Sys2Proof.Machine

/-- R108: a well-formed frame. The fifth conjunct, that the frame is long enough for its header, its timestamp and its
checksum, stands in no condition that R108 prints (DEDUCED from D41 and R172, log 23). -/
def frameWellFormed (f : List Byte) : Bool :=
  6 ≤ f.length && f.length ≤ Config.maxStride &&
    (byteAt f 1).toNat + 2 == f.length &&
    (byteAt f 0).toNat ≤ 3 &&
    payloadOffset (timestampFlag (byteAt f 4)) + 1 ≤ f.length &&
    (match typeOf (byteAt f 4) with
      | some t => (f.length - payloadOffset (timestampFlag (byteAt f 4)) - 1) % t.size == 0
      | none => false) &&
    byteAt f (f.length - 1) == checksum (f.take (f.length - 1)) &&
    (!timestampFlag (byteAt f 4) || leNat (memRead f 9 2) ≤ 31249)

/-- R67, R108: the `r`-th frame of a buffer cut at a stride. -/
def frameOf (b : List Byte) (stride r : Nat) : List Byte := memRead b (frameAddr stride r) stride

/-- R99: the stride a buffer's first frame declares. -/
def bufferStride (b : List Byte) : Nat := (byteAt b 1).toNat + 2

/-- R108: a well-formed single-register buffer; the empty buffer is one. -/
def bufferWellFormed (b : List Byte) : Bool :=
  b.length % bufferStride b == 0 &&
    (List.range (b.length / bufferStride b)).all fun r =>
      frameWellFormed (frameOf b (bufferStride b) r) &&
        memRead (frameOf b (bufferStride b) r) 1 4 == memRead b 1 4

/-- R110: the level of bit period `p` of the barcode of `v` (`true` is high): the start bit, four bytes least
significant bit first, a high and a low guard period after each of the first three, the final high bit. -/
def barcodeLevel (v p : Nat) : Bool :=
  if p = 0 then false
  else if p = Config.barcodePeriods - 1 then true
  else if p % 10 = 9 then true
  else if p % 10 = 0 then false
  else v.testBit (8 * (p / 10) + (p % 10 - 1))

/-- R110: the 40 levels of a barcode. -/
def barcodeLevels (v : Nat) : List Bool := (List.range Config.barcodePeriods).map (barcodeLevel v)

/-- R110, R113: the bit periods at which the line changes level, the line idling high before period 0. -/
def barcodeEdges (v : Nat) : List Nat :=
  (List.range Config.barcodePeriods).filter fun p =>
    barcodeLevel v p != (if p = 0 then true else barcodeLevel v (p - 1))

/-- R113, R190: the transitions the host records for the barcode of `v` that starts at time `t0` (in seconds) at
`baud` bits per second. -/
def barcodeTransitions (v : Nat) (t0 baud : Rat) : Transitions :=
  { t := (barcodeEdges v).map fun p => t0 + (p : Rat) / baud
    s := (barcodeEdges v).map (barcodeLevel v) }

end Sys2Proof.Machine
end

