-- ==== Sys2Proof/Safety.lean ====
section
/-! DEFINITION. The terms the statements use: what each command reads and writes (R45), what a sound state of the
block is, and when a command's operands are accepted, each written from the rules and not from the meanings. -/

namespace Sys2Proof.Machine

/-! ### Sound states -/

/-- R24, R261, R264, R269: the fields of `STATUS` agree with each other and with `OUTLIER_COUNT`. -/
def StatusSound (s : State) : Prop :=
  (s.status.err = true ↔ s.status.code ≠ 0) ∧ s.status.code.toNat ≤ 23 ∧
    (s.status.code ≠ 0 → s.status.sticky = true) ∧
    (s.status.warn = true → s.status.code = 0 ∧ 0 < s.outlierCount) ∧
    (s.status.code = 0 → s.status.exp = none ∧ s.status.act = none)

/-- R26, R93, R136: a valid `HDR` holds the stride of a frame with a header and a checksum. -/
def HdrSound (s : State) : Prop :=
  s.hdr.valid = true → 6 ≤ s.hdr.fields.stride ∧ s.hdr.fields.stride ≤ Config.maxStride

/-- R28: a valid `TBL` is a table. -/
def TableSound (s : State) : Prop := ∀ t, s.tbl = some t → t.wellFormed = true

/-- R36, R192 (b): ranges are not empty and each starts where the one before ends. -/
def RangesSound (s : State) : Prop :=
  ∀ ranges, s.edg = some ranges →
    (∀ r ∈ ranges, r.1 < r.2) ∧
      ∀ (j : Nat) (a b : Nat × Nat), ranges[j]? = some a → ranges[j + 1]? = some b → a.2 = b.1

/-- R39, R231: a valid map has at least two anchors, with strictly ascending local times. -/
def MapSound (s : State) : Prop :=
  ∀ m, s.pm = some m → 2 ≤ mapSize m ∧ (mapTimes m).Pairwise (· < ·)

/-- The invariant of the block. -/
def Sound (s : State) : Prop :=
  StatusSound s ∧ HdrSound s ∧ TableSound s ∧ RangesSound s ∧ MapSound s

/-! ### What commands read and write (R45) -/

/-- R45, column "writes", without `STATUS` and `OUTLIER_COUNT`. TAG and KIND rows are run by DECODE (log 1). -/
def destsOf : Instr → List Dest
  | .encode => [.obuf]
  | .segment => [.edg]
  | .bardec => [.bcVal]
  | .outlierRepair => [.an]
  | .outlierDrop => [.an]
  | .clockdecRepair => [.edg, .an]
  | .clockdecDrop => [.edg, .an]
  | .alignBuild => [.pm]
  | .alignQuery => [.qa]
  | .align => [.pm, .qa]
  | _ => [.tbl, .hdr]

/-- R25, R203: the commands that correct outliers. -/
def correctsOutliers : Instr → Bool
  | .outlierRepair => true
  | .outlierDrop => true
  | .clockdecRepair => true
  | .clockdecDrop => true
  | _ => false

/-- R43: the valid bit of a destination; `BC_VAL` counts as valid when it is not `none`. -/
def destValid (t : State) : Dest → Bool
  | .tbl => t.tbl.isSome
  | .hdr => t.hdr.valid
  | .obuf => t.obuf.isSome
  | .edg => t.edg.isSome
  | .bcVal => t.bcVal.isSome
  | .an => t.an.isSome
  | .pm => t.pm.isSome
  | .qa => t.qa.isSome

/-- Two states hold the same in a destination: the same valid bit, and the same content where valid. -/
def SameDest (t u : State) : Dest → Prop
  | .tbl => t.tbl = u.tbl
  | .hdr => t.hdr.valid = u.hdr.valid ∧ (t.hdr.valid = true → t.hdr.fields = u.hdr.fields)
  | .obuf => t.obuf = u.obuf
  | .edg => t.edg = u.edg
  | .bcVal => t.bcVal = u.bcVal
  | .an => t.an = u.an
  | .pm => t.pm = u.pm
  | .qa => t.qa = u.qa

/-- R45: nothing but `STATUS`, `OUTLIER_COUNT` and the destinations `ds` differs between `s` and `t`. -/
def SameOutside (ds : List Dest) (s t : State) : Prop :=
  t = { s with
        status := t.status, outlierCount := t.outlierCount, tbl := t.tbl, hdr := t.hdr, obuf := t.obuf,
        edg := t.edg, bcVal := t.bcVal, an := t.an, pm := t.pm, qa := t.qa } ∧
    (Dest.tbl ∉ ds → t.tbl = s.tbl) ∧ (Dest.hdr ∉ ds → t.hdr = s.hdr) ∧ (Dest.obuf ∉ ds → t.obuf = s.obuf) ∧
    (Dest.edg ∉ ds → t.edg = s.edg) ∧ (Dest.bcVal ∉ ds → t.bcVal = s.bcVal) ∧ (Dest.an ∉ ds → t.an = s.an) ∧
    (Dest.pm ∉ ds → t.pm = s.pm) ∧ (Dest.qa ∉ ds → t.qa = s.qa)

/-- R45, column "reads": the two states agree on everything the command reads. -/
def SameReads (i : Instr) (s u : State) : Prop :=
  match i with
  | .encode => s.tbl = u.tbl ∧ s.encAddr = u.encAddr ∧ s.encPort = u.encPort ∧ s.encDtype = u.encDtype ∧
      s.encKind = u.encKind ∧ s.epoch = u.epoch
  | .segment => s.tr.map Transitions.t = u.tr.map Transitions.t ∧ s.minDelta = u.minDelta
  | .bardec => s.tr = u.tr ∧ s.bcLo = u.bcLo ∧ s.bcHi = u.bcHi ∧ s.baud = u.baud ∧ s.sampleRate = u.sampleRate
  | .outlierRepair => s.an = u.an
  | .outlierDrop => s.an = u.an
  | .clockdecRepair => s.tr = u.tr ∧ s.baud = u.baud ∧ s.sampleRate = u.sampleRate
  | .clockdecDrop => s.tr = u.tr ∧ s.baud = u.baud ∧ s.sampleRate = u.sampleRate
  | .alignBuild => s.an = u.an
  | .alignQuery => s.pm = u.pm ∧ s.qt = u.qt
  | .align => s.an = u.an ∧ s.qt = u.qt
  | _ => s.ibuf = u.ibuf ∧ s.expAddr = u.expAddr ∧ s.expType = u.expType ∧ s.expLen = u.expLen ∧
      s.epoch = u.epoch ∧ s.keepKind = u.keepKind ∧ s.ncols = u.ncols

/-- R276: the operand memories a command tests before anything else are all valid. -/
def OperandsValid (i : Instr) (s : State) : Prop :=
  match i with
  | .encode => s.tbl.isSome = true
  | .segment => s.tr.isSome = true
  | .bardec => s.tr.isSome = true
  | .outlierRepair => s.an.isSome = true
  | .outlierDrop => s.an.isSome = true
  | .clockdecRepair => s.tr.isSome = true
  | .clockdecDrop => s.tr.isSome = true
  | .alignBuild => s.an.isSome = true
  | .alignQuery => s.pm.isSome = true ∧ s.qt.isSome = true
  | .align => s.an.isSome = true ∧ s.qt.isSome = true
  | _ => s.ibuf.isSome = true

/-- R268: `STATUS` after a command that completed, the previous one being `old`. -/
def okAfter (old : Status) (warn : Bool) : Status :=
  { code := 0, err := false, warn := warn, exp := none, act := none, sticky := old.sticky }

/-- R266: the command ends in a next state that reports this fault. -/
def FaultsWith (i : Instr) (s : State) (code : Byte) (exp act : Option Value) : Prop :=
  ∃ t, exec i s = .next t ∧
    t.status = { code := code, err := true, warn := false, exp := exp, act := act, sticky := true }

/-! ### The codec -/

/-- R8, R9: the little-endian number in the `n` bytes at offset `a`. -/
def wireNat (b : List Byte) (a n : Nat) : Nat := ((List.range n).map fun i => (byteAt b (a + i)).toNat * 256 ^ i).sum

/-- R14: an expectation that is absent or true. -/
def Admits {α : Type} (want : Option α) (got : α) : Prop := want = none ∨ want = some got

/-- R103: the number of elements of a frame. -/
def elementCount (stride : Nat) (tag : Byte) (e : EType) : Nat :=
  (stride - (if timestampFlag tag then 11 else 5) - 1) / e.size

/-- R132 to R136, R139: DECODE's tests on a buffer all pass, the element type being `e`. -/
def DecodeAccepts (s : State) (b : List Byte) (e : EType) : Prop :=
  5 ≤ b.length ∧ Admits s.expAddr (byteAt b 2) ∧ typeOf (byteAt b 4) = some e ∧ Admits s.expType e ∧
    (if timestampFlag (byteAt b 4) then 12 else 6) ≤ bufferStride b ∧
    Admits s.expLen (elementCount (bufferStride b) (byteAt b 4) e) ∧
    Admits s.ncols (elementCount (bufferStride b) (byteAt b 4) e) ∧
    (s.keepKind = true → ∀ r < b.length / bufferStride b, (byteAt b (r * bufferStride b)).toNat ≤ 3)

/-- R100, R137 to R139: a record is what row `r` of a buffer holds. -/
def RowDecoded (s : State) (b : List Byte) (e : EType) (r : Nat) (row : Record) : Prop :=
  row.ts =
      (if timestampFlag (byteAt b 4) then
        some (s.epoch.getD 0 +
          ((wireNat b (r * bufferStride b + 5) 4 : Rat) + (wireNat b (r * bufferStride b + 9) 2 : Rat) / 31250))
      else none) ∧
    row.kind = (if s.keepKind then kindOf (byteAt b (r * bufferStride b)) else none) ∧
    row.payload.length = elementCount (bufferStride b) (byteAt b 4) e ∧
    ∀ (c p : Nat), row.payload[c]? = some p →
      p = wireNat b (r * bufferStride b + (if timestampFlag (byteAt b 4) then 11 else 5) + c * e.size) e.size

/-- R140: the table and the header registers that DECODE of buffer `b` leaves. -/
def TableDecoded (s : State) (b : List Byte) (e : EType) (t : Table) : Prop :=
  t.indexKind =
      (if timestampFlag (byteAt b 4) then (if s.epoch.isSome then .moment else .seconds) else .positional) ∧
    t.etype = some e ∧ t.ncols = elementCount (bufferStride b) (byteAt b 4) e ∧ t.hasKind = s.keepKind ∧
    t.rows.length = b.length / bufferStride b ∧ ∀ (r : Nat) (row : Record), t.rows[r]? = some row →
      RowDecoded s b e r row

/-- R140: the header registers of buffer `b`. -/
def headerOf (b : List Byte) : HdrRegs :=
  { valid := true
    fields :=
      { stride := bufferStride b, address := byteAt b 2, port := byteAt b 3, tag := byteAt b 4,
        rows := b.length / bufferStride b } }

/-- R163: ENCODE writes timestamps; only the three consistent combinations of `EPOCH` and index kind are asked. -/
def stampedBy (k : IndexKind) : Bool := k != .positional

/-- R163: `EPOCH` and the index kind fit: an epoch is given exactly for moments. -/
def EpochFits (epoch : Option Rat) (k : IndexKind) : Prop := epoch.isSome = true ↔ k = .moment

/-- R163: `T_r` of a row with a timestamp. -/
def rowTime (s : State) (row : Record) : Rat := row.ts.getD 0 - s.epoch.getD 0

/-- R164: the target element type. -/
def targetType (s : State) (src : EType) : EType := s.encDtype.getD src

/-- R164: the least value of an element type. -/
def leastOf : EType → Int
  | .i8 => -128
  | .i16 => -32768
  | .i32 => -2147483648
  | .i64 => -9223372036854775808
  | _ => 0

/-- R164: the greatest value of an element type. -/
def greatestOf : EType → Int
  | .u8 => 255
  | .u16 => 65535
  | .u32 => 4294967295
  | .u64 => 18446744073709551615
  | .i8 => 127
  | .i16 => 32767
  | .i32 => 2147483647
  | .i64 => 9223372036854775807
  | .f32 => 0

/-- R30: the value of an integer pattern, two's complement for the signed types. -/
def valueOf (e : EType) (p : Nat) : Int := if greatestOf e < p then (p : Int) - 256 ^ e.size else p

/-- R164: the coercion changes no value. -/
def CoercionFits (src dst : EType) (rows : List Record) : Prop :=
  src = dst ∨ (src ≠ .f32 ∧ dst ≠ .f32 ∧
    ∀ row ∈ rows, ∀ p ∈ row.payload, leastOf dst ≤ valueOf src p ∧ valueOf src p ≤ greatestOf dst)

/-- R166: the stride of the frames of a table. -/
def tableStride (t : Table) (dst : EType) : Nat :=
  t.ncols * dst.size + 6 + (if stampedBy t.indexKind then 6 else 0)

/-- R162, R163, R164, R166, R167: ENCODE's tests on a table with rows all pass. -/
def EncodeAccepts (s : State) (t : Table) (src : EType) : Prop :=
  t.wellFormed = true ∧ t.rows ≠ [] ∧ t.etype = some src ∧ s.encKind.isSome = !t.hasKind ∧
    EpochFits s.epoch t.indexKind ∧ CoercionFits src (targetType s src) t.rows ∧
    tableStride t (targetType s src) ≤ 257 ∧
    (stampedBy t.indexKind = true →
      ∀ row ∈ t.rows, 0 ≤ (rowTime s row).floor ∧ (rowTime s row).floor < 4294967296)

/-- R162: the kind a row is written with. -/
def KindWritten (s : State) (t : Table) (row : Record) (k : Kind) : Prop :=
  (t.hasKind = true ∧ row.kind = some k) ∨ (t.hasKind = false ∧ s.encKind = some k)

/-- R165 to R169: a byte sequence is the frame of a row. -/
def FrameOfRow (s : State) (t : Table) (src : EType) (row : Record) (f : List Byte) : Prop :=
  f.length = tableStride t (targetType s src) ∧
    (∃ k, KindWritten s t row k ∧ byteAt f 0 = kindCode k) ∧
    (byteAt f 1).toNat + 2 = tableStride t (targetType s src) ∧
    byteAt f 2 = s.encAddr ∧ byteAt f 3 = s.encPort ∧
    byteAt f 4 = tagByte (targetType s src) (stampedBy t.indexKind) ∧
    (stampedBy t.indexKind = true →
      (wireNat f 5 4 : Int) = (rowTime s row).floor ∧
      (wireNat f 9 2 : Int) = roundHalfEven ((rowTime s row - (rowTime s row).floor) * 31250)) ∧
    (∀ (c p : Nat), row.payload[c]? = some p →
      (wireNat f ((if stampedBy t.indexKind then 11 else 5) + c * (targetType s src).size)
          (targetType s src).size : Int) =
        if targetType s src = src then (p : Int) else valueOf src p % 256 ^ (targetType s src).size) ∧
    (byteAt f (f.length - 1)).toNat = ((f.take (f.length - 1)).map BitVec.toNat).sum % 256

/-! ### The barcode unit and the aligner -/

/-- R191: a difference of two neighbouring times exceeds the threshold. -/
def GapAt (t : List Rat) (md : Rat) (i : Nat) : Prop :=
  i + 1 < t.length ∧ md < t.getD (i + 1) 0 - t.getD i 0

/-- R191, R192: the ranges strictly between two gaps with no gap inside, in ascending order. -/
def RunsBetweenGaps (t : List Rat) (md : Rat) (ranges : List (Nat × Nat)) : Prop :=
  ranges.Pairwise (fun a b => a.2 ≤ b.1) ∧
    ∀ a b : Nat, (a, b) ∈ ranges ↔
      1 ≤ a ∧ a < b ∧ GapAt t md (a - 1) ∧ GapAt t md (b - 1) ∧ ∀ i, a ≤ i → i + 1 < b → ¬ GapAt t md i

/-- R198: the rates are positive. -/
def RatesPositive (s : State) : Prop := 0 < s.baud ∧ ∀ sr, s.sampleRate = some sr → 0 < sr

/-- R194: the units of `TR.t` in one second. -/
def unitsPerSecond (s : State) : Rat := s.sampleRate.getD 1

/-- R195: the bit periods between transitions `i` and `i + 1` of one barcode. -/
def periodsAt (s : State) (t : List Rat) (i : Nat) : Int :=
  roundHalfEven ((t.getD (i + 1) 0 / unitsPerSecond s - t.getD i 0 / unitsPerSecond s) * s.baud)

/-- R196: the state vector of one barcode's transitions. -/
def levelVector (s : State) (t : List Rat) (levels : List Bool) : List Bool :=
  ((List.range (t.length - 1)).map fun i => List.replicate (periodsAt s t i).toNat (levels.getD i false)).flatten

/-- R112: the number whose bit `n` is the level at position `1 + 10·(n div 8) + (n mod 8)`. -/
def weighLevels (v : List Bool) : Nat :=
  ((List.range 32).map fun n => if v.getD (1 + 10 * (n / 8) + n % 8) false then 2 ^ n else 0).sum

/-- R195, R197: the transitions of one barcode decode: no interval is negative and there are enough levels. -/
def BarcodeReadable (s : State) (t : List Rat) (levels : List Bool) : Prop :=
  (∀ i, i + 1 < t.length → 0 ≤ periodsAt s t i) ∧ 39 ≤ (levelVector s t levels).length

/-- R204: the anchors of the ranges before outlier correction: the first transition's time, and the value. -/
def anchorsOf (s : State) (tr : Transitions) (ranges : List (Nat × Nat)) : Anchors :=
  { localTimes := ranges.map fun r => tr.t.getD r.1 0
    harp := ranges.map fun r => (weighLevels (levelVector s (slice tr.t r.1 r.2) (slice tr.s r.1 r.2)) : Int) }

/-- R231: anchors a map can be built from. -/
def AnchorsFit (a : Anchors) : Prop :=
  a.localTimes.length = a.harp.length ∧ 2 ≤ a.localTimes.length ∧ a.localTimes.Pairwise (· < ·)

/-- R232: the sum of squared errors of a line over the anchors. -/
def squaredError (a : Anchors) (slope offset : Rat) : Rat :=
  ((a.localTimes.zip a.harp).map fun p => (slope * p.1 + offset - (p.2 : Rat)) ^ 2).sum

end Sys2Proof.Machine
end

