-- ==== Sys2Proof/Certificates/Slice0/Obligations.lean ====
section
/-! DEFINITION. The statements for the provers, in the order of OBLIGATIONS.json. -/

open Sys2Proof Sys2Proof.Machine

/-! ### Encoding and fetch -/

/-- R97, R94, R118, R122: a byte read where rows of a format apply is an instruction exactly when it is that
instruction's byte and the instruction is of that format: no bit is dropped, none is read twice, no byte has two
readings at one place, and no instruction is out of reach. -/
def Obligations.DecodeAndEncodeAgree : Prop :=
  ∀ (f : Format) (b : Byte) (i : Instr), i.wellFormed = true →
    (decodeAt f b = some i ↔ i.format = f ∧ encode i = b)

/-- R97, R94, R118: words written out from the tables. -/
def Obligations.WrittenOutBytesDecode : Prop :=
  decodeTag 0b10010010 = some (.tagI16 true) ∧ decodeTag 0b01000100 = some (.tagF32 false) ∧
    decodeTag 0b00011000 = some (.tagU64 true) ∧ decodeTag 0b01001000 = none ∧
    decodeKind 0b00000011 = some .kindEvent ∧ decodeKind 0b00000100 = none ∧
    decodeCmd 0b00010101 = some .clockdecDrop ∧ decodeCmd 0b00100001 = some .alignQuery ∧ decodeCmd 0b00000011 = none

/-- R98: 238 of the 256 tag bytes are unassigned. -/
def Obligations.UnassignedTagBytes : Prop :=
  ((List.range 256).filter fun n => (typeOf (BitVec.ofNat 8 n)).isNone).length = 238

/-- R97, R147: the payload type table: the nine base tags with their sizes and the tags of timestamped frames, and the
dispatcher: a tag has a type exactly when its base tag, the tag with bit 4 cleared, is that type's. -/
def Obligations.TypeTableIsBidirectional : Prop :=
  (∀ e : EType, (tagOf e, e.size, tagByte e false, tagByte e true) =
    (match e with
      | .u8 => (0x01, 1, 0x01, 0x11)
      | .u16 => (0x02, 2, 0x02, 0x12)
      | .u32 => (0x04, 4, 0x04, 0x14)
      | .u64 => (0x08, 8, 0x08, 0x18)
      | .i8 => (0x81, 1, 0x81, 0x91)
      | .i16 => (0x82, 2, 0x82, 0x92)
      | .i32 => (0x84, 4, 0x84, 0x94)
      | .i64 => (0x88, 8, 0x88, 0x98)
      | .f32 => (0x44, 4, 0x44, 0x54))) ∧
    (∀ e : EType, typeOf (tagOf e) = some e) ∧ ∀ (b : Byte) (e : EType), typeOf b = some e ↔ tagOf e = b &&& 0xEF

/-- R23, R118: when the host's next action writes a command's code, the step is that command, run on the state
without the action; the model's own count of actions goes up by one. -/
def Obligations.StepRunsTheCommand : Prop :=
  ∀ (s : State) (v : Byte) (rest : List HostAction) (i : Instr), s.host = .cmd v :: rest → decodeCmd v = some i →
    step s = exec i { s with host := rest, freeCtr := s.freeCtr + 1 }

/-- R122, R134, R139 and log 1: when the host's next action is DECODE, the step is also the TAG row that the byte at
frame offset 4 selects, and the KIND row that the byte at frame offset 0 selects. -/
def Obligations.StepRunsTheFrameRows : Prop :=
  ∀ (s : State) (rest : List HostAction) (b : List Byte) (i : Instr), s.host = .cmd 0x01 :: rest → s.ibuf = some b →
    (5 ≤ b.length → decodeTag (byteAt b 4) = some i →
      step s = exec i { s with host := rest, freeCtr := s.freeCtr + 1 }) ∧
    (1 ≤ b.length → decodeKind (byteAt b 0) = some i →
      step s = exec i { s with host := rest, freeCtr := s.freeCtr + 1 })

/-- R119: every other value is illegal: only `STATUS` changes, to code 23 with the value written. -/
def Obligations.IllegalCommandChangesOnlyStatus : Prop :=
  (∀ v : Byte, decodeCmd v = none ↔
      v.toNat ∉ [0x01, 0x02, 0x10, 0x11, 0x12, 0x13, 0x14, 0x15, 0x20, 0x21, 0x22]) ∧
    ∀ (s : State) (v : Byte) (rest : List HostAction), s.host = .cmd v :: rest → decodeCmd v = none →
      step s = .next
        { s with
          host := rest, freeCtr := s.freeCtr + 1
          status :=
            { code := 23, err := true, warn := false, exp := none, act := some (.int v.toNat), sticky := true } }

/-! ### The host and reset -/

/-- R44: every value that R44 gives (for the registers it leaves unspecified it gives none). The valid bits are all
0, which in this model is that the memories hold `none`. -/
def Obligations.ResetValues : Prop :=
  State.reset.status = { code := 0, err := false, warn := false, exp := none, act := none, sticky := false } ∧
    State.reset.outlierCount = 0 ∧ State.reset.hdr.valid = false ∧
    State.reset.ibuf = none ∧ State.reset.tbl = none ∧ State.reset.obuf = none ∧ State.reset.tr = none ∧
    State.reset.edg = none ∧ State.reset.an = none ∧ State.reset.pm = none ∧ State.reset.qt = none ∧
    State.reset.qa = none ∧ State.reset.bcVal = none ∧
    State.reset.expAddr = none ∧ State.reset.expType = none ∧ State.reset.expLen = none ∧
    State.reset.epoch = none ∧ State.reset.ncols = none ∧ State.reset.encDtype = none ∧
    State.reset.encKind = none ∧ State.reset.sampleRate = none ∧ State.reset.keepKind = false ∧
    State.reset.encPort = 255

/-- R301, R269: the reset event brings back every value of `State.reset`, `STICKY` among them, whatever the state was.
For the registers R44 leaves unspecified those values are the model's choice (log 8); the host's later actions and the
model's own count are not the block's and stay (log 16). -/
def Obligations.ResetEventRestoresReset : Prop :=
  ∀ (s : State) (rest : List HostAction), s.host = .reset :: rest →
    step s = .next { State.reset with host := rest, freeCtr := s.freeCtr + 1 }

/-- R300: without an action of the host the block waits; R272: a write of a read-only register has no effect; R65: a
read has none either. -/
def Obligations.InertHostActions : Prop :=
  (∀ s : State, s.host = [] → step s = .next s) ∧
    (∀ (s : State) (r : ReadOnlyReg) (rest : List HostAction), s.host = .setReadOnly r :: rest →
      step s = .next { s with host := rest, freeCtr := s.freeCtr + 1 }) ∧
    ∀ (s : State) (l : ReadLoc) (rest : List HostAction), s.host = .read l :: rest →
      step s = .next { s with host := rest, freeCtr := s.freeCtr + 1 }

/-- R43, R34: a host write of a memory's whole content sets its valid bit and stores the content, a load of one sequence
of `TR` stores that sequence (its valid bit: `TransitionsLoadSeparately`); nothing else changes
(so a loaded `AN` leaves `PM` as it was, R234). A load of `TBL` with what is no table is refused (log 9). -/
def Obligations.HostLoadsAMemory : Prop :=
  ∀ (s : State) (rest : List HostAction),
    (∀ d : List Byte, s.host = .load (.ibuf d) :: rest →
      step s = .next { s with ibuf := some d, host := rest, freeCtr := s.freeCtr + 1 }) ∧
    (∀ t : Table, s.host = .load (.tbl t) :: rest → t.wellFormed = true →
      step s = .next { s with tbl := some t, host := rest, freeCtr := s.freeCtr + 1 }) ∧
    (∀ t : Table, s.host = .load (.tbl t) :: rest → t.wellFormed = false → step s = .refused .illTypedLoad) ∧
    (∀ t : Transitions, s.host = .load (.tr t) :: rest →
      step s = .next
        { s with trTimes := some t.t, trStates := some t.s, host := rest, freeCtr := s.freeCtr + 1 }) ∧
    (∀ x : List Rat, s.host = .load (.trTimes x) :: rest →
      step s = .next { s with trTimes := some x, host := rest, freeCtr := s.freeCtr + 1 }) ∧
    (∀ l : List Bool, s.host = .load (.trStates l) :: rest →
      step s = .next { s with trStates := some l, host := rest, freeCtr := s.freeCtr + 1 }) ∧
    (∀ a : Anchors, s.host = .load (.an a) :: rest →
      step s = .next { s with an := some a, host := rest, freeCtr := s.freeCtr + 1 }) ∧
    ∀ q : List Rat, s.host = .load (.qt q) :: rest →
      step s = .next { s with qt := some q, host := rest, freeCtr := s.freeCtr + 1 }

/-- R22, R32, R33, R35, R37: a host write of an operand register stores the value and changes nothing else. -/
def Obligations.HostWritesARegister : Prop :=
  ∀ (s : State) (rest : List HostAction) (w : RegWrite), s.host = .set w :: rest →
    step s = .next
      (match w with
        | .expAddr v => { s with expAddr := v, host := rest, freeCtr := s.freeCtr + 1 }
        | .expType v => { s with expType := v, host := rest, freeCtr := s.freeCtr + 1 }
        | .expLen v => { s with expLen := v, host := rest, freeCtr := s.freeCtr + 1 }
        | .epoch v => { s with epoch := v, host := rest, freeCtr := s.freeCtr + 1 }
        | .keepKind v => { s with keepKind := v, host := rest, freeCtr := s.freeCtr + 1 }
        | .ncols v => { s with ncols := v, host := rest, freeCtr := s.freeCtr + 1 }
        | .encAddr v => { s with encAddr := v, host := rest, freeCtr := s.freeCtr + 1 }
        | .encPort v => { s with encPort := v, host := rest, freeCtr := s.freeCtr + 1 }
        | .encDtype v => { s with encDtype := v, host := rest, freeCtr := s.freeCtr + 1 }
        | .encKind v => { s with encKind := v, host := rest, freeCtr := s.freeCtr + 1 }
        | .sampleRate v => { s with sampleRate := v, host := rest, freeCtr := s.freeCtr + 1 }
        | .baud v => { s with baud := v, host := rest, freeCtr := s.freeCtr + 1 }
        | .minDelta v => { s with minDelta := v, host := rest, freeCtr := s.freeCtr + 1 }
        | .bcLo v => { s with bcLo := v, host := rest, freeCtr := s.freeCtr + 1 }
        | .bcHi v => { s with bcHi := v, host := rest, freeCtr := s.freeCtr + 1 })

/-! ### The whole machine -/

/-- The state after reset is sound. -/
def Obligations.ResetIsSound : Prop := Sound State.reset

/-- R24, R26, R28, R36, R39: every step keeps every clause of `Sound`. -/
def Obligations.StepKeepsSound : Prop := ∀ s t : State, Sound s → step s = .next t → Sound t

/-- R251, R308: every command terminates: with a table of R28 in `TBL` (or none) and a well-formed action to come,
a step answers a next state. -/
def Obligations.StepAlwaysAnswers : Prop :=
  ∀ s : State, TableSound s → (∀ a ∈ s.host, a.wellFormed = true) → ∃ t, step s = .next t

/-- R45: what every command leaves unchanged: all state but `STATUS`, its destinations, and `OUTLIER_COUNT` for the
four commands that correct outliers. -/
def Obligations.CommandsChangeOnlyTheirRow : Prop :=
  ∀ (i : Instr) (s t : State), exec i s = .next t →
    SameOutside (destsOf i) s t ∧ (correctsOutliers i = false → t.outlierCount = s.outlierCount)

/-- R42, R45: results are a function of what a command reads: two states that agree there get the same `STATUS` (but
for the sticky bit), the same destinations, and, from a correcting command that completes, the same count. -/
def Obligations.ResultsDependOnlyOnReads : Prop :=
  ∀ (i : Instr) (s u s' u' : State), SameReads i s u → exec i s = .next s' → exec i u = .next u' →
    s'.status = { u'.status with sticky := s'.status.sticky } ∧ (∀ d ∈ destsOf i, SameDest s' u' d) ∧
      (correctsOutliers i = true → s'.status.code = 0 → s'.outlierCount = u'.outlierCount)

/-- R266, R271: a command that faults reports it, sets the sticky bit, invalidates every destination, and changes
nothing else. -/
def Obligations.FaultLeavesNoResult : Prop :=
  ∀ (i : Instr) (s t : State), exec i s = .next t → t.status.code ≠ 0 →
    t.status.err = true ∧ t.status.warn = false ∧ t.status.sticky = true ∧
      (∀ d ∈ destsOf i, destValid t d = false) ∧ t.outlierCount = s.outlierCount ∧ SameOutside (destsOf i) s t

/-- R268, R264, R131: a command that completes clears `ERR`, `EXP` and `ACT`, keeps the sticky bit, warns exactly
when it corrected outliers and the count is positive, and validates every destination (`HDR` not on an empty
buffer). -/
def Obligations.CompletionReportsOk : Prop :=
  ∀ (i : Instr) (s t : State), exec i s = .next t → t.status.code = 0 →
    t.status.err = false ∧ t.status.exp = none ∧ t.status.act = none ∧ t.status.sticky = s.status.sticky ∧
      (t.status.warn = true ↔ correctsOutliers i = true ∧ 0 < t.outlierCount) ∧
      ∀ d ∈ destsOf i, d ≠ .hdr ∨ s.ibuf ≠ some [] → destValid t d = true

/-- R276: a command with an invalid operand memory raises `OPERAND_INVALID`, code 22, before any other test. -/
def Obligations.InvalidOperandFaultsFirst : Prop :=
  ∀ (i : Instr) (s : State), ¬ OperandsValid i s → FaultsWith i s 22 none none

/-- R269: a command that faults sets the sticky bit, so it records that some command since reset faulted; no command
clears it and no other action of the host does; the reset event clears it. -/
def Obligations.StickyStaysUntilReset : Prop :=
  (∀ (i : Instr) (s t : State), exec i s = .next t → t.status.code ≠ 0 → t.status.sticky = true) ∧
    (∀ s t : State, step s = .next t → s.status.sticky = false → t.status.sticky = true → t.status.code ≠ 0) ∧
    (∀ s t : State, step s = .next t → s.status.sticky = true → s.host.head? ≠ some .reset → t.status.sticky = true) ∧
    ∀ s t : State, step s = .next t → s.host.head? = some .reset → t.status.sticky = false

/-- R271: a command that faulted, issued again, faults again and leaves the same state. OUTLIER.* are the exception
R271 names: their fault invalidates their own operand. -/
def Obligations.ReissuedFaultRepeats : Prop :=
  ∀ (i : Instr) (s t : State), i ≠ .outlierRepair → i ≠ .outlierDrop → exec i s = .next t → t.status.code ≠ 0 →
    exec i t = .next t

/-! ### DECODE and the frame rows -/

/-- R131: DECODE of an empty buffer gives the empty table, whatever is expected, and no header; nothing changes but
`TBL`, `HDR` and `STATUS`. -/
def Obligations.DecodeOfEmptyBuffer : Prop :=
  ∀ s : State, s.ibuf = some [] →
    ∃ t, exec .decode s = .next t ∧
      t.tbl = some { indexKind := if s.epoch.isSome then .moment else .seconds, etype := s.expType,
                     ncols := s.ncols.getD 0, hasKind := s.keepKind, rows := [] } ∧
      t.hdr.valid = false ∧ t.status = okAfter s.status false ∧ t.outlierCount = s.outlierCount ∧
      SameOutside [.tbl, .hdr] s t

/-- R132 to R140: DECODE of an accepted buffer fills `TBL` and `HDR`, and changes nothing else but `STATUS`. -/
def Obligations.DecodeFillsTheTable : Prop :=
  ∀ (s : State) (b : List Byte) (e : EType), s.ibuf = some b → DecodeAccepts s b e →
    ∃ t, exec .decode s = .next { s with tbl := some t, hdr := headerOf b, status := okAfter s.status false } ∧
      TableDecoded s b e t

/-- R141, R267: DECODE's faults, each with the tests before it passed. -/
def Obligations.DecodeFaultsInOrder : Prop :=
  ∀ (s : State) (b : List Byte), s.ibuf = some b → b ≠ [] →
    (b.length < 5 → FaultsWith .decode s 4 (some (.int 5)) (some (.int b.length))) ∧
    (5 ≤ b.length →
      (∀ a : Byte, s.expAddr = some a → a ≠ byteAt b 2 →
        FaultsWith .decode s 1 (some (.int a.toNat)) (some (.int (byteAt b 2).toNat))) ∧
      (Admits s.expAddr (byteAt b 2) →
        (typeOf (byteAt b 4) = none → FaultsWith .decode s 5 none (some (.int (byteAt b 4 &&& 0xEF).toNat))) ∧
        ∀ e : EType, typeOf (byteAt b 4) = some e →
          (∀ d : EType, s.expType = some d → d ≠ e → FaultsWith .decode s 2 (some (.etype d)) (some (.etype e))) ∧
          (Admits s.expType e →
            (∀ off : Nat, off = (if timestampFlag (byteAt b 4) then 11 else 5) → bufferStride b < off + 1 →
              FaultsWith .decode s 6 (some (.int (off + 1))) (some (.int (bufferStride b)))) ∧
            ((if timestampFlag (byteAt b 4) then 12 else 6) ≤ bufferStride b →
              ∀ n : Nat, n = elementCount (bufferStride b) (byteAt b 4) e →
                (∀ m : Nat, s.expLen = some m → m ≠ n → FaultsWith .decode s 3 (some (.int m)) (some (.int n))) ∧
                (Admits s.expLen n →
                  (∀ m : Nat, s.ncols = some m → m ≠ n → FaultsWith .decode s 8 (some (.int m)) (some (.int n))) ∧
                  (Admits s.ncols n → s.keepKind = true →
                    ∀ r < b.length / bufferStride b, 3 < (byteAt b (r * bufferStride b)).toNat →
                      (∀ q < r, (byteAt b (q * bufferStride b)).toNat ≤ 3) →
                      FaultsWith .decode s 7 none (some (.int (byteAt b (r * bufferStride b)).toNat))))))))

/-- R142, R143, R67: DECODE never reads a frame's checksum byte, nor the trailing bytes: buffers of one length that
agree on the header and on every other byte of their whole frames give the same `TBL`, `HDR` and `STATUS`. -/
def Obligations.DecodeIgnoresChecksumsAndTrailingBytes : Prop :=
  ∀ (s t : State) (b c : List Byte), s.ibuf = some b → b.length = c.length → (∀ p < 5, byteAt b p = byteAt c p) →
    (∀ p, p / bufferStride b < b.length / bufferStride b → p % bufferStride b ≠ bufferStride b - 1 →
      byteAt b p = byteAt c p) →
    exec .decode s = .next t → exec .decode { s with ibuf := some c } = .next { t with ibuf := some c }

/-- R42, R75: decoding again without a change of operands gives the identical state. -/
def Obligations.DecodeTwiceIsDecodeOnce : Prop :=
  ∀ s t : State, exec .decode s = .next t → exec .decode t = .next t

/-- R97, R96, R134, R135 and log 1: running a TAG row (TAG.U8, TAG.U16, TAG.U32, TAG.U64, TAG.I8, TAG.I16, TAG.I32,
TAG.I64, TAG.F32) parses `IBUF` with the row's element type, and with timestamps exactly when its field `T` is 1. -/
def Obligations.TagRowsSelectTheType : Prop :=
  ∀ (e : EType) (stamped : Bool) (s : State) (b : List Byte), s.ibuf = some b →
    DecodeAccepts s (b.set 4 (tagByte e stamped)) e →
    ∃ t, exec (tagInstr e stamped) s = .next
        { s with tbl := some t, hdr := headerOf (b.set 4 (tagByte e stamped)), status := okAfter s.status false } ∧
      TableDecoded s (b.set 4 (tagByte e stamped)) e t ∧ t.etype = some e ∧
      (t.indexKind = .positional ↔ stamped = false)

/-- R94, R139 and log 1: running a KIND row (KIND.NA, KIND.READ, KIND.WRITE, KIND.EVENT) decodes `IBUF` with the
row's kind in the first frame: with `KEEP_KIND` set, the first row has that kind; without, the byte is not looked
at. -/
def Obligations.KindRowsSelectTheKind : Prop :=
  ∀ (k : Kind) (e : EType) (s : State) (b : List Byte), s.ibuf = some b → DecodeAccepts s (b.set 0 (kindCode k)) e →
    ∃ t, exec (kindInstr k) s = .next
        { s with tbl := some t, hdr := headerOf b, status := okAfter s.status false } ∧
      TableDecoded s (b.set 0 (kindCode k)) e t ∧
      ∀ row : Record, t.rows[0]? = some row → row.kind = if s.keepKind then some k else none

/-- R66, R68: every address DECODE forms on a buffer whose header it accepts is in bounds. The header bytes lie in the
buffer; the whole frames do; in each frame the kind byte, the timestamp fields where there are any, and every element
end at or before the frame's checksum byte, its last one. Frames without an element are among them. -/
def Obligations.DecodeAddressesAreInBounds : Prop :=
  ∀ (o : DecodeOperands) (b : List Byte) (l : Layout), parseHeader o b = .ok l →
    5 ≤ b.length ∧ l.rows * l.stride ≤ b.length ∧
      ∀ r < l.rows,
        kindAddr l.stride r + 1 ≤ cksumAddr l.stride r ∧
        (l.timestamped = true →
          secondsAddr l.stride r + 4 ≤ cksumAddr l.stride r ∧ ticksAddr l.stride r + 2 ≤ cksumAddr l.stride r) ∧
        (∀ c < l.count, elemAddr l.stride l.off l.etype.size r c + l.etype.size ≤ cksumAddr l.stride r) ∧
        cksumAddr l.stride r + 1 ≤ l.rows * l.stride

/-! ### ENCODE -/

/-- R161: a table without rows encodes to no bytes, whatever the other operands are. -/
def Obligations.EncodeOfEmptyTable : Prop :=
  ∀ (s : State) (t : Table), s.tbl = some t → t.rows = [] →
    exec .encode s = .next { s with obuf := some [], status := okAfter s.status false }

/-- R162 to R169: ENCODE of an accepted table writes one frame of the common stride per row, in table order, and
changes nothing else but `STATUS`. -/
def Obligations.EncodeWritesTheFrames : Prop :=
  ∀ (s : State) (t : Table) (src : EType), s.tbl = some t → EncodeAccepts s t src →
    ∃ data, exec .encode s = .next { s with obuf := some data, status := okAfter s.status false } ∧
      data.length = t.rows.length * tableStride t (targetType s src) ∧
      ∀ (r : Nat) (row : Record), t.rows[r]? = some row →
        FrameOfRow s t src row
          (memRead data (r * tableStride t (targetType s src)) (tableStride t (targetType s src)))

/-- R162 to R167, R267: ENCODE's faults on a table with rows, each with the tests before it passed. -/
def Obligations.EncodeFaultsInOrder : Prop :=
  ∀ (s : State) (t : Table) (src : EType), s.tbl = some t → t.wellFormed = true → t.rows ≠ [] → t.etype = some src →
    (t.hasKind = true → s.encKind.isSome = true → FaultsWith .encode s 10 none none) ∧
    (t.hasKind = false → s.encKind = none → FaultsWith .encode s 9 none none) ∧
    (s.encKind.isSome = !t.hasKind →
      (s.epoch.isSome = true → t.indexKind ≠ .moment →
        FaultsWith .encode s 11 (some (.indexKind .moment)) (some (.indexKind t.indexKind))) ∧
      (s.epoch = none → t.indexKind = .moment →
        FaultsWith .encode s 11 (some (.indexKind .seconds)) (some (.indexKind .moment))) ∧
      (EpochFits s.epoch t.indexKind →
        (¬ CoercionFits src (targetType s src) t.rows →
          FaultsWith .encode s 12 (some (.etype (targetType s src))) (some (.etype src))) ∧
        (CoercionFits src (targetType s src) t.rows →
          (257 < tableStride t (targetType s src) →
            FaultsWith .encode s 13 (some (.int 257)) (some (.int (tableStride t (targetType s src))))) ∧
          (tableStride t (targetType s src) ≤ 257 → stampedBy t.indexKind = true →
            ∀ (r : Nat) (row : Record), t.rows[r]? = some row →
              ((rowTime s row).floor < 0 ∨ 4294967296 ≤ (rowTime s row).floor) →
              (∀ (q : Nat) (prev : Record), q < r → t.rows[q]? = some prev →
                0 ≤ (rowTime s prev).floor ∧ (rowTime s prev).floor < 4294967296) →
              FaultsWith .encode s 14 none (some (.int (rowTime s row).floor))))))

/-- R28 and log 10: a valid `TBL` that is no table (no run reaches it, by `StepKeepsSound`) stops the model. -/
def Obligations.EncodeStopsOnMalformedTable : Prop :=
  ∀ (s : State) (t : Table), s.tbl = some t → t.wellFormed = false → exec .encode s = .fault .malformedTable

/-- R164, R30: a coercion that ENCODE makes changes no element's value, and its pattern fits the target type. -/
def Obligations.CoercionKeepsValues : Prop :=
  ∀ (src dst : EType) (p : Nat), src ≠ .f32 → dst ≠ .f32 → p < 256 ^ src.size →
    leastOf dst ≤ valueOf src p → valueOf src p ≤ greatestOf dst →
    coercePattern src dst p < 256 ^ dst.size ∧ valueOf dst (coercePattern src dst p) = valueOf src p

/-- R101, R245: the tick field of every time is the rounded count of ticks in its fraction; it lies in 0..31250, so
the wrap at 65536 never changes it, and it is within half a tick of the fraction. -/
def Obligations.TicksNeverWrap : Prop :=
  ∀ t : Rat, ticksOf t ≤ 31250 ∧ (ticksOf t : Int) = roundHalfEven ((t - t.floor) * 31250) ∧
    |(t - t.floor) - (ticksOf t : Rat) / 31250| ≤ 1 / 62500

/-- R172, with two restrictions. It holds where the spec's rules R163 and R172 agree (log 11); and a well-formed frame
is long enough for its header, its timestamp and its checksum, which R108's list of conditions does not print (log 23):
DECODE raises `STRIDE_TOO_SMALL` on the others. Where both hold, a well-formed single-register buffer,
decoded with kinds kept and true or absent expectations, and encoded with the decoded address and port, comes back
byte for byte. With `EPOCH` supplied the buffer is timestamped. -/
def Obligations.BufferRoundTrip : Prop :=
  ∀ (s : State) (b : List Byte), s.ibuf = some b → bufferWellFormed b = true → s.keepKind = true → s.ncols = none →
    (b ≠ [] → Admits s.expAddr (byteAt b 2) ∧
      ∀ e : EType, typeOf (byteAt b 4) = some e →
        Admits s.expType e ∧ Admits s.expLen (elementCount (bufferStride b) (byteAt b 4) e)) →
    (b = [] ∨ s.epoch = none ∨ timestampFlag (byteAt b 4) = true) →
    ∃ t u : State, exec .decode s = .next t ∧ t.status.code = 0 ∧
      exec .encode { t with encAddr := t.hdr.fields.address, encPort := t.hdr.fields.port,
                            encDtype := none, encKind := none } = .next u ∧
      u.status.code = 0 ∧ u.obuf = some b

/-- R172 word for word takes any `EPOCH`; but with `EPOCH` supplied and the timestamp flag clear the decoded table
is POSITIONAL (R137) and ENCODE raises `EPOCH_INDEX` (R163). So the law fails there (log 11). Well-formed frames are
those of log 23. -/
def Obligations.BufferRoundTripForAnyEpoch : Prop :=
  ∀ (s : State) (b : List Byte), s.ibuf = some b → bufferWellFormed b = true → s.keepKind = true → s.ncols = none →
    s.expAddr = none → s.expType = none → s.expLen = none →
    ∃ t u : State, exec .decode s = .next t ∧ t.status.code = 0 ∧
      exec .encode { t with encAddr := t.hdr.fields.address, encPort := t.hdr.fields.port,
                            encDtype := none, encKind := none } = .next u ∧
      u.status.code = 0 ∧ u.obuf = some b

/-- R173: an encoded table, decoded with the same `EPOCH` and no expectations, comes back: same shape, the target
element type, the coerced patterns, the kinds, and each time within half a tick, exactly when it is a whole number
of ticks. -/
def Obligations.TableRoundTrip : Prop :=
  ∀ (s : State) (t : Table) (src : EType) (u : State), s.tbl = some t → t.rows ≠ [] → t.etype = some src →
    exec .encode s = .next u → u.status.code = 0 →
    s.expAddr = none → s.expType = none → s.expLen = none → s.ncols = none → s.keepKind = t.hasKind →
    ∃ (w : State) (t' : Table), exec .decode { u with ibuf := u.obuf } = .next w ∧ w.status.code = 0 ∧
      w.tbl = some t' ∧
      t'.indexKind = t.indexKind ∧ t'.etype = some (targetType s src) ∧ t'.ncols = t.ncols ∧
      t'.hasKind = t.hasKind ∧ t'.rows.length = t.rows.length ∧
      ∀ (r : Nat) (row row' : Record), t.rows[r]? = some row → t'.rows[r]? = some row' →
        row'.kind = row.kind ∧ row'.payload = row.payload.map (coercePattern src (targetType s src)) ∧
        ∀ x, row.ts = some x → ∃ x', row'.ts = some x' ∧ |x' - x| ≤ 1 / 62500 ∧
          (x' = x ↔ ∃ n : Int, (x - s.epoch.getD 0) * 31250 = n)

/-- R11: the rounded integer is nearest, and even where two are. -/
def Obligations.RoundIsHalfToEven : Prop :=
  ∀ q : Rat, |q - roundHalfEven q| ≤ 1 / 2 ∧ (|q - roundHalfEven q| = 1 / 2 → roundHalfEven q % 2 = 0)

/-! ### The barcode unit -/

/-- R191, R192: SEGMENT writes exactly the ranges strictly between two gaps with no gap inside, in ascending order,
and changes nothing else but `STATUS`. -/
def Obligations.SegmentFindsTheRunsBetweenGaps : Prop :=
  ∀ (s : State) (tr : Transitions), s.tr = some tr →
    ∃ ranges, exec .segment s = .next { s with edg := some ranges, status := okAfter s.status false } ∧
      RunsBetweenGaps tr.t s.minDelta ranges

/-- R193 to R197, R200: BARDEC's value is the weighed state vector of the range, and nothing else but `STATUS`
changes. -/
def Obligations.BardecWeighsTheLevels : Prop :=
  ∀ (s : State) (tr : Transitions) (t : List Rat) (levels : List Bool), s.tr = some tr →
    tr.t.length = tr.s.length → s.bcLo ≤ s.bcHi → s.bcHi ≤ tr.t.length →
    RatesPositive s → t = slice tr.t s.bcLo s.bcHi → levels = slice tr.s s.bcLo s.bcHi →
    BarcodeReadable s t levels →
    exec .bardec s = .next
      { s with bcVal := some (BitVec.ofNat 32 (weighLevels (levelVector s t levels))),
               status := okAfter s.status false }

/-- R198, R195, R197, R267: BARDEC's faults, each with the tests before it passed. -/
def Obligations.BardecFaultsInOrder : Prop :=
  ∀ (s : State) (tr : Transitions), s.tr = some tr →
    (tr.t.length ≠ tr.s.length → FaultsWith .bardec s 15 (some (.int tr.t.length)) (some (.int tr.s.length))) ∧
    (tr.t.length = tr.s.length →
      (s.bcHi < s.bcLo ∨ tr.t.length < s.bcHi →
        FaultsWith .bardec s 17 (some (.int tr.t.length)) (some (.int s.bcHi))) ∧
      (s.bcLo ≤ s.bcHi → s.bcHi ≤ tr.t.length →
        (¬ RatesPositive s → FaultsWith .bardec s 16 none none) ∧
        (RatesPositive s →
          ∀ (t : List Rat) (levels : List Bool), t = slice tr.t s.bcLo s.bcHi → levels = slice tr.s s.bcLo s.bcHi →
            (∀ i, i + 1 < t.length → periodsAt s t i < 0 → (∀ j < i, 0 ≤ periodsAt s t j) →
              FaultsWith .bardec s 18 none (some (.int i))) ∧
            ((∀ i, i + 1 < t.length → 0 ≤ periodsAt s t i) → (levelVector s t levels).length < 39 →
              FaultsWith .bardec s 19 (some (.int 39)) (some (.int (levelVector s t levels).length))))))

/-- R110 to R113, R199 (c): the transitions of a barcode of R110, anywhere in `TR` and in seconds or in samples,
decode to its value when bit 31 is clear, and to `BARCODE_SHORT` when it is set. -/
def Obligations.BardecReadsBackABarcode : Prop :=
  ∀ (s : State) (v : Nat) (t0 : Rat) (before after : Transitions), RatesPositive s → v < 4294967296 →
    before.t.length = before.s.length → after.t.length = after.s.length →
    s.tr = some
      { t := before.t ++ (barcodeTransitions v t0 s.baud).t.map (· * unitsPerSecond s) ++ after.t
        s := before.s ++ (barcodeTransitions v t0 s.baud).s ++ after.s } →
    s.bcLo = before.t.length → s.bcHi = before.t.length + (barcodeTransitions v t0 s.baud).t.length →
    (v < 2147483648 →
      exec .bardec s = .next { s with bcVal := some (BitVec.ofNat 32 v), status := okAfter s.status false }) ∧
    (2147483648 ≤ v → ∃ n : Nat, n ≤ 38 ∧ FaultsWith .bardec s 19 (some (.int 39)) (some (.int n)))

/-- R201: OUTLIER.REPAIR overwrites, in one ascending pass, each value that is more than 1 away from its already
repaired predecessor; the count is the number of values changed. Local times stay. -/
def Obligations.RepairIsSequential : Prop :=
  ∀ (s : State) (a : Anchors), s.an = some a → a.localTimes.length = a.harp.length →
    ∃ (harp : List Int) (n : Nat), exec .outlierRepair s = .next
        { s with an := some { localTimes := a.localTimes, harp := harp }, outlierCount := n,
                 status := okAfter s.status (0 < n) } ∧
      harp.length = a.harp.length ∧ harp[0]? = a.harp[0]? ∧
      (∀ (i : Nat) (old prev : Int), a.harp[i + 1]? = some old → harp[i]? = some prev →
        harp[i + 1]? = some (if 1 < |old - prev| then prev + 1 else old)) ∧
      n = ((List.range harp.length).filter fun i => harp[i]? ≠ a.harp[i]?).length

/-- R202: OUTLIER.DROP keeps, in order and with their local times, exactly the anchors in a run of length at least 2
of values ascending by exactly 1, that is those with such a neighbour; the count is the number dropped. -/
def Obligations.DropKeepsTheRuns : Prop :=
  ∀ (s : State) (a : Anchors) (keep : List Nat), s.an = some a → a.localTimes.length = a.harp.length →
    keep = ((List.range a.harp.length).filter fun i =>
      (0 < i && a.harp.getD i 0 - a.harp.getD (i - 1) 0 == 1) ||
        (i + 1 < a.harp.length && a.harp.getD (i + 1) 0 - a.harp.getD i 0 == 1)) →
    exec .outlierDrop s = .next
      { s with
        an := some { localTimes := keep.map fun i => a.localTimes.getD i 0, harp := keep.map fun i => a.harp.getD i 0 }
        outlierCount := a.harp.length - keep.length
        status := okAfter s.status (keep.length < a.harp.length) }

/-- R198, R267: the faults of OUTLIER.* after the operand test. -/
def Obligations.OutlierArrayLengthFault : Prop :=
  ∀ (i : Instr) (s : State) (a : Anchors), i = .outlierRepair ∨ i = .outlierDrop → s.an = some a →
    a.localTimes.length ≠ a.harp.length →
    FaultsWith i s 15 (some (.int a.localTimes.length)) (some (.int a.harp.length))

/-- R304 (h): the same policy run again changes no anchor, counts 0 and clears the warning. -/
def Obligations.CorrectionIsIdempotent : Prop :=
  ∀ (i : Instr) (s t : State), i = .outlierRepair ∨ i = .outlierDrop → exec i s = .next t → t.status.code = 0 →
    exec i t = .next { t with outlierCount := 0, status := okAfter t.status false }

/-- R204, R205, R121: CLOCKDEC.REPAIR and CLOCKDEC.DROP: the ranges of SEGMENT at half a second, the value BARDEC
gives each, and the outlier policy on those anchors, without touching the registers of the parts. -/
def Obligations.ClockdecIsTheChain : Prop :=
  ∀ (s : State) (tr : Transitions) (ranges : List (Nat × Nat)) (i policy : Instr), s.tr = some tr →
    tr.t.length = tr.s.length → RatesPositive s →
    (i = .clockdecRepair ∧ policy = .outlierRepair) ∨ (i = .clockdecDrop ∧ policy = .outlierDrop) →
    RunsBetweenGaps tr.t (unitsPerSecond s / 2) ranges →
    (∀ r ∈ ranges, BarcodeReadable s (slice tr.t r.1 r.2) (slice tr.s r.1 r.2)) →
    ∃ (a : Anchors) (n : Nat),
      exec policy { s with an := some (anchorsOf s tr ranges) } =
        .next { s with an := some a, outlierCount := n, status := okAfter s.status (0 < n) } ∧
      exec i s =
        .next { s with edg := some ranges, an := some a, outlierCount := n, status := okAfter s.status (0 < n) }

/-- R204, R198, R267: CLOCKDEC.*'s faults: unequal arrays, rates, then the first range whose BARDEC faults, with
that fault; neither result is left and `OUTLIER_COUNT` keeps its value. -/
def Obligations.ClockdecFaultsInOrder : Prop :=
  ∀ (s : State) (tr : Transitions) (i : Instr), s.tr = some tr → i = .clockdecRepair ∨ i = .clockdecDrop →
    (tr.t.length ≠ tr.s.length → FaultsWith i s 15 (some (.int tr.t.length)) (some (.int tr.s.length))) ∧
    (tr.t.length = tr.s.length → ¬ RatesPositive s → FaultsWith i s 16 none none) ∧
    (tr.t.length = tr.s.length → RatesPositive s →
      ∀ (ranges : List (Nat × Nat)) (j : Nat) (r : Nat × Nat) (w : State),
        RunsBetweenGaps tr.t (unitsPerSecond s / 2) ranges → ranges[j]? = some r →
        exec .bardec { s with bcLo := r.1, bcHi := r.2 } = .next w → w.status.code ≠ 0 →
        (∀ (q : Nat) (r' : Nat × Nat), q < j → ranges[q]? = some r' →
          BarcodeReadable s (slice tr.t r'.1 r'.2) (slice tr.s r'.1 r'.2)) →
        exec i s = .next { s with edg := none, an := none, status := w.status })

/-! ### The aligner -/

/-- R231 to R234: ALIGN.BUILD writes a map over the anchors' local times whose local fits are the lines through
consecutive anchors, and changes nothing else but `STATUS`. -/
def Obligations.BuildFitsConsecutiveAnchors : Prop :=
  ∀ (s : State) (a : Anchors), s.an = some a → AnchorsFit a →
    ∃ m, exec .alignBuild s = .next { s with pm := some m, status := okAfter s.status false } ∧
      mapSize m = a.localTimes.length ∧ mapTimes m = a.localTimes ∧
      ∀ (k : Nat) (entry : MapEntry) (x0 x1 : Rat) (y0 y1 : Int), (mapEntries m)[k + 1]? = some entry →
        a.localTimes[k]? = some x0 → a.localTimes[k + 1]? = some x1 → a.harp[k]? = some y0 →
        a.harp[k + 1]? = some y1 →
        entry.slope = ((y1 : Rat) - y0) / (x1 - x0) ∧ entry.offset = y0 - entry.slope * x0 ∧
          x0 * entry.slope + entry.offset = y0 ∧ x1 * entry.slope + entry.offset = y1

/-- R232: index 0 of the map holds the unique least-squares line over all anchors, by the closed form. -/
def Obligations.GlobalFitIsLeastSquares : Prop :=
  ∀ (s : State) (a : Anchors) (t : State) (m : PiecewiseMap), s.an = some a → AnchorsFit a →
    exec .alignBuild s = .next t → t.pm = some m →
    (∀ p q : Rat, squaredError a m.global.slope m.global.offset ≤ squaredError a p q) ∧
      (∀ p q : Rat, squaredError a p q = squaredError a m.global.slope m.global.offset →
        p = m.global.slope ∧ q = m.global.offset) ∧
      ∀ n sx sy sxx sxy : Rat, n = (a.localTimes.length : Rat) → sx = a.localTimes.sum →
        sy = (a.harp.map fun h => (h : Rat)).sum → sxx = (a.localTimes.map fun x => x * x).sum →
        sxy = ((a.localTimes.zip a.harp).map fun p => p.1 * (p.2 : Rat)).sum →
        0 < n * sxx - sx * sx ∧ m.global.slope = (n * sxy - sx * sy) / (n * sxx - sx * sx) ∧
          m.global.offset = (sy - m.global.slope * sx) / n

/-- R235 to R237: ALIGN.QUERY answers every query in order: up to the first anchor and beyond the last by the global
fit (the wrap), between two anchors by their local fit; nothing else but `STATUS` changes. -/
def Obligations.QuerySelectsTheSegment : Prop :=
  ∀ (s : State) (m : PiecewiseMap) (q : List Rat), s.pm = some m → s.qt = some q → (mapTimes m).Pairwise (· < ·) →
    ∃ out, exec .alignQuery s = .next { s with qa := some out, status := okAfter s.status false } ∧
      out.length = q.length ∧
      ∀ (j : Nat) (t y : Rat), q[j]? = some t → out[j]? = some y →
        (t ≤ m.global.x ∨ (∀ x ∈ mapTimes m, x < t) → y = t * m.global.slope + m.global.offset) ∧
        ∀ (k : Nat) (a b : MapEntry), (mapEntries m)[k]? = some a → (mapEntries m)[k + 1]? = some b → a.x < t →
          t ≤ b.x →
          y = t * b.slope + b.offset

/-- R238, R239, R240: ALIGN answers, between anchors `k` and `k + 1`, on the line through them; so it reproduces
every anchor but the first. -/
def Obligations.AlignIsLinearBetweenAnchors : Prop :=
  ∀ (s : State) (a : Anchors) (q : List Rat), s.an = some a → AnchorsFit a → s.qt = some q →
    ∃ m out, exec .align s = .next { s with pm := some m, qa := some out, status := okAfter s.status false } ∧
      mapTimes m = a.localTimes ∧ out.length = q.length ∧
      ∀ (j k : Nat) (t y x0 x1 : Rat) (y0 y1 : Int), q[j]? = some t → out[j]? = some y →
        a.localTimes[k]? = some x0 → a.localTimes[k + 1]? = some x1 → a.harp[k]? = some y0 →
        a.harp[k + 1]? = some y1 → x0 < t → t ≤ x1 →
        y = y0 + (t - x0) * (((y1 : Rat) - y0) / (x1 - x0)) ∧ (t = x1 → y = y1)

/-- R238, R121: ALIGN is ALIGN.BUILD followed by ALIGN.QUERY; when the build faults, ALIGN reports that fault and
leaves neither result. -/
def Obligations.AlignIsBuildThenQuery : Prop :=
  ∀ s u : State, s.an.isSome = true → s.qt.isSome = true → exec .alignBuild s = .next u →
    (u.status.code = 0 → exec .align s = exec .alignQuery u) ∧
      (u.status.code ≠ 0 → exec .align s = .next { u with qa := none })

/-- R231, R267: the faults of ALIGN.BUILD and ALIGN after the operand test, each with the tests before it passed. -/
def Obligations.AlignerFaultsInOrder : Prop :=
  ∀ (s : State) (a : Anchors) (i : Instr), s.an = some a → i = .alignBuild ∨ (i = .align ∧ s.qt.isSome = true) →
    (a.localTimes.length ≠ a.harp.length →
      FaultsWith i s 15 (some (.int a.localTimes.length)) (some (.int a.harp.length))) ∧
    (a.localTimes.length = a.harp.length → a.localTimes.length < 2 →
      FaultsWith i s 20 (some (.int 2)) (some (.int a.localTimes.length))) ∧
    (a.localTimes.length = a.harp.length → 2 ≤ a.localTimes.length →
      ∀ (k : Nat) (x y : Rat), a.localTimes[k]? = some x → a.localTimes[k + 1]? = some y → y ≤ x →
        (∀ (j : Nat) (x' y' : Rat), j < k → a.localTimes[j]? = some x' → a.localTimes[j + 1]? = some y' → x' < y') →
        FaultsWith i s 21 none (some (.int ((k : Int) + 1))))

/-! ### The separate loads of `TR` -/

/-- R34, R43: the two sequences of `TR` are loaded separately, of any lengths. `TR` is valid exactly when both have been
loaded, its content being the two (DEDUCED, log 18); a load of one sequence keeps the other; and the two loads, in
either order, leave what one load of both leaves, but for the model's own count of actions. -/
def Obligations.TransitionsLoadSeparately : Prop :=
  (∀ (s : State) (c : Transitions), s.tr = some c ↔ s.trTimes = some c.t ∧ s.trStates = some c.s) ∧
    (∀ (s : State) (x : List Rat) (rest : List HostAction), s.host = .load (.trTimes x) :: rest →
      ∃ u, step s = .next u ∧ u.tr = s.trStates.map fun l => { t := x, s := l }) ∧
    (∀ (s : State) (l : List Bool) (rest : List HostAction), s.host = .load (.trStates l) :: rest →
      ∃ u, step s = .next u ∧ u.tr = s.trTimes.map fun x => { t := x, s := l }) ∧
    ∀ (s : State) (x : List Rat) (l : List Bool) (rest : List HostAction) (first second : HostAction),
      s.host = first :: second :: rest →
      (first = .load (.trTimes x) ∧ second = .load (.trStates l)) ∨
        (first = .load (.trStates l) ∧ second = .load (.trTimes x)) →
      ∃ u v w : State, step s = .next u ∧ step u = .next v ∧
        step { s with host := .load (.tr { t := x, s := l }) :: rest } = .next w ∧
        v = { w with freeCtr := w.freeCtr + 1 } ∧ v.tr = some { t := x, s := l }
end

