-- ==== Sys2Proof/Laws/Bytes.lean ====
section
/-! SUPPORT. Bytes and integers: reading, writing and rounding. -/

namespace Sys2Proof.Machine

@[simp] theorem leBytes_length (v n : Nat) : (leBytes v n).length = n := by
  induction n generalizing v with
  | zero => rfl
  | succ n ih => simp [leBytes, ih]

theorem leNat_lt (b : List Byte) : leNat b < 256 ^ b.length := by
  induction b with
  | nil => simp [leNat]
  | cons x b ih =>
    have hx := x.isLt
    simp only [leNat, List.length_cons, Nat.pow_succ]
    omega

/-- R9: `LE` undoes `LEbytes` on its domain. -/
theorem leNat_leBytes (n v : Nat) (h : v < 256 ^ n) : leNat (leBytes v n) = v := by
  induction n generalizing v with
  | zero => simp at h; simp [leBytes, leNat, h]
  | succ n ih =>
    have : v / 256 < 256 ^ n := by
      rw [Nat.div_lt_iff_lt_mul (by decide)]; rwa [Nat.pow_succ] at h
    simp [leBytes, leNat, ih _ this]
    omega

/-- R9: `LEbytes` undoes `LE`. -/
theorem leBytes_leNat (b : List Byte) : leBytes (leNat b) b.length = b := by
  induction b with
  | nil => rfl
  | cons x b ih =>
    have hx : x.toNat < 256 := x.isLt
    have h1 : (x.toNat + 256 * leNat b) / 256 = leNat b := by omega
    simp only [leNat, List.length_cons, leBytes, h1, ih, List.cons.injEq, and_true]
    apply BitVec.eq_of_toNat_eq
    simp
    omega

theorem memRead_length (b : List Byte) (a n : Nat) (h : a + n ≤ b.length) : (memRead b a n).length = n := by
  simp [memRead]; omega

theorem memRead_length_le (b : List Byte) (a n : Nat) : (memRead b a n).length ≤ n := by
  simp [memRead]

/-- R10: byte `i` of a read is byte `addr + i` of the memory. -/
theorem byteAt_memRead (b : List Byte) (a n i : Nat) (h : i < n) : byteAt (memRead b a n) i = byteAt b (a + i) := by
  simp [byteAt, memRead, h]

/-- R102: a pattern read from `n` bytes is below `256 ^ n`. -/
theorem leNat_memRead_lt (b : List Byte) (a n : Nat) : leNat (memRead b a n) < 256 ^ n :=
  lt_of_lt_of_le (leNat_lt _) (Nat.pow_le_pow_right (by decide) (memRead_length_le b a n))

@[simp] theorem checksum_nil : checksum [] = 0 := rfl

/-- R169: the checksum as a number. -/
theorem checksum_toNat (b : List Byte) : (checksum b).toNat = (b.map BitVec.toNat).sum % 256 := by
  simp [checksum]

@[simp] theorem sealFrame_length (b : List Byte) : (sealFrame b).length = b.length + 1 := by simp [sealFrame]

/-- R11: an integer rounds to itself. -/
@[simp] theorem roundHalfEven_intCast (n : Int) : roundHalfEven (n : Rat) = n := by
  simp [roundHalfEven]

/-- R11: rounding gives the floor or the next integer, by which is nearer. -/
theorem roundHalfEven_cases (q : Rat) :
    (roundHalfEven q = q.floor ∧ q - q.floor ≤ 1 / 2) ∨
      (roundHalfEven q = q.floor + 1 ∧ 1 / 2 ≤ q - q.floor) := by
  simp only [roundHalfEven]
  split_ifs with h1 h2 h3
  · exact .inl ⟨rfl, h1.le⟩
  · exact .inr ⟨rfl, h2.le⟩
  · exact .inl ⟨rfl, not_lt.mp h2⟩
  · exact .inr ⟨rfl, not_lt.mp h1⟩

/-- R8: a slice within bounds has the length it says. -/
theorem slice_length {α : Type} (l : List α) (i j : Nat) (h : j ≤ l.length) : (slice l i j).length = j - i := by
  simp [slice]; omega

theorem slice_getElem? {α : Type} (l : List α) (i j k : Nat) (h : k < j - i) : (slice l i j)[k]? = l[i + k]? := by
  simp [slice, h]

end Sys2Proof.Machine
end

