-- ==== Sys2Proof/Laws/State.lean ====
section
/-! SUPPORT. For each update of the state, one lemma per field: what the update writes it to, or that it leaves it.
`raiseFault` and `invalidate` are in Sys2Proof/Laws/Endings.lean. -/

namespace Sys2Proof.Machine

/-! ### `TR` -/

/-- R34, R43: `TR` is valid, with this content, exactly when both sequences are loaded. -/
theorem tr_eq_some (s : State) (c : Transitions) : s.tr = some c ↔ s.trTimes = some c.t ∧ s.trStates = some c.s := by
  unfold State.tr
  obtain ⟨t, levels⟩ := c
  cases s.trTimes <;> cases s.trStates <;> simp

/-- R34: a state with both sequences has that `TR`. -/
theorem tr_of_loaded (s : State) (t : List Rat) (levels : List Bool) (ht : s.trTimes = some t)
    (hl : s.trStates = some levels) : s.tr = some { t := t, s := levels } := (tr_eq_some s _).2 ⟨ht, hl⟩

/-- R34: a load of both sequences makes `TR` valid with them. -/
@[simp] theorem loadMem_tr_tr (c : Transitions) (s : State) : (loadMem (.tr c) s).tr = some c := rfl

/-- R34: a load of `TR.t` keeps `TR.s`, and `TR` is valid after it when `TR.s` is loaded. -/
@[simp] theorem loadMem_trTimes_tr (t : List Rat) (s : State) :
    (loadMem (.trTimes t) s).tr = s.trStates.map fun levels => { t := t, s := levels } := by
  cases h : s.trStates <;> simp [State.tr, loadMem, h]

/-- R34: a load of `TR.s` keeps `TR.t`, and `TR` is valid after it when `TR.t` is loaded. -/
@[simp] theorem loadMem_trStates_tr (levels : List Bool) (s : State) :
    (loadMem (.trStates levels) s).tr = s.trTimes.map fun t => { t := t, s := levels } := by
  cases h : s.trTimes <;> simp [State.tr, loadMem, h]

/-! ### `returnOk` -/

@[simp] theorem returnOk_status (w : Bool) (s : State) : (returnOk w s).status = okStatus w s.status := rfl
@[simp] theorem returnOk_outlierCount (w : Bool) (s : State) : (returnOk w s).outlierCount = s.outlierCount := rfl
@[simp] theorem returnOk_hdr (w : Bool) (s : State) : (returnOk w s).hdr = s.hdr := rfl
@[simp] theorem returnOk_ibuf (w : Bool) (s : State) : (returnOk w s).ibuf = s.ibuf := rfl
@[simp] theorem returnOk_tbl (w : Bool) (s : State) : (returnOk w s).tbl = s.tbl := rfl
@[simp] theorem returnOk_obuf (w : Bool) (s : State) : (returnOk w s).obuf = s.obuf := rfl
@[simp] theorem returnOk_trTimes (w : Bool) (s : State) : (returnOk w s).trTimes = s.trTimes := rfl
@[simp] theorem returnOk_trStates (w : Bool) (s : State) : (returnOk w s).trStates = s.trStates := rfl
@[simp] theorem returnOk_tr (w : Bool) (s : State) : (returnOk w s).tr = s.tr := rfl
@[simp] theorem returnOk_edg (w : Bool) (s : State) : (returnOk w s).edg = s.edg := rfl
@[simp] theorem returnOk_an (w : Bool) (s : State) : (returnOk w s).an = s.an := rfl
@[simp] theorem returnOk_pm (w : Bool) (s : State) : (returnOk w s).pm = s.pm := rfl
@[simp] theorem returnOk_qt (w : Bool) (s : State) : (returnOk w s).qt = s.qt := rfl
@[simp] theorem returnOk_qa (w : Bool) (s : State) : (returnOk w s).qa = s.qa := rfl
@[simp] theorem returnOk_bcVal (w : Bool) (s : State) : (returnOk w s).bcVal = s.bcVal := rfl
@[simp] theorem returnOk_expAddr (w : Bool) (s : State) : (returnOk w s).expAddr = s.expAddr := rfl
@[simp] theorem returnOk_expType (w : Bool) (s : State) : (returnOk w s).expType = s.expType := rfl
@[simp] theorem returnOk_expLen (w : Bool) (s : State) : (returnOk w s).expLen = s.expLen := rfl
@[simp] theorem returnOk_epoch (w : Bool) (s : State) : (returnOk w s).epoch = s.epoch := rfl
@[simp] theorem returnOk_keepKind (w : Bool) (s : State) : (returnOk w s).keepKind = s.keepKind := rfl
@[simp] theorem returnOk_ncols (w : Bool) (s : State) : (returnOk w s).ncols = s.ncols := rfl
@[simp] theorem returnOk_encAddr (w : Bool) (s : State) : (returnOk w s).encAddr = s.encAddr := rfl
@[simp] theorem returnOk_encPort (w : Bool) (s : State) : (returnOk w s).encPort = s.encPort := rfl
@[simp] theorem returnOk_encDtype (w : Bool) (s : State) : (returnOk w s).encDtype = s.encDtype := rfl
@[simp] theorem returnOk_encKind (w : Bool) (s : State) : (returnOk w s).encKind = s.encKind := rfl
@[simp] theorem returnOk_sampleRate (w : Bool) (s : State) : (returnOk w s).sampleRate = s.sampleRate := rfl
@[simp] theorem returnOk_baud (w : Bool) (s : State) : (returnOk w s).baud = s.baud := rfl
@[simp] theorem returnOk_minDelta (w : Bool) (s : State) : (returnOk w s).minDelta = s.minDelta := rfl
@[simp] theorem returnOk_bcLo (w : Bool) (s : State) : (returnOk w s).bcLo = s.bcLo := rfl
@[simp] theorem returnOk_bcHi (w : Bool) (s : State) : (returnOk w s).bcHi = s.bcHi := rfl
@[simp] theorem returnOk_host (w : Bool) (s : State) : (returnOk w s).host = s.host := rfl
@[simp] theorem returnOk_freeCtr (w : Bool) (s : State) : (returnOk w s).freeCtr = s.freeCtr := rfl

/-! ### `commitDecoded` -/

@[simp] theorem commitDecoded_status (d : Decoded) (s : State) : (commitDecoded d s).status = s.status := rfl
@[simp] theorem commitDecoded_outlierCount (d : Decoded) (s : State) :
    (commitDecoded d s).outlierCount = s.outlierCount := rfl
@[simp] theorem commitDecoded_hdr_header (t : Table) (h : Header) (s : State) :
    (commitDecoded ⟨t, some h⟩ s).hdr = ⟨true, h⟩ := rfl
@[simp] theorem commitDecoded_hdr_empty (t : Table) (s : State) :
    (commitDecoded ⟨t, none⟩ s).hdr = invalidHdr s.freeCtr := rfl
@[simp] theorem commitDecoded_ibuf (d : Decoded) (s : State) : (commitDecoded d s).ibuf = s.ibuf := rfl
@[simp] theorem commitDecoded_tbl (d : Decoded) (s : State) : (commitDecoded d s).tbl = some d.table := rfl
@[simp] theorem commitDecoded_obuf (d : Decoded) (s : State) : (commitDecoded d s).obuf = s.obuf := rfl
@[simp] theorem commitDecoded_trTimes (d : Decoded) (s : State) : (commitDecoded d s).trTimes = s.trTimes := rfl
@[simp] theorem commitDecoded_trStates (d : Decoded) (s : State) : (commitDecoded d s).trStates = s.trStates := rfl
@[simp] theorem commitDecoded_tr (d : Decoded) (s : State) : (commitDecoded d s).tr = s.tr := rfl
@[simp] theorem commitDecoded_edg (d : Decoded) (s : State) : (commitDecoded d s).edg = s.edg := rfl
@[simp] theorem commitDecoded_an (d : Decoded) (s : State) : (commitDecoded d s).an = s.an := rfl
@[simp] theorem commitDecoded_pm (d : Decoded) (s : State) : (commitDecoded d s).pm = s.pm := rfl
@[simp] theorem commitDecoded_qt (d : Decoded) (s : State) : (commitDecoded d s).qt = s.qt := rfl
@[simp] theorem commitDecoded_qa (d : Decoded) (s : State) : (commitDecoded d s).qa = s.qa := rfl
@[simp] theorem commitDecoded_bcVal (d : Decoded) (s : State) : (commitDecoded d s).bcVal = s.bcVal := rfl
@[simp] theorem commitDecoded_expAddr (d : Decoded) (s : State) : (commitDecoded d s).expAddr = s.expAddr := rfl
@[simp] theorem commitDecoded_expType (d : Decoded) (s : State) : (commitDecoded d s).expType = s.expType := rfl
@[simp] theorem commitDecoded_expLen (d : Decoded) (s : State) : (commitDecoded d s).expLen = s.expLen := rfl
@[simp] theorem commitDecoded_epoch (d : Decoded) (s : State) : (commitDecoded d s).epoch = s.epoch := rfl
@[simp] theorem commitDecoded_keepKind (d : Decoded) (s : State) : (commitDecoded d s).keepKind = s.keepKind := rfl
@[simp] theorem commitDecoded_ncols (d : Decoded) (s : State) : (commitDecoded d s).ncols = s.ncols := rfl
@[simp] theorem commitDecoded_encAddr (d : Decoded) (s : State) : (commitDecoded d s).encAddr = s.encAddr := rfl
@[simp] theorem commitDecoded_encPort (d : Decoded) (s : State) : (commitDecoded d s).encPort = s.encPort := rfl
@[simp] theorem commitDecoded_encDtype (d : Decoded) (s : State) : (commitDecoded d s).encDtype = s.encDtype := rfl
@[simp] theorem commitDecoded_encKind (d : Decoded) (s : State) : (commitDecoded d s).encKind = s.encKind := rfl
@[simp] theorem commitDecoded_sampleRate (d : Decoded) (s : State) :
    (commitDecoded d s).sampleRate = s.sampleRate := rfl
@[simp] theorem commitDecoded_baud (d : Decoded) (s : State) : (commitDecoded d s).baud = s.baud := rfl
@[simp] theorem commitDecoded_minDelta (d : Decoded) (s : State) : (commitDecoded d s).minDelta = s.minDelta := rfl
@[simp] theorem commitDecoded_bcLo (d : Decoded) (s : State) : (commitDecoded d s).bcLo = s.bcLo := rfl
@[simp] theorem commitDecoded_bcHi (d : Decoded) (s : State) : (commitDecoded d s).bcHi = s.bcHi := rfl
@[simp] theorem commitDecoded_host (d : Decoded) (s : State) : (commitDecoded d s).host = s.host := rfl
@[simp] theorem commitDecoded_freeCtr (d : Decoded) (s : State) : (commitDecoded d s).freeCtr = s.freeCtr := rfl

/-! ### `commitEncoded` -/

@[simp] theorem commitEncoded_status (b : List Byte) (s : State) : (commitEncoded b s).status = s.status := rfl
@[simp] theorem commitEncoded_outlierCount (b : List Byte) (s : State) :
    (commitEncoded b s).outlierCount = s.outlierCount := rfl
@[simp] theorem commitEncoded_hdr (b : List Byte) (s : State) : (commitEncoded b s).hdr = s.hdr := rfl
@[simp] theorem commitEncoded_ibuf (b : List Byte) (s : State) : (commitEncoded b s).ibuf = s.ibuf := rfl
@[simp] theorem commitEncoded_tbl (b : List Byte) (s : State) : (commitEncoded b s).tbl = s.tbl := rfl
@[simp] theorem commitEncoded_obuf (b : List Byte) (s : State) : (commitEncoded b s).obuf = some b := rfl
@[simp] theorem commitEncoded_trTimes (b : List Byte) (s : State) : (commitEncoded b s).trTimes = s.trTimes := rfl
@[simp] theorem commitEncoded_trStates (b : List Byte) (s : State) : (commitEncoded b s).trStates = s.trStates := rfl
@[simp] theorem commitEncoded_tr (b : List Byte) (s : State) : (commitEncoded b s).tr = s.tr := rfl
@[simp] theorem commitEncoded_edg (b : List Byte) (s : State) : (commitEncoded b s).edg = s.edg := rfl
@[simp] theorem commitEncoded_an (b : List Byte) (s : State) : (commitEncoded b s).an = s.an := rfl
@[simp] theorem commitEncoded_pm (b : List Byte) (s : State) : (commitEncoded b s).pm = s.pm := rfl
@[simp] theorem commitEncoded_qt (b : List Byte) (s : State) : (commitEncoded b s).qt = s.qt := rfl
@[simp] theorem commitEncoded_qa (b : List Byte) (s : State) : (commitEncoded b s).qa = s.qa := rfl
@[simp] theorem commitEncoded_bcVal (b : List Byte) (s : State) : (commitEncoded b s).bcVal = s.bcVal := rfl
@[simp] theorem commitEncoded_expAddr (b : List Byte) (s : State) : (commitEncoded b s).expAddr = s.expAddr := rfl
@[simp] theorem commitEncoded_expType (b : List Byte) (s : State) : (commitEncoded b s).expType = s.expType := rfl
@[simp] theorem commitEncoded_expLen (b : List Byte) (s : State) : (commitEncoded b s).expLen = s.expLen := rfl
@[simp] theorem commitEncoded_epoch (b : List Byte) (s : State) : (commitEncoded b s).epoch = s.epoch := rfl
@[simp] theorem commitEncoded_keepKind (b : List Byte) (s : State) : (commitEncoded b s).keepKind = s.keepKind := rfl
@[simp] theorem commitEncoded_ncols (b : List Byte) (s : State) : (commitEncoded b s).ncols = s.ncols := rfl
@[simp] theorem commitEncoded_encAddr (b : List Byte) (s : State) : (commitEncoded b s).encAddr = s.encAddr := rfl
@[simp] theorem commitEncoded_encPort (b : List Byte) (s : State) : (commitEncoded b s).encPort = s.encPort := rfl
@[simp] theorem commitEncoded_encDtype (b : List Byte) (s : State) : (commitEncoded b s).encDtype = s.encDtype := rfl
@[simp] theorem commitEncoded_encKind (b : List Byte) (s : State) : (commitEncoded b s).encKind = s.encKind := rfl
@[simp] theorem commitEncoded_sampleRate (b : List Byte) (s : State) :
    (commitEncoded b s).sampleRate = s.sampleRate := rfl
@[simp] theorem commitEncoded_baud (b : List Byte) (s : State) : (commitEncoded b s).baud = s.baud := rfl
@[simp] theorem commitEncoded_minDelta (b : List Byte) (s : State) : (commitEncoded b s).minDelta = s.minDelta := rfl
@[simp] theorem commitEncoded_bcLo (b : List Byte) (s : State) : (commitEncoded b s).bcLo = s.bcLo := rfl
@[simp] theorem commitEncoded_bcHi (b : List Byte) (s : State) : (commitEncoded b s).bcHi = s.bcHi := rfl
@[simp] theorem commitEncoded_host (b : List Byte) (s : State) : (commitEncoded b s).host = s.host := rfl
@[simp] theorem commitEncoded_freeCtr (b : List Byte) (s : State) : (commitEncoded b s).freeCtr = s.freeCtr := rfl

/-! ### `commitRanges` -/

@[simp] theorem commitRanges_status (r : List (Nat × Nat)) (s : State) : (commitRanges r s).status = s.status := rfl
@[simp] theorem commitRanges_outlierCount (r : List (Nat × Nat)) (s : State) :
    (commitRanges r s).outlierCount = s.outlierCount := rfl
@[simp] theorem commitRanges_hdr (r : List (Nat × Nat)) (s : State) : (commitRanges r s).hdr = s.hdr := rfl
@[simp] theorem commitRanges_ibuf (r : List (Nat × Nat)) (s : State) : (commitRanges r s).ibuf = s.ibuf := rfl
@[simp] theorem commitRanges_tbl (r : List (Nat × Nat)) (s : State) : (commitRanges r s).tbl = s.tbl := rfl
@[simp] theorem commitRanges_obuf (r : List (Nat × Nat)) (s : State) : (commitRanges r s).obuf = s.obuf := rfl
@[simp] theorem commitRanges_trTimes (r : List (Nat × Nat)) (s : State) : (commitRanges r s).trTimes = s.trTimes := rfl
@[simp] theorem commitRanges_trStates (r : List (Nat × Nat)) (s : State) :
    (commitRanges r s).trStates = s.trStates := rfl
@[simp] theorem commitRanges_tr (r : List (Nat × Nat)) (s : State) : (commitRanges r s).tr = s.tr := rfl
@[simp] theorem commitRanges_edg (r : List (Nat × Nat)) (s : State) : (commitRanges r s).edg = some r := rfl
@[simp] theorem commitRanges_an (r : List (Nat × Nat)) (s : State) : (commitRanges r s).an = s.an := rfl
@[simp] theorem commitRanges_pm (r : List (Nat × Nat)) (s : State) : (commitRanges r s).pm = s.pm := rfl
@[simp] theorem commitRanges_qt (r : List (Nat × Nat)) (s : State) : (commitRanges r s).qt = s.qt := rfl
@[simp] theorem commitRanges_qa (r : List (Nat × Nat)) (s : State) : (commitRanges r s).qa = s.qa := rfl
@[simp] theorem commitRanges_bcVal (r : List (Nat × Nat)) (s : State) : (commitRanges r s).bcVal = s.bcVal := rfl
@[simp] theorem commitRanges_expAddr (r : List (Nat × Nat)) (s : State) :
    (commitRanges r s).expAddr = s.expAddr := rfl
@[simp] theorem commitRanges_expType (r : List (Nat × Nat)) (s : State) :
    (commitRanges r s).expType = s.expType := rfl
@[simp] theorem commitRanges_expLen (r : List (Nat × Nat)) (s : State) : (commitRanges r s).expLen = s.expLen := rfl
@[simp] theorem commitRanges_epoch (r : List (Nat × Nat)) (s : State) : (commitRanges r s).epoch = s.epoch := rfl
@[simp] theorem commitRanges_keepKind (r : List (Nat × Nat)) (s : State) :
    (commitRanges r s).keepKind = s.keepKind := rfl
@[simp] theorem commitRanges_ncols (r : List (Nat × Nat)) (s : State) : (commitRanges r s).ncols = s.ncols := rfl
@[simp] theorem commitRanges_encAddr (r : List (Nat × Nat)) (s : State) :
    (commitRanges r s).encAddr = s.encAddr := rfl
@[simp] theorem commitRanges_encPort (r : List (Nat × Nat)) (s : State) :
    (commitRanges r s).encPort = s.encPort := rfl
@[simp] theorem commitRanges_encDtype (r : List (Nat × Nat)) (s : State) :
    (commitRanges r s).encDtype = s.encDtype := rfl
@[simp] theorem commitRanges_encKind (r : List (Nat × Nat)) (s : State) :
    (commitRanges r s).encKind = s.encKind := rfl
@[simp] theorem commitRanges_sampleRate (r : List (Nat × Nat)) (s : State) :
    (commitRanges r s).sampleRate = s.sampleRate := rfl
@[simp] theorem commitRanges_baud (r : List (Nat × Nat)) (s : State) : (commitRanges r s).baud = s.baud := rfl
@[simp] theorem commitRanges_minDelta (r : List (Nat × Nat)) (s : State) :
    (commitRanges r s).minDelta = s.minDelta := rfl
@[simp] theorem commitRanges_bcLo (r : List (Nat × Nat)) (s : State) : (commitRanges r s).bcLo = s.bcLo := rfl
@[simp] theorem commitRanges_bcHi (r : List (Nat × Nat)) (s : State) : (commitRanges r s).bcHi = s.bcHi := rfl
@[simp] theorem commitRanges_host (r : List (Nat × Nat)) (s : State) : (commitRanges r s).host = s.host := rfl
@[simp] theorem commitRanges_freeCtr (r : List (Nat × Nat)) (s : State) :
    (commitRanges r s).freeCtr = s.freeCtr := rfl

/-! ### `commitBarcode` -/

@[simp] theorem commitBarcode_status (v : Nat) (s : State) : (commitBarcode v s).status = s.status := rfl
@[simp] theorem commitBarcode_outlierCount (v : Nat) (s : State) :
    (commitBarcode v s).outlierCount = s.outlierCount := rfl
@[simp] theorem commitBarcode_hdr (v : Nat) (s : State) : (commitBarcode v s).hdr = s.hdr := rfl
@[simp] theorem commitBarcode_ibuf (v : Nat) (s : State) : (commitBarcode v s).ibuf = s.ibuf := rfl
@[simp] theorem commitBarcode_tbl (v : Nat) (s : State) : (commitBarcode v s).tbl = s.tbl := rfl
@[simp] theorem commitBarcode_obuf (v : Nat) (s : State) : (commitBarcode v s).obuf = s.obuf := rfl
@[simp] theorem commitBarcode_trTimes (v : Nat) (s : State) : (commitBarcode v s).trTimes = s.trTimes := rfl
@[simp] theorem commitBarcode_trStates (v : Nat) (s : State) : (commitBarcode v s).trStates = s.trStates := rfl
@[simp] theorem commitBarcode_tr (v : Nat) (s : State) : (commitBarcode v s).tr = s.tr := rfl
@[simp] theorem commitBarcode_edg (v : Nat) (s : State) : (commitBarcode v s).edg = s.edg := rfl
@[simp] theorem commitBarcode_an (v : Nat) (s : State) : (commitBarcode v s).an = s.an := rfl
@[simp] theorem commitBarcode_pm (v : Nat) (s : State) : (commitBarcode v s).pm = s.pm := rfl
@[simp] theorem commitBarcode_qt (v : Nat) (s : State) : (commitBarcode v s).qt = s.qt := rfl
@[simp] theorem commitBarcode_qa (v : Nat) (s : State) : (commitBarcode v s).qa = s.qa := rfl
@[simp] theorem commitBarcode_bcVal (v : Nat) (s : State) :
    (commitBarcode v s).bcVal = some (BitVec.ofNat 32 v) := rfl
@[simp] theorem commitBarcode_expAddr (v : Nat) (s : State) : (commitBarcode v s).expAddr = s.expAddr := rfl
@[simp] theorem commitBarcode_expType (v : Nat) (s : State) : (commitBarcode v s).expType = s.expType := rfl
@[simp] theorem commitBarcode_expLen (v : Nat) (s : State) : (commitBarcode v s).expLen = s.expLen := rfl
@[simp] theorem commitBarcode_epoch (v : Nat) (s : State) : (commitBarcode v s).epoch = s.epoch := rfl
@[simp] theorem commitBarcode_keepKind (v : Nat) (s : State) : (commitBarcode v s).keepKind = s.keepKind := rfl
@[simp] theorem commitBarcode_ncols (v : Nat) (s : State) : (commitBarcode v s).ncols = s.ncols := rfl
@[simp] theorem commitBarcode_encAddr (v : Nat) (s : State) : (commitBarcode v s).encAddr = s.encAddr := rfl
@[simp] theorem commitBarcode_encPort (v : Nat) (s : State) : (commitBarcode v s).encPort = s.encPort := rfl
@[simp] theorem commitBarcode_encDtype (v : Nat) (s : State) : (commitBarcode v s).encDtype = s.encDtype := rfl
@[simp] theorem commitBarcode_encKind (v : Nat) (s : State) : (commitBarcode v s).encKind = s.encKind := rfl
@[simp] theorem commitBarcode_sampleRate (v : Nat) (s : State) : (commitBarcode v s).sampleRate = s.sampleRate := rfl
@[simp] theorem commitBarcode_baud (v : Nat) (s : State) : (commitBarcode v s).baud = s.baud := rfl
@[simp] theorem commitBarcode_minDelta (v : Nat) (s : State) : (commitBarcode v s).minDelta = s.minDelta := rfl
@[simp] theorem commitBarcode_bcLo (v : Nat) (s : State) : (commitBarcode v s).bcLo = s.bcLo := rfl
@[simp] theorem commitBarcode_bcHi (v : Nat) (s : State) : (commitBarcode v s).bcHi = s.bcHi := rfl
@[simp] theorem commitBarcode_host (v : Nat) (s : State) : (commitBarcode v s).host = s.host := rfl
@[simp] theorem commitBarcode_freeCtr (v : Nat) (s : State) : (commitBarcode v s).freeCtr = s.freeCtr := rfl

/-! ### `commitCorrected` -/

@[simp] theorem commitCorrected_status (c : Corrected) (s : State) : (commitCorrected c s).status = s.status := rfl
@[simp] theorem commitCorrected_outlierCount (c : Corrected) (s : State) :
    (commitCorrected c s).outlierCount = c.count := rfl
@[simp] theorem commitCorrected_hdr (c : Corrected) (s : State) : (commitCorrected c s).hdr = s.hdr := rfl
@[simp] theorem commitCorrected_ibuf (c : Corrected) (s : State) : (commitCorrected c s).ibuf = s.ibuf := rfl
@[simp] theorem commitCorrected_tbl (c : Corrected) (s : State) : (commitCorrected c s).tbl = s.tbl := rfl
@[simp] theorem commitCorrected_obuf (c : Corrected) (s : State) : (commitCorrected c s).obuf = s.obuf := rfl
@[simp] theorem commitCorrected_trTimes (c : Corrected) (s : State) : (commitCorrected c s).trTimes = s.trTimes := rfl
@[simp] theorem commitCorrected_trStates (c : Corrected) (s : State) :
    (commitCorrected c s).trStates = s.trStates := rfl
@[simp] theorem commitCorrected_tr (c : Corrected) (s : State) : (commitCorrected c s).tr = s.tr := rfl
@[simp] theorem commitCorrected_edg (c : Corrected) (s : State) : (commitCorrected c s).edg = s.edg := rfl
@[simp] theorem commitCorrected_an (c : Corrected) (s : State) : (commitCorrected c s).an = some c.anchors := rfl
@[simp] theorem commitCorrected_pm (c : Corrected) (s : State) : (commitCorrected c s).pm = s.pm := rfl
@[simp] theorem commitCorrected_qt (c : Corrected) (s : State) : (commitCorrected c s).qt = s.qt := rfl
@[simp] theorem commitCorrected_qa (c : Corrected) (s : State) : (commitCorrected c s).qa = s.qa := rfl
@[simp] theorem commitCorrected_bcVal (c : Corrected) (s : State) : (commitCorrected c s).bcVal = s.bcVal := rfl
@[simp] theorem commitCorrected_expAddr (c : Corrected) (s : State) : (commitCorrected c s).expAddr = s.expAddr := rfl
@[simp] theorem commitCorrected_expType (c : Corrected) (s : State) : (commitCorrected c s).expType = s.expType := rfl
@[simp] theorem commitCorrected_expLen (c : Corrected) (s : State) : (commitCorrected c s).expLen = s.expLen := rfl
@[simp] theorem commitCorrected_epoch (c : Corrected) (s : State) : (commitCorrected c s).epoch = s.epoch := rfl
@[simp] theorem commitCorrected_keepKind (c : Corrected) (s : State) :
    (commitCorrected c s).keepKind = s.keepKind := rfl
@[simp] theorem commitCorrected_ncols (c : Corrected) (s : State) : (commitCorrected c s).ncols = s.ncols := rfl
@[simp] theorem commitCorrected_encAddr (c : Corrected) (s : State) : (commitCorrected c s).encAddr = s.encAddr := rfl
@[simp] theorem commitCorrected_encPort (c : Corrected) (s : State) : (commitCorrected c s).encPort = s.encPort := rfl
@[simp] theorem commitCorrected_encDtype (c : Corrected) (s : State) :
    (commitCorrected c s).encDtype = s.encDtype := rfl
@[simp] theorem commitCorrected_encKind (c : Corrected) (s : State) : (commitCorrected c s).encKind = s.encKind := rfl
@[simp] theorem commitCorrected_sampleRate (c : Corrected) (s : State) :
    (commitCorrected c s).sampleRate = s.sampleRate := rfl
@[simp] theorem commitCorrected_baud (c : Corrected) (s : State) : (commitCorrected c s).baud = s.baud := rfl
@[simp] theorem commitCorrected_minDelta (c : Corrected) (s : State) :
    (commitCorrected c s).minDelta = s.minDelta := rfl
@[simp] theorem commitCorrected_bcLo (c : Corrected) (s : State) : (commitCorrected c s).bcLo = s.bcLo := rfl
@[simp] theorem commitCorrected_bcHi (c : Corrected) (s : State) : (commitCorrected c s).bcHi = s.bcHi := rfl
@[simp] theorem commitCorrected_host (c : Corrected) (s : State) : (commitCorrected c s).host = s.host := rfl
@[simp] theorem commitCorrected_freeCtr (c : Corrected) (s : State) : (commitCorrected c s).freeCtr = s.freeCtr := rfl

/-! ### `commitClock` -/

@[simp] theorem commitClock_status (c : ClockDecoded) (s : State) : (commitClock c s).status = s.status := rfl
@[simp] theorem commitClock_outlierCount (c : ClockDecoded) (s : State) :
    (commitClock c s).outlierCount = c.corrected.count := rfl
@[simp] theorem commitClock_hdr (c : ClockDecoded) (s : State) : (commitClock c s).hdr = s.hdr := rfl
@[simp] theorem commitClock_ibuf (c : ClockDecoded) (s : State) : (commitClock c s).ibuf = s.ibuf := rfl
@[simp] theorem commitClock_tbl (c : ClockDecoded) (s : State) : (commitClock c s).tbl = s.tbl := rfl
@[simp] theorem commitClock_obuf (c : ClockDecoded) (s : State) : (commitClock c s).obuf = s.obuf := rfl
@[simp] theorem commitClock_trTimes (c : ClockDecoded) (s : State) : (commitClock c s).trTimes = s.trTimes := rfl
@[simp] theorem commitClock_trStates (c : ClockDecoded) (s : State) : (commitClock c s).trStates = s.trStates := rfl
@[simp] theorem commitClock_tr (c : ClockDecoded) (s : State) : (commitClock c s).tr = s.tr := rfl
@[simp] theorem commitClock_edg (c : ClockDecoded) (s : State) : (commitClock c s).edg = some c.ranges := rfl
@[simp] theorem commitClock_an (c : ClockDecoded) (s : State) : (commitClock c s).an = some c.corrected.anchors := rfl
@[simp] theorem commitClock_pm (c : ClockDecoded) (s : State) : (commitClock c s).pm = s.pm := rfl
@[simp] theorem commitClock_qt (c : ClockDecoded) (s : State) : (commitClock c s).qt = s.qt := rfl
@[simp] theorem commitClock_qa (c : ClockDecoded) (s : State) : (commitClock c s).qa = s.qa := rfl
@[simp] theorem commitClock_bcVal (c : ClockDecoded) (s : State) : (commitClock c s).bcVal = s.bcVal := rfl
@[simp] theorem commitClock_expAddr (c : ClockDecoded) (s : State) : (commitClock c s).expAddr = s.expAddr := rfl
@[simp] theorem commitClock_expType (c : ClockDecoded) (s : State) : (commitClock c s).expType = s.expType := rfl
@[simp] theorem commitClock_expLen (c : ClockDecoded) (s : State) : (commitClock c s).expLen = s.expLen := rfl
@[simp] theorem commitClock_epoch (c : ClockDecoded) (s : State) : (commitClock c s).epoch = s.epoch := rfl
@[simp] theorem commitClock_keepKind (c : ClockDecoded) (s : State) : (commitClock c s).keepKind = s.keepKind := rfl
@[simp] theorem commitClock_ncols (c : ClockDecoded) (s : State) : (commitClock c s).ncols = s.ncols := rfl
@[simp] theorem commitClock_encAddr (c : ClockDecoded) (s : State) : (commitClock c s).encAddr = s.encAddr := rfl
@[simp] theorem commitClock_encPort (c : ClockDecoded) (s : State) : (commitClock c s).encPort = s.encPort := rfl
@[simp] theorem commitClock_encDtype (c : ClockDecoded) (s : State) : (commitClock c s).encDtype = s.encDtype := rfl
@[simp] theorem commitClock_encKind (c : ClockDecoded) (s : State) : (commitClock c s).encKind = s.encKind := rfl
@[simp] theorem commitClock_sampleRate (c : ClockDecoded) (s : State) :
    (commitClock c s).sampleRate = s.sampleRate := rfl
@[simp] theorem commitClock_baud (c : ClockDecoded) (s : State) : (commitClock c s).baud = s.baud := rfl
@[simp] theorem commitClock_minDelta (c : ClockDecoded) (s : State) : (commitClock c s).minDelta = s.minDelta := rfl
@[simp] theorem commitClock_bcLo (c : ClockDecoded) (s : State) : (commitClock c s).bcLo = s.bcLo := rfl
@[simp] theorem commitClock_bcHi (c : ClockDecoded) (s : State) : (commitClock c s).bcHi = s.bcHi := rfl
@[simp] theorem commitClock_host (c : ClockDecoded) (s : State) : (commitClock c s).host = s.host := rfl
@[simp] theorem commitClock_freeCtr (c : ClockDecoded) (s : State) : (commitClock c s).freeCtr = s.freeCtr := rfl

/-! ### `commitMap` -/

@[simp] theorem commitMap_status (m : PiecewiseMap) (s : State) : (commitMap m s).status = s.status := rfl
@[simp] theorem commitMap_outlierCount (m : PiecewiseMap) (s : State) :
    (commitMap m s).outlierCount = s.outlierCount := rfl
@[simp] theorem commitMap_hdr (m : PiecewiseMap) (s : State) : (commitMap m s).hdr = s.hdr := rfl
@[simp] theorem commitMap_ibuf (m : PiecewiseMap) (s : State) : (commitMap m s).ibuf = s.ibuf := rfl
@[simp] theorem commitMap_tbl (m : PiecewiseMap) (s : State) : (commitMap m s).tbl = s.tbl := rfl
@[simp] theorem commitMap_obuf (m : PiecewiseMap) (s : State) : (commitMap m s).obuf = s.obuf := rfl
@[simp] theorem commitMap_trTimes (m : PiecewiseMap) (s : State) : (commitMap m s).trTimes = s.trTimes := rfl
@[simp] theorem commitMap_trStates (m : PiecewiseMap) (s : State) : (commitMap m s).trStates = s.trStates := rfl
@[simp] theorem commitMap_tr (m : PiecewiseMap) (s : State) : (commitMap m s).tr = s.tr := rfl
@[simp] theorem commitMap_edg (m : PiecewiseMap) (s : State) : (commitMap m s).edg = s.edg := rfl
@[simp] theorem commitMap_an (m : PiecewiseMap) (s : State) : (commitMap m s).an = s.an := rfl
@[simp] theorem commitMap_pm (m : PiecewiseMap) (s : State) : (commitMap m s).pm = some m := rfl
@[simp] theorem commitMap_qt (m : PiecewiseMap) (s : State) : (commitMap m s).qt = s.qt := rfl
@[simp] theorem commitMap_qa (m : PiecewiseMap) (s : State) : (commitMap m s).qa = s.qa := rfl
@[simp] theorem commitMap_bcVal (m : PiecewiseMap) (s : State) : (commitMap m s).bcVal = s.bcVal := rfl
@[simp] theorem commitMap_expAddr (m : PiecewiseMap) (s : State) : (commitMap m s).expAddr = s.expAddr := rfl
@[simp] theorem commitMap_expType (m : PiecewiseMap) (s : State) : (commitMap m s).expType = s.expType := rfl
@[simp] theorem commitMap_expLen (m : PiecewiseMap) (s : State) : (commitMap m s).expLen = s.expLen := rfl
@[simp] theorem commitMap_epoch (m : PiecewiseMap) (s : State) : (commitMap m s).epoch = s.epoch := rfl
@[simp] theorem commitMap_keepKind (m : PiecewiseMap) (s : State) : (commitMap m s).keepKind = s.keepKind := rfl
@[simp] theorem commitMap_ncols (m : PiecewiseMap) (s : State) : (commitMap m s).ncols = s.ncols := rfl
@[simp] theorem commitMap_encAddr (m : PiecewiseMap) (s : State) : (commitMap m s).encAddr = s.encAddr := rfl
@[simp] theorem commitMap_encPort (m : PiecewiseMap) (s : State) : (commitMap m s).encPort = s.encPort := rfl
@[simp] theorem commitMap_encDtype (m : PiecewiseMap) (s : State) : (commitMap m s).encDtype = s.encDtype := rfl
@[simp] theorem commitMap_encKind (m : PiecewiseMap) (s : State) : (commitMap m s).encKind = s.encKind := rfl
@[simp] theorem commitMap_sampleRate (m : PiecewiseMap) (s : State) : (commitMap m s).sampleRate = s.sampleRate := rfl
@[simp] theorem commitMap_baud (m : PiecewiseMap) (s : State) : (commitMap m s).baud = s.baud := rfl
@[simp] theorem commitMap_minDelta (m : PiecewiseMap) (s : State) : (commitMap m s).minDelta = s.minDelta := rfl
@[simp] theorem commitMap_bcLo (m : PiecewiseMap) (s : State) : (commitMap m s).bcLo = s.bcLo := rfl
@[simp] theorem commitMap_bcHi (m : PiecewiseMap) (s : State) : (commitMap m s).bcHi = s.bcHi := rfl
@[simp] theorem commitMap_host (m : PiecewiseMap) (s : State) : (commitMap m s).host = s.host := rfl
@[simp] theorem commitMap_freeCtr (m : PiecewiseMap) (s : State) : (commitMap m s).freeCtr = s.freeCtr := rfl

/-! ### `commitTimes` -/

@[simp] theorem commitTimes_status (q : List Rat) (s : State) : (commitTimes q s).status = s.status := rfl
@[simp] theorem commitTimes_outlierCount (q : List Rat) (s : State) :
    (commitTimes q s).outlierCount = s.outlierCount := rfl
@[simp] theorem commitTimes_hdr (q : List Rat) (s : State) : (commitTimes q s).hdr = s.hdr := rfl
@[simp] theorem commitTimes_ibuf (q : List Rat) (s : State) : (commitTimes q s).ibuf = s.ibuf := rfl
@[simp] theorem commitTimes_tbl (q : List Rat) (s : State) : (commitTimes q s).tbl = s.tbl := rfl
@[simp] theorem commitTimes_obuf (q : List Rat) (s : State) : (commitTimes q s).obuf = s.obuf := rfl
@[simp] theorem commitTimes_trTimes (q : List Rat) (s : State) : (commitTimes q s).trTimes = s.trTimes := rfl
@[simp] theorem commitTimes_trStates (q : List Rat) (s : State) : (commitTimes q s).trStates = s.trStates := rfl
@[simp] theorem commitTimes_tr (q : List Rat) (s : State) : (commitTimes q s).tr = s.tr := rfl
@[simp] theorem commitTimes_edg (q : List Rat) (s : State) : (commitTimes q s).edg = s.edg := rfl
@[simp] theorem commitTimes_an (q : List Rat) (s : State) : (commitTimes q s).an = s.an := rfl
@[simp] theorem commitTimes_pm (q : List Rat) (s : State) : (commitTimes q s).pm = s.pm := rfl
@[simp] theorem commitTimes_qt (q : List Rat) (s : State) : (commitTimes q s).qt = s.qt := rfl
@[simp] theorem commitTimes_qa (q : List Rat) (s : State) : (commitTimes q s).qa = some q := rfl
@[simp] theorem commitTimes_bcVal (q : List Rat) (s : State) : (commitTimes q s).bcVal = s.bcVal := rfl
@[simp] theorem commitTimes_expAddr (q : List Rat) (s : State) : (commitTimes q s).expAddr = s.expAddr := rfl
@[simp] theorem commitTimes_expType (q : List Rat) (s : State) : (commitTimes q s).expType = s.expType := rfl
@[simp] theorem commitTimes_expLen (q : List Rat) (s : State) : (commitTimes q s).expLen = s.expLen := rfl
@[simp] theorem commitTimes_epoch (q : List Rat) (s : State) : (commitTimes q s).epoch = s.epoch := rfl
@[simp] theorem commitTimes_keepKind (q : List Rat) (s : State) : (commitTimes q s).keepKind = s.keepKind := rfl
@[simp] theorem commitTimes_ncols (q : List Rat) (s : State) : (commitTimes q s).ncols = s.ncols := rfl
@[simp] theorem commitTimes_encAddr (q : List Rat) (s : State) : (commitTimes q s).encAddr = s.encAddr := rfl
@[simp] theorem commitTimes_encPort (q : List Rat) (s : State) : (commitTimes q s).encPort = s.encPort := rfl
@[simp] theorem commitTimes_encDtype (q : List Rat) (s : State) : (commitTimes q s).encDtype = s.encDtype := rfl
@[simp] theorem commitTimes_encKind (q : List Rat) (s : State) : (commitTimes q s).encKind = s.encKind := rfl
@[simp] theorem commitTimes_sampleRate (q : List Rat) (s : State) : (commitTimes q s).sampleRate = s.sampleRate := rfl
@[simp] theorem commitTimes_baud (q : List Rat) (s : State) : (commitTimes q s).baud = s.baud := rfl
@[simp] theorem commitTimes_minDelta (q : List Rat) (s : State) : (commitTimes q s).minDelta = s.minDelta := rfl
@[simp] theorem commitTimes_bcLo (q : List Rat) (s : State) : (commitTimes q s).bcLo = s.bcLo := rfl
@[simp] theorem commitTimes_bcHi (q : List Rat) (s : State) : (commitTimes q s).bcHi = s.bcHi := rfl
@[simp] theorem commitTimes_host (q : List Rat) (s : State) : (commitTimes q s).host = s.host := rfl
@[simp] theorem commitTimes_freeCtr (q : List Rat) (s : State) : (commitTimes q s).freeCtr = s.freeCtr := rfl

/-! ### `commitAlign` -/

@[simp] theorem commitAlign_status (r : PiecewiseMap × List Rat) (s : State) :
    (commitAlign r s).status = s.status := rfl
@[simp] theorem commitAlign_outlierCount (r : PiecewiseMap × List Rat) (s : State) :
    (commitAlign r s).outlierCount = s.outlierCount := rfl
@[simp] theorem commitAlign_hdr (r : PiecewiseMap × List Rat) (s : State) : (commitAlign r s).hdr = s.hdr := rfl
@[simp] theorem commitAlign_ibuf (r : PiecewiseMap × List Rat) (s : State) : (commitAlign r s).ibuf = s.ibuf := rfl
@[simp] theorem commitAlign_tbl (r : PiecewiseMap × List Rat) (s : State) : (commitAlign r s).tbl = s.tbl := rfl
@[simp] theorem commitAlign_obuf (r : PiecewiseMap × List Rat) (s : State) : (commitAlign r s).obuf = s.obuf := rfl
@[simp] theorem commitAlign_trTimes (r : PiecewiseMap × List Rat) (s : State) :
    (commitAlign r s).trTimes = s.trTimes := rfl
@[simp] theorem commitAlign_trStates (r : PiecewiseMap × List Rat) (s : State) :
    (commitAlign r s).trStates = s.trStates := rfl
@[simp] theorem commitAlign_tr (r : PiecewiseMap × List Rat) (s : State) : (commitAlign r s).tr = s.tr := rfl
@[simp] theorem commitAlign_edg (r : PiecewiseMap × List Rat) (s : State) : (commitAlign r s).edg = s.edg := rfl
@[simp] theorem commitAlign_an (r : PiecewiseMap × List Rat) (s : State) : (commitAlign r s).an = s.an := rfl
@[simp] theorem commitAlign_pm (r : PiecewiseMap × List Rat) (s : State) : (commitAlign r s).pm = some r.1 := rfl
@[simp] theorem commitAlign_qt (r : PiecewiseMap × List Rat) (s : State) : (commitAlign r s).qt = s.qt := rfl
@[simp] theorem commitAlign_qa (r : PiecewiseMap × List Rat) (s : State) : (commitAlign r s).qa = some r.2 := rfl
@[simp] theorem commitAlign_bcVal (r : PiecewiseMap × List Rat) (s : State) : (commitAlign r s).bcVal = s.bcVal := rfl
@[simp] theorem commitAlign_expAddr (r : PiecewiseMap × List Rat) (s : State) :
    (commitAlign r s).expAddr = s.expAddr := rfl
@[simp] theorem commitAlign_expType (r : PiecewiseMap × List Rat) (s : State) :
    (commitAlign r s).expType = s.expType := rfl
@[simp] theorem commitAlign_expLen (r : PiecewiseMap × List Rat) (s : State) :
    (commitAlign r s).expLen = s.expLen := rfl
@[simp] theorem commitAlign_epoch (r : PiecewiseMap × List Rat) (s : State) : (commitAlign r s).epoch = s.epoch := rfl
@[simp] theorem commitAlign_keepKind (r : PiecewiseMap × List Rat) (s : State) :
    (commitAlign r s).keepKind = s.keepKind := rfl
@[simp] theorem commitAlign_ncols (r : PiecewiseMap × List Rat) (s : State) : (commitAlign r s).ncols = s.ncols := rfl
@[simp] theorem commitAlign_encAddr (r : PiecewiseMap × List Rat) (s : State) :
    (commitAlign r s).encAddr = s.encAddr := rfl
@[simp] theorem commitAlign_encPort (r : PiecewiseMap × List Rat) (s : State) :
    (commitAlign r s).encPort = s.encPort := rfl
@[simp] theorem commitAlign_encDtype (r : PiecewiseMap × List Rat) (s : State) :
    (commitAlign r s).encDtype = s.encDtype := rfl
@[simp] theorem commitAlign_encKind (r : PiecewiseMap × List Rat) (s : State) :
    (commitAlign r s).encKind = s.encKind := rfl
@[simp] theorem commitAlign_sampleRate (r : PiecewiseMap × List Rat) (s : State) :
    (commitAlign r s).sampleRate = s.sampleRate := rfl
@[simp] theorem commitAlign_baud (r : PiecewiseMap × List Rat) (s : State) : (commitAlign r s).baud = s.baud := rfl
@[simp] theorem commitAlign_minDelta (r : PiecewiseMap × List Rat) (s : State) :
    (commitAlign r s).minDelta = s.minDelta := rfl
@[simp] theorem commitAlign_bcLo (r : PiecewiseMap × List Rat) (s : State) : (commitAlign r s).bcLo = s.bcLo := rfl
@[simp] theorem commitAlign_bcHi (r : PiecewiseMap × List Rat) (s : State) : (commitAlign r s).bcHi = s.bcHi := rfl
@[simp] theorem commitAlign_host (r : PiecewiseMap × List Rat) (s : State) : (commitAlign r s).host = s.host := rfl
@[simp] theorem commitAlign_freeCtr (r : PiecewiseMap × List Rat) (s : State) :
    (commitAlign r s).freeCtr = s.freeCtr := rfl

/-! ### `popAction` -/

@[simp] theorem popAction_status (r : List HostAction) (s : State) : (popAction r s).status = s.status := rfl
@[simp] theorem popAction_outlierCount (r : List HostAction) (s : State) :
    (popAction r s).outlierCount = s.outlierCount := rfl
@[simp] theorem popAction_hdr (r : List HostAction) (s : State) : (popAction r s).hdr = s.hdr := rfl
@[simp] theorem popAction_ibuf (r : List HostAction) (s : State) : (popAction r s).ibuf = s.ibuf := rfl
@[simp] theorem popAction_tbl (r : List HostAction) (s : State) : (popAction r s).tbl = s.tbl := rfl
@[simp] theorem popAction_obuf (r : List HostAction) (s : State) : (popAction r s).obuf = s.obuf := rfl
@[simp] theorem popAction_trTimes (r : List HostAction) (s : State) : (popAction r s).trTimes = s.trTimes := rfl
@[simp] theorem popAction_trStates (r : List HostAction) (s : State) : (popAction r s).trStates = s.trStates := rfl
@[simp] theorem popAction_tr (r : List HostAction) (s : State) : (popAction r s).tr = s.tr := rfl
@[simp] theorem popAction_edg (r : List HostAction) (s : State) : (popAction r s).edg = s.edg := rfl
@[simp] theorem popAction_an (r : List HostAction) (s : State) : (popAction r s).an = s.an := rfl
@[simp] theorem popAction_pm (r : List HostAction) (s : State) : (popAction r s).pm = s.pm := rfl
@[simp] theorem popAction_qt (r : List HostAction) (s : State) : (popAction r s).qt = s.qt := rfl
@[simp] theorem popAction_qa (r : List HostAction) (s : State) : (popAction r s).qa = s.qa := rfl
@[simp] theorem popAction_bcVal (r : List HostAction) (s : State) : (popAction r s).bcVal = s.bcVal := rfl
@[simp] theorem popAction_expAddr (r : List HostAction) (s : State) : (popAction r s).expAddr = s.expAddr := rfl
@[simp] theorem popAction_expType (r : List HostAction) (s : State) : (popAction r s).expType = s.expType := rfl
@[simp] theorem popAction_expLen (r : List HostAction) (s : State) : (popAction r s).expLen = s.expLen := rfl
@[simp] theorem popAction_epoch (r : List HostAction) (s : State) : (popAction r s).epoch = s.epoch := rfl
@[simp] theorem popAction_keepKind (r : List HostAction) (s : State) : (popAction r s).keepKind = s.keepKind := rfl
@[simp] theorem popAction_ncols (r : List HostAction) (s : State) : (popAction r s).ncols = s.ncols := rfl
@[simp] theorem popAction_encAddr (r : List HostAction) (s : State) : (popAction r s).encAddr = s.encAddr := rfl
@[simp] theorem popAction_encPort (r : List HostAction) (s : State) : (popAction r s).encPort = s.encPort := rfl
@[simp] theorem popAction_encDtype (r : List HostAction) (s : State) : (popAction r s).encDtype = s.encDtype := rfl
@[simp] theorem popAction_encKind (r : List HostAction) (s : State) : (popAction r s).encKind = s.encKind := rfl
@[simp] theorem popAction_sampleRate (r : List HostAction) (s : State) :
    (popAction r s).sampleRate = s.sampleRate := rfl
@[simp] theorem popAction_baud (r : List HostAction) (s : State) : (popAction r s).baud = s.baud := rfl
@[simp] theorem popAction_minDelta (r : List HostAction) (s : State) : (popAction r s).minDelta = s.minDelta := rfl
@[simp] theorem popAction_bcLo (r : List HostAction) (s : State) : (popAction r s).bcLo = s.bcLo := rfl
@[simp] theorem popAction_bcHi (r : List HostAction) (s : State) : (popAction r s).bcHi = s.bcHi := rfl
@[simp] theorem popAction_host (r : List HostAction) (s : State) : (popAction r s).host = r := rfl
@[simp] theorem popAction_freeCtr (r : List HostAction) (s : State) : (popAction r s).freeCtr = s.freeCtr + 1 := rfl

/-! ### `resetEvent` -/

@[simp] theorem resetEvent_status (s : State) : (resetEvent s).status = State.reset.status := rfl
@[simp] theorem resetEvent_outlierCount (s : State) : (resetEvent s).outlierCount = State.reset.outlierCount := rfl
@[simp] theorem resetEvent_hdr (s : State) : (resetEvent s).hdr = State.reset.hdr := rfl
@[simp] theorem resetEvent_ibuf (s : State) : (resetEvent s).ibuf = State.reset.ibuf := rfl
@[simp] theorem resetEvent_tbl (s : State) : (resetEvent s).tbl = State.reset.tbl := rfl
@[simp] theorem resetEvent_obuf (s : State) : (resetEvent s).obuf = State.reset.obuf := rfl
@[simp] theorem resetEvent_trTimes (s : State) : (resetEvent s).trTimes = State.reset.trTimes := rfl
@[simp] theorem resetEvent_trStates (s : State) : (resetEvent s).trStates = State.reset.trStates := rfl
@[simp] theorem resetEvent_tr (s : State) : (resetEvent s).tr = State.reset.tr := rfl
@[simp] theorem resetEvent_edg (s : State) : (resetEvent s).edg = State.reset.edg := rfl
@[simp] theorem resetEvent_an (s : State) : (resetEvent s).an = State.reset.an := rfl
@[simp] theorem resetEvent_pm (s : State) : (resetEvent s).pm = State.reset.pm := rfl
@[simp] theorem resetEvent_qt (s : State) : (resetEvent s).qt = State.reset.qt := rfl
@[simp] theorem resetEvent_qa (s : State) : (resetEvent s).qa = State.reset.qa := rfl
@[simp] theorem resetEvent_bcVal (s : State) : (resetEvent s).bcVal = State.reset.bcVal := rfl
@[simp] theorem resetEvent_expAddr (s : State) : (resetEvent s).expAddr = State.reset.expAddr := rfl
@[simp] theorem resetEvent_expType (s : State) : (resetEvent s).expType = State.reset.expType := rfl
@[simp] theorem resetEvent_expLen (s : State) : (resetEvent s).expLen = State.reset.expLen := rfl
@[simp] theorem resetEvent_epoch (s : State) : (resetEvent s).epoch = State.reset.epoch := rfl
@[simp] theorem resetEvent_keepKind (s : State) : (resetEvent s).keepKind = State.reset.keepKind := rfl
@[simp] theorem resetEvent_ncols (s : State) : (resetEvent s).ncols = State.reset.ncols := rfl
@[simp] theorem resetEvent_encAddr (s : State) : (resetEvent s).encAddr = State.reset.encAddr := rfl
@[simp] theorem resetEvent_encPort (s : State) : (resetEvent s).encPort = State.reset.encPort := rfl
@[simp] theorem resetEvent_encDtype (s : State) : (resetEvent s).encDtype = State.reset.encDtype := rfl
@[simp] theorem resetEvent_encKind (s : State) : (resetEvent s).encKind = State.reset.encKind := rfl
@[simp] theorem resetEvent_sampleRate (s : State) : (resetEvent s).sampleRate = State.reset.sampleRate := rfl
@[simp] theorem resetEvent_baud (s : State) : (resetEvent s).baud = State.reset.baud := rfl
@[simp] theorem resetEvent_minDelta (s : State) : (resetEvent s).minDelta = State.reset.minDelta := rfl
@[simp] theorem resetEvent_bcLo (s : State) : (resetEvent s).bcLo = State.reset.bcLo := rfl
@[simp] theorem resetEvent_bcHi (s : State) : (resetEvent s).bcHi = State.reset.bcHi := rfl
@[simp] theorem resetEvent_host (s : State) : (resetEvent s).host = s.host := rfl
@[simp] theorem resetEvent_freeCtr (s : State) : (resetEvent s).freeCtr = s.freeCtr := rfl

end Sys2Proof.Machine
end

