-- ==== Sys2Proof/Laws/Endings.lean ====
section
/-! SUPPORT. What the shared operations of a command can do: its checks (`require`, `expect`, `operand`, `collect`)
and its endings (`invalidate`, `raiseFault`, `finish`), each said once. -/

namespace Sys2Proof.Machine

/-! ### Checks -/

/-- One part of a command after another: both complete. -/
theorem bind_eq_ok {α β : Type} (x : Except Raise α) (f : α → Except Raise β) (b : β) :
    (x >>= f) = .ok b ↔ ∃ a, x = .ok a ∧ f a = .ok b := by
  cases x <;> simp [bind, Except.bind]

/-- One part of a command after another: the first raises, or it completes and the second raises. -/
theorem bind_eq_error {α β : Type} (x : Except Raise α) (f : α → Except Raise β) (e : Raise) :
    (x >>= f) = .error e ↔ x = .error e ∨ ∃ a, x = .ok a ∧ f a = .error e := by
  cases x <;> simp [bind, Except.bind]

@[simp] theorem ok_bind {α β : Type} (a : α) (f : α → Except Raise β) : ((.ok a : Except Raise α) >>= f) = f a := rfl

@[simp] theorem error_bind {α β : Type} (e : Raise) (f : α → Except Raise β) :
    ((.error e : Except Raise α) >>= f) = .error e := rfl

@[simp] theorem require_eq_ok (p : Prop) [Decidable p] (f : Raise) (u : Unit) :
    require p f = .ok u ↔ p := by
  unfold require; split <;> simp_all

@[simp] theorem require_eq_error (p : Prop) [Decidable p] (f g : Raise) :
    require p f = .error g ↔ ¬ p ∧ f = g := by
  unfold require; split <;> simp_all

theorem require_pos {p : Prop} [Decidable p] (f : Raise) (h : p) : require p f = .ok () := by
  simp [require, h]

theorem require_neg {p : Prop} [Decidable p] (f : Raise) (h : ¬ p) : require p f = .error f := by
  simp [require, h]

/-- An expectation passes exactly when it is absent or true. -/
theorem expect_eq_ok {α : Type} [DecidableEq α] (want : Option α) (got : α) (c : Code) (v : α → Value) (u : Unit) :
    expect want got c v = .ok u ↔ want = none ∨ want = some got := by
  cases want with
  | none => simp [expect]
  | some w => by_cases h : w = got <;> simp [expect, h]

/-- An expectation raises exactly when it is present and false, with both values. -/
theorem expect_eq_error {α : Type} [DecidableEq α] (want : Option α) (got : α) (c : Code) (v : α → Value)
    (f : Raise) :
    expect want got c v = .error f ↔
      ∃ w, want = some w ∧ w ≠ got ∧ f = { code := c, exp := some (v w), act := some (v got) } := by
  cases want with
  | none => simp [expect]
  | some w =>
    by_cases h : w = got
    · simp [expect, h]
    · simp only [expect, h, if_false, Except.error.injEq, Option.some.injEq, exists_eq_left', ne_eq, not_false_eq_true,
        true_and]
      exact eq_comm

@[simp] theorem operand_some {α : Type} (a : α) : operand (some a) = .ok a := rfl

@[simp] theorem operand_none {α : Type} :
    operand (none : Option α) = .error { code := .operandInvalid, exp := none, act := none } := rfl

theorem operand_eq_ok {α : Type} (m : Option α) (a : α) : operand m = .ok a ↔ m = some a := by
  cases m <;> simp

@[simp] theorem collect_nil {α : Type} : collect ([] : List (Except Raise α)) = .ok [] := rfl

@[simp] theorem collect_cons_error {α : Type} (f : Raise) (l : List (Except Raise α)) :
    collect (.error f :: l) = .error f := rfl

/-- A loop completes exactly when every round does, with the results in order. -/
theorem collect_eq_ok {α : Type} (l : List (Except Raise α)) (as : List α) :
    collect l = .ok as ↔ l = as.map Except.ok := by
  induction l generalizing as with
  | nil => cases as <;> simp [collect]
  | cons x l ih =>
    cases x with
    | error f => cases as <;> simp [collect]
    | ok a =>
      cases h : collect l with
      | error f =>
        cases as with
        | nil => simp [collect, h]
        | cons b bs =>
          have : ¬ l = bs.map Except.ok := fun hl => by simp [(ih bs).2 hl] at h
          simp [collect, h, this]
      | ok cs =>
        cases as with
        | nil => simp [collect, h]
        | cons b bs =>
          have hc := (ih cs).1 h
          have := ih bs
          rw [h] at this
          simp [collect, h] at this ⊢
          intro _
          exact this

/-- A loop raises exactly what its first raising round raises. -/
theorem collect_eq_error {α : Type} (l : List (Except Raise α)) (f : Raise) :
    collect l = .error f ↔ ∃ (before : List α) (after : List (Except Raise α)),
      l = before.map Except.ok ++ .error f :: after := by
  induction l with
  | nil => simp [collect]
  | cons x l ih =>
    cases x with
    | error g =>
      constructor
      · intro h
        cases h
        exact ⟨[], l, rfl⟩
      · rintro ⟨before, after, h⟩
        cases before with
        | nil => simp_all [collect]
        | cons b bs => simp at h
    | ok a =>
      have step : collect (.ok a :: l) = .error f ↔ collect l = .error f := by
        cases h : collect l <;> simp [collect, h]
      rw [step, ih]
      constructor
      · rintro ⟨before, after, rfl⟩
        exact ⟨a :: before, after, rfl⟩
      · rintro ⟨before, after, h⟩
        cases before with
        | nil => simp at h
        | cons b bs =>
          simp at h
          exact ⟨bs, after, h.2⟩

/-! ### Endings -/

/-- Invalidating destinations touches no field that is no destination. -/
theorem foldl_invalidate_frame (ds : List Dest) (s : State) :
    ds.foldl invalidate s =
      { s with
        tbl := (ds.foldl invalidate s).tbl, hdr := (ds.foldl invalidate s).hdr,
        obuf := (ds.foldl invalidate s).obuf, edg := (ds.foldl invalidate s).edg,
        bcVal := (ds.foldl invalidate s).bcVal, an := (ds.foldl invalidate s).an,
        pm := (ds.foldl invalidate s).pm, qa := (ds.foldl invalidate s).qa } := by
  induction ds generalizing s with
  | nil => rfl
  | cons d ds ih => rw [List.foldl_cons, ih]; cases d <;> rfl

/-- What a fault leaves in every field (R266). -/
theorem raiseFault_eq (f : Raise) (ds : List Dest) (s : State) :
    raiseFault f ds s =
      { s with
        status := faultStatus f.code f.exp f.act
        tbl := if Dest.tbl ∈ ds then none else s.tbl
        hdr := if Dest.hdr ∈ ds then invalidHdr s.freeCtr else s.hdr
        obuf := if Dest.obuf ∈ ds then none else s.obuf
        edg := if Dest.edg ∈ ds then none else s.edg
        bcVal := if Dest.bcVal ∈ ds then none else s.bcVal
        an := if Dest.an ∈ ds then none else s.an
        pm := if Dest.pm ∈ ds then none else s.pm
        qa := if Dest.qa ∈ ds then none else s.qa } := by
  unfold raiseFault
  induction ds generalizing s with
  | nil => simp
  | cons d ds ih =>
    rw [List.foldl_cons, ih]
    cases d <;> simp [invalidate]

@[simp] theorem raiseFault_status (f : Raise) (ds : List Dest) (s : State) :
    (raiseFault f ds s).status = faultStatus f.code f.exp f.act := rfl

@[simp] theorem finish_ok {α : Type} (ds : List Dest) (a : α) (c : α → State → State) (w : α → Bool) (s : State) :
    finish ds (.ok a) c w s = returnOk (w a) (c a s) := rfl

@[simp] theorem finish_error {α : Type} (ds : List Dest) (f : Raise) (c : α → State → State) (w : α → Bool)
    (s : State) : finish ds (.error f) c w s = raiseFault f ds s := rfl

/-- A command ends in exactly one of two ways. -/
theorem finish_cases {α : Type} (ds : List Dest) (r : Except Raise α) (c : α → State → State) (w : α → Bool)
    (s : State) :
    (∃ a, r = .ok a ∧ finish ds r c w s = returnOk (w a) (c a s)) ∨
      ∃ f, r = .error f ∧ finish ds r c w s = raiseFault f ds s := by
  cases r with
  | ok a => exact .inl ⟨a, rfl, rfl⟩
  | error f => exact .inr ⟨f, rfl, rfl⟩

/-- R261: only `OK` has number 0, and every number is at most 23. -/
theorem code_num_eq_zero (c : Code) : c.num = 0 ↔ c = .ok := by cases c <;> decide

theorem code_num_le (c : Code) : c.num.toNat ≤ 23 := by cases c <;> decide

end Sys2Proof.Machine
end

