-- ==== Sys2Proof/Laws/Barcode.lean ====
section
/-! SUPPORT. What the parts of the barcode commands can do, each said once. -/

namespace Sys2Proof.Machine

/-! ### SEGMENT -/

@[simp] theorem boundariesFrom_nil (md : Rat) (i : Nat) : boundariesFrom md i [] = [] := rfl

@[simp] theorem boundariesFrom_single (md : Rat) (i : Nat) (a : Rat) : boundariesFrom md i [a] = [] := rfl

theorem boundariesFrom_cons (md : Rat) (i : Nat) (a b : Rat) (rest : List Rat) :
    boundariesFrom md i (a :: b :: rest) =
      if md < b - a then i :: boundariesFrom md (i + 1) (b :: rest) else boundariesFrom md (i + 1) (b :: rest) := rfl

/-- R191: a position is a boundary exactly when the difference there exceeds the threshold. -/
theorem mem_boundariesFrom (md : Rat) (t : List Rat) (i j : Nat) :
    j ∈ boundariesFrom md i t ↔ ∃ k, j = i + k ∧ k + 1 < t.length ∧ md < t.getD (k + 1) 0 - t.getD k 0 := by
  induction t generalizing i with
  | nil => simp
  | cons a t ih =>
    cases t with
    | nil => simp
    | cons b rest =>
      have key : j ∈ boundariesFrom md i (a :: b :: rest) ↔
          (md < b - a ∧ j = i) ∨ j ∈ boundariesFrom md (i + 1) (b :: rest) := by
        rw [boundariesFrom_cons]
        split <;> simp [*]
      rw [key, ih]
      constructor
      · rintro (⟨h, rfl⟩ | ⟨k, rfl, h1, h2⟩)
        · exact ⟨0, rfl, by simp, by simpa using h⟩
        · exact ⟨k + 1, by omega, by simpa using h1, by simpa using h2⟩
      · rintro ⟨k, rfl, h1, h2⟩
        cases k with
        | zero => exact .inl ⟨by simpa using h2, rfl⟩
        | succ k => exact .inr ⟨k, by omega, by simpa using h1, by simpa using h2⟩

/-- R191: the boundaries ascend. -/
theorem boundariesFrom_sorted (md : Rat) (t : List Rat) (i : Nat) : (boundariesFrom md i t).Pairwise (· < ·) := by
  induction t generalizing i with
  | nil => simp
  | cons a t ih =>
    cases t with
    | nil => simp
    | cons b rest =>
      rw [boundariesFrom_cons]
      split
      · refine List.pairwise_cons.2 ⟨fun j hj => ?_, ih (i + 1)⟩
        obtain ⟨k, rfl, _⟩ := (mem_boundariesFrom md (b :: rest) (i + 1) j).1 hj
        omega
      · exact ih (i + 1)

@[simp] theorem rangesBetween_nil : rangesBetween [] = [] := rfl

@[simp] theorem rangesBetween_single (i : Nat) : rangesBetween [i] = [] := rfl

theorem rangesBetween_cons (i j : Nat) (rest : List Nat) :
    rangesBetween (i :: j :: rest) = (i + 1, j + 1) :: rangesBetween (j :: rest) := rfl

/-- R192 (b): one range fewer than boundaries. -/
@[simp] theorem rangesBetween_length (l : List Nat) : (rangesBetween l).length = l.length - 1 := by
  induction l with
  | nil => rfl
  | cons i l ih =>
    cases l with
    | nil => rfl
    | cons j rest => simp [rangesBetween_cons, ih]

/-- R191: range `j` lies strictly between boundaries `j` and `j + 1`. -/
theorem rangesBetween_getElem? (l : List Nat) (j : Nat) (r : Nat × Nat) :
    (rangesBetween l)[j]? = some r ↔ ∃ a b, l[j]? = some a ∧ l[j + 1]? = some b ∧ r = (a + 1, b + 1) := by
  induction l generalizing j with
  | nil => simp
  | cons i l ih =>
    cases l with
    | nil => simp
    | cons k rest =>
      rw [rangesBetween_cons]
      cases j with
      | zero => simp [eq_comm]
      | succ j => rw [List.getElem?_cons_succ, ih]; simp

/-- R36, R191: no range is empty. -/
theorem segmentRanges_lt (t : List Rat) (md : Rat) (r : Nat × Nat) (h : r ∈ segmentRanges t md) : r.1 < r.2 := by
  obtain ⟨j, hj⟩ := List.mem_iff_getElem?.1 h
  obtain ⟨a, b, ha, hb, rfl⟩ := (rangesBetween_getElem? _ j r).1 hj
  obtain ⟨h1, rfl⟩ := List.getElem?_eq_some_iff.1 ha
  obtain ⟨h2, rfl⟩ := List.getElem?_eq_some_iff.1 hb
  have := List.pairwise_iff_getElem.1 (boundariesFrom_sorted md t 0) j (j + 1) h1 h2 (by omega)
  simpa using this

/-- R192 (b): each range starts where the one before ends. -/
theorem segmentRanges_adjacent (t : List Rat) (md : Rat) (j : Nat) (a b : Nat × Nat)
    (ha : (segmentRanges t md)[j]? = some a) (hb : (segmentRanges t md)[j + 1]? = some b) : a.2 = b.1 := by
  obtain ⟨x, y, _, hy, rfl⟩ := (rangesBetween_getElem? _ j a).1 ha
  obtain ⟨z, w, hz, _, rfl⟩ := (rangesBetween_getElem? _ (j + 1) b).1 hb
  rw [hy] at hz
  simp_all

/-! ### BARDEC -/

@[simp] theorem expandLevels_nil_left (baud : Rat) (i : Nat) (s : List Bool) : expandLevels baud i [] s = .ok [] := by
  cases s <;> rfl

@[simp] theorem expandLevels_single (baud : Rat) (i : Nat) (a : Rat) (s : List Bool) :
    expandLevels baud i [a] s = .ok [] := by
  cases s <;> rfl

@[simp] theorem expandLevels_nil_right (baud : Rat) (i : Nat) (t : List Rat) : expandLevels baud i t [] = .ok [] := by
  rcases t with _ | ⟨a, _ | ⟨b, t⟩⟩ <;> rfl

/-- R195, R196: one interval of the expansion. -/
theorem expandLevels_cons (baud : Rat) (i : Nat) (a b : Rat) (ts : List Rat) (s : Bool) (ss : List Bool) :
    expandLevels baud i (a :: b :: ts) (s :: ss) =
      if bitPeriods baud a b < 0 then .error { code := .nonAscending, exp := none, act := some (.int i) }
      else (expandLevels baud (i + 1) (b :: ts) ss) >>= fun v =>
        .ok (List.replicate (bitPeriods baud a b).toNat s ++ v) := by
  conv => lhs; unfold expandLevels
  split
  · rfl
  · cases expandLevels baud (i + 1) (b :: ts) ss <;> rfl

/-- R195: the expansion raises only `NON_ASCENDING`. -/
theorem expandLevels_error (baud : Rat) (t : List Rat) (s : List Bool) (i : Nat) (f : Raise)
    (h : expandLevels baud i t s = .error f) : f.code = .nonAscending := by
  induction t generalizing i s with
  | nil => simp at h
  | cons a t ih =>
    cases t with
    | nil => simp at h
    | cons b ts =>
      cases s with
      | nil => simp at h
      | cons x ss =>
        rw [expandLevels_cons] at h
        split at h
        · cases h; rfl
        · rcases (bind_eq_error _ _ _).1 h with h | ⟨v, _, h⟩
          · exact ih ss (i + 1) h
          · cases h

/-- R112: the value fits 32 bits. -/
theorem barcodeValue_lt (v : List Bool) : barcodeValue v < 2 ^ 32 := by
  have key : ∀ n, ((List.range n).map fun k => if v.getD (bitPos k) false then 2 ^ k else 0).sum < 2 ^ n := by
    intro n
    induction n with
    | zero => simp
    | succ n ih =>
      rw [List.range_succ, List.map_append, List.sum_append, Nat.pow_succ]
      have : ∀ c : Bool, (if c then 2 ^ n else 0) ≤ 2 ^ n := fun c => by cases c <;> simp
      have := this (v.getD (bitPos n) false)
      simp only [List.map_cons, List.map_nil, List.sum_cons, List.sum_nil]
      omega
  exact key 32

/-- R200: `BarDec` completes exactly when the expansion does, with at least 39 levels. -/
theorem barDec_eq_ok (rates : Rates) (t : List Rat) (s : List Bool) (n : Nat) :
    barDec rates t s = .ok n ↔
      ∃ v, expandLevels rates.baud 0 (t.map (normalise rates.sampleRate)) s = .ok v ∧ 39 ≤ v.length ∧
        n = barcodeValue v := by
  simp only [barDec, bind_eq_ok, require_eq_ok, Except.ok.injEq]
  constructor
  · rintro ⟨v, h1, _, h2, h3⟩
    exact ⟨v, h1, h2, h3.symm⟩
  · rintro ⟨v, h1, h2, h3⟩
    exact ⟨v, h1, (), h2, h3.symm⟩

/-- R200: `BarDec` raises what the expansion raises, or `BARCODE_SHORT`. -/
theorem barDec_eq_error (rates : Rates) (t : List Rat) (s : List Bool) (f : Raise) :
    barDec rates t s = .error f ↔
      expandLevels rates.baud 0 (t.map (normalise rates.sampleRate)) s = .error f ∨
        ∃ v, expandLevels rates.baud 0 (t.map (normalise rates.sampleRate)) s = .ok v ∧ v.length < 39 ∧
          f = { code := .barcodeShort, exp := some (.int 39), act := some (.int v.length) } := by
  simp only [barDec, bind_eq_error, require_eq_error, reduceCtorEq, and_false, exists_false, or_false, Nat.not_le]
  exact or_congr Iff.rfl (exists_congr fun _ => and_congr_right fun _ => and_congr_right fun _ => eq_comm)

theorem barDec_error_code (rates : Rates) (t : List Rat) (s : List Bool) (f : Raise)
    (h : barDec rates t s = .error f) : f.code ∈ [Code.nonAscending, .barcodeShort] := by
  rcases (barDec_eq_error rates t s f).1 h with h | ⟨_, _, _, rfl⟩
  · simp [expandLevels_error _ _ _ _ _ h]
  · simp

theorem checkPaired_eq_ok (n m : Nat) (u : Unit) : checkPaired n m = .ok u ↔ n = m := by
  simp [checkPaired]

theorem checkPaired_eq_error (n m : Nat) (f : Raise) :
    checkPaired n m = .error f ↔
      n ≠ m ∧ f = { code := .arrayLen, exp := some (.int n), act := some (.int m) } := by
  simp only [checkPaired, require_eq_error]
  exact and_congr_right fun _ => eq_comm

/-- R198: the rates pass exactly when they are positive. -/
theorem checkRates_eq_ok (r : Rates) (u : Unit) :
    checkRates r = .ok u ↔ 0 < r.baud ∧ ∀ sr, r.sampleRate = some sr → 0 < sr := by
  cases h : r.sampleRate <;> simp [checkRates, sampleRatePositive, h]

theorem checkRates_eq_error (r : Rates) (f : Raise) :
    checkRates r = .error f ↔
      ¬ (0 < r.baud ∧ ∀ sr, r.sampleRate = some sr → 0 < sr) ∧
        f = { code := .badParam, exp := none, act := none } := by
  have h : (0 < r.baud ∧ sampleRatePositive r.sampleRate = true) ↔
      (0 < r.baud ∧ ∀ sr, r.sampleRate = some sr → 0 < sr) := by
    cases h : r.sampleRate <;> simp [sampleRatePositive]
  simp only [checkRates, require_eq_error, h]
  exact and_congr_right fun _ => eq_comm

/-- R200: BARDEC's operands pass exactly when all its tests do. -/
theorem barDecRange_eq_ok (rates : Rates) (lo hi : Nat) (tr : Transitions) (n : Nat) :
    barDecRange rates lo hi tr = .ok n ↔
      tr.t.length = tr.s.length ∧ (lo ≤ hi ∧ hi ≤ tr.t.length) ∧
        (0 < rates.baud ∧ ∀ sr, rates.sampleRate = some sr → 0 < sr) ∧
        barDec rates (slice tr.t lo hi) (slice tr.s lo hi) = .ok n := by
  simp only [barDecRange, bind_eq_ok, checkPaired_eq_ok, require_eq_ok, checkRates_eq_ok]
  constructor
  · rintro ⟨_, h1, _, h2, _, h3, h4⟩
    exact ⟨h1, h2, h3, h4⟩
  · rintro ⟨h1, h2, h3, h4⟩
    exact ⟨(), h1, (), h2, (), h3, h4⟩

theorem barDecRange_error_code (rates : Rates) (lo hi : Nat) (tr : Transitions) (f : Raise)
    (h : barDecRange rates lo hi tr = .error f) :
    f.code ∈ [Code.arrayLen, .badRange, .badParam, .nonAscending, .barcodeShort] := by
  simp only [barDecRange, bind_eq_error, checkPaired_eq_error, require_eq_error, checkRates_eq_error] at h
  rcases h with ⟨_, rfl⟩ | ⟨_, _, ⟨_, rfl⟩ | ⟨_, _, ⟨_, rfl⟩ | ⟨_, _, h⟩⟩⟩
  · simp
  · simp
  · simp
  · have := barDec_error_code _ _ _ _ h
    simp only [List.mem_cons, List.not_mem_nil, or_false] at this ⊢
    tauto

/-! ### OUTLIER -/

@[simp] theorem repairFrom_nil (p : Int) : repairFrom p [] = ([], 0) := rfl

/-- R201: one comparison with the already repaired predecessor. -/
theorem repairFrom_cons (p h : Int) (rest : List Int) :
    repairFrom p (h :: rest) =
      if 1 < (h - p).natAbs then ((p + 1) :: (repairFrom (p + 1) rest).1, (repairFrom (p + 1) rest).2 + 1)
      else (h :: (repairFrom h rest).1, (repairFrom h rest).2) := rfl

@[simp] theorem repair_nil : repair [] = ([], 0) := rfl

@[simp] theorem repair_cons (h : Int) (rest : List Int) :
    repair (h :: rest) = (h :: (repairFrom h rest).1, (repairFrom h rest).2) := rfl

@[simp] theorem repairFrom_length (p : Int) (l : List Int) : (repairFrom p l).1.length = l.length := by
  induction l generalizing p with
  | nil => rfl
  | cons h rest ih => rw [repairFrom_cons]; split <;> simp [ih]

/-- R201: the anchor count is unchanged. -/
@[simp] theorem repair_length (l : List Int) : (repair l).1.length = l.length := by
  cases l <;> simp

@[simp] theorem ascendingRuns_nil : ascendingRuns [] = [] := rfl

/-- R202: no run is empty. -/
theorem ascendingRuns_ne_nil (l : List (Rat × Int)) (run : List (Rat × Int)) (h : run ∈ ascendingRuns l) : run ≠ [] := by
  induction l generalizing run with
  | nil => simp at h
  | cons a rest ih =>
    unfold ascendingRuns at h
    split at h
    · rename_i b r rs heq
      split at h
      · rcases List.mem_cons.1 h with rfl | h
        · simp
        · exact ih run (by rw [heq]; exact List.mem_cons_of_mem _ h)
      · rcases List.mem_cons.1 h with rfl | h
        · simp
        · exact ih run (by rw [heq]; exact h)
    · rcases List.mem_cons.1 h with rfl | h
      · simp
      · exact ih run h

/-- R202: the runs are a partition of the anchors, in order. -/
theorem ascendingRuns_flatten (l : List (Rat × Int)) : (ascendingRuns l).flatten = l := by
  induction l with
  | nil => rfl
  | cons a rest ih =>
    unfold ascendingRuns
    split
    · rename_i b r rs heq
      rw [heq] at ih
      split <;> simp_all
    · simp [ih]

/-- R202: what is kept comes in the order of the anchors. -/
theorem keptAnchors_sublist (l : List (Rat × Int)) : List.Sublist (keptAnchors l) l := by
  conv => rhs; rw [← ascendingRuns_flatten l]
  exact List.Sublist.flatten List.filter_sublist

@[simp] theorem repairAnchors_localTimes (a : Anchors) : (repairAnchors a).anchors.localTimes = a.localTimes := rfl

@[simp] theorem repairAnchors_harp (a : Anchors) : (repairAnchors a).anchors.harp = (repair a.harp).1 := rfl

@[simp] theorem repairAnchors_count (a : Anchors) : (repairAnchors a).count = (repair a.harp).2 := rfl

/-! ### CLOCKDEC -/

/-- R204: one range gives its barcode's value or its barcode's fault. -/
theorem decodeRange_eq_ok (rates : Rates) (tr : Transitions) (r : Nat × Nat) (h : Int) :
    decodeRange rates tr r = .ok h ↔
      ∃ n : Nat, barDec rates (slice tr.t r.1 r.2) (slice tr.s r.1 r.2) = .ok n ∧ h = n := by
  unfold decodeRange
  cases barDec rates (slice tr.t r.1 r.2) (slice tr.s r.1 r.2) <;> simp [eq_comm]

theorem decodeRange_eq_error (rates : Rates) (tr : Transitions) (r : Nat × Nat) (f : Raise) :
    decodeRange rates tr r = .error f ↔ barDec rates (slice tr.t r.1 r.2) (slice tr.s r.1 r.2) = .error f := by
  unfold decodeRange
  cases barDec rates (slice tr.t r.1 r.2) (slice tr.s r.1 r.2) <;> simp

/-- R204: the anchors exist exactly when every range decodes. -/
theorem rawAnchors_eq_ok (rates : Rates) (tr : Transitions) (ranges : List (Nat × Nat)) (a : Anchors) :
    rawAnchors rates tr ranges = .ok a ↔
      a.localTimes = ranges.map (fun r => tr.t.getD r.1 0) ∧
        ranges.map (decodeRange rates tr) = a.harp.map Except.ok := by
  obtain ⟨localTimes, harp⟩ := a
  simp only [rawAnchors, bind_eq_ok, collect_eq_ok, Except.ok.injEq, Anchors.mk.injEq]
  constructor
  · rintro ⟨h, h1, rfl, rfl⟩
    exact ⟨rfl, h1⟩
  · rintro ⟨rfl, h1⟩
    exact ⟨harp, h1, rfl, rfl⟩

theorem rawAnchors_eq_error (rates : Rates) (tr : Transitions) (ranges : List (Nat × Nat)) (f : Raise) :
    rawAnchors rates tr ranges = .error f ↔ collect (ranges.map (decodeRange rates tr)) = .error f := by
  simp [rawAnchors, bind_eq_error]

theorem rawAnchors_error_code (rates : Rates) (tr : Transitions) (ranges : List (Nat × Nat)) (f : Raise)
    (h : rawAnchors rates tr ranges = .error f) : f.code ∈ [Code.nonAscending, .barcodeShort] := by
  obtain ⟨before, after, h⟩ := (collect_eq_error _ _).1 ((rawAnchors_eq_error _ _ _ _).1 h)
  have hm : (.error f : Except Raise Int) ∈ ranges.map (decodeRange rates tr) := by rw [h]; simp
  obtain ⟨r, _, hr⟩ := List.mem_map.1 hm
  exact barDec_error_code _ _ _ _ ((decodeRange_eq_error _ _ _ _).1 hr)

/-- R204: CLOCKDEC.* complete exactly when their tests and every range do. -/
theorem clockDecode_eq_ok (policy : Anchors → Corrected) (rates : Rates) (tr : Transitions) (c : ClockDecoded) :
    clockDecode policy rates tr = .ok c ↔
      tr.t.length = tr.s.length ∧ (0 < rates.baud ∧ ∀ sr, rates.sampleRate = some sr → 0 < sr) ∧
        c.ranges = segmentRanges tr.t (gapThreshold rates.sampleRate) ∧
        ∃ a, rawAnchors rates tr c.ranges = .ok a ∧ c.corrected = policy a := by
  obtain ⟨ranges, corrected⟩ := c
  simp only [clockDecode, bind_eq_ok, checkPaired_eq_ok, checkRates_eq_ok, Except.ok.injEq, ClockDecoded.mk.injEq]
  constructor
  · rintro ⟨_, h1, _, h2, a, h3, rfl, rfl⟩
    exact ⟨h1, h2, rfl, a, h3, rfl⟩
  · rintro ⟨h1, h2, rfl, a, h3, rfl⟩
    exact ⟨(), h1, (), h2, a, h3, rfl, rfl⟩

theorem clockDecode_error_code (policy : Anchors → Corrected) (rates : Rates) (tr : Transitions) (f : Raise)
    (h : clockDecode policy rates tr = .error f) :
    f.code ∈ [Code.arrayLen, .badParam, .nonAscending, .barcodeShort] := by
  simp only [clockDecode, bind_eq_error, checkPaired_eq_error, checkRates_eq_error] at h
  rcases h with ⟨_, rfl⟩ | ⟨_, _, ⟨_, rfl⟩ | ⟨_, _, h | ⟨_, _, h⟩⟩⟩
  · simp
  · simp
  · have := rawAnchors_error_code _ _ _ _ h
    simp only [List.mem_cons, List.not_mem_nil, or_false] at this ⊢
    tauto
  · cases h

end Sys2Proof.Machine
end

