-- ==== Sys2Proof/Laws/Aligner.lean ====
section
/-! SUPPORT. What the parts of the aligner's commands can do, each said once. -/

namespace Sys2Proof.Machine

/-! ### ALIGN.BUILD -/

@[simp] theorem firstDescent_nil (k : Nat) : firstDescent k [] = none := rfl

@[simp] theorem firstDescent_single (k : Nat) (a : Rat) : firstDescent k [a] = none := rfl

theorem firstDescent_cons (k : Nat) (a b : Rat) (rest : List Rat) :
    firstDescent k (a :: b :: rest) = if b ≤ a then some k else firstDescent (k + 1) (b :: rest) := rfl

/-- R231 (4): no descent is found exactly when the times ascend strictly. -/
theorem firstDescent_eq_none (k : Nat) (x : List Rat) : firstDescent k x = none ↔ x.Pairwise (· < ·) := by
  rw [← List.isChain_iff_pairwise]
  induction x generalizing k with
  | nil => simp
  | cons a x ih =>
    cases x with
    | nil => simp
    | cons b rest =>
      rw [firstDescent_cons, List.isChain_cons_cons, ← ih (k + 1)]
      by_cases h : b ≤ a
      · simp [h]
      · simp [h, not_le.1 h]

theorem checkAscending_eq_ok (x : List Rat) (u : Unit) : checkAscending x = .ok u ↔ x.Pairwise (· < ·) := by
  rw [← firstDescent_eq_none 1]
  unfold checkAscending
  cases firstDescent 1 x <;> simp

theorem checkAscending_eq_error (x : List Rat) (f : Raise) :
    checkAscending x = .error f ↔ ∃ k, firstDescent 1 x = some k ∧
      f = { code := .anchorsNotAscending, exp := none, act := some (.int k) } := by
  unfold checkAscending
  cases firstDescent 1 x <;> simp [eq_comm]

/-- R231: anchors pass exactly when they are paired, at least two and strictly ascending. -/
theorem checkAnchors_eq_ok (a : Anchors) (u : Unit) :
    checkAnchors a = .ok u ↔
      a.localTimes.length = a.harp.length ∧ 2 ≤ a.localTimes.length ∧ a.localTimes.Pairwise (· < ·) := by
  simp only [checkAnchors, bind_eq_ok, checkPaired_eq_ok, require_eq_ok, checkAscending_eq_ok, exists_const]

theorem checkAnchors_error_code (a : Anchors) (f : Raise) (h : checkAnchors a = .error f) :
    f.code ∈ [Code.arrayLen, .tooFewAnchors, .anchorsNotAscending] := by
  simp only [checkAnchors, bind_eq_error, checkPaired_eq_error, require_eq_error, checkAscending_eq_error] at h
  rcases h with ⟨_, rfl⟩ | ⟨_, _, ⟨_, rfl⟩ | ⟨_, _, k, _, rfl⟩⟩ <;> simp

/-- R231 to R234: the build completes exactly when the anchors pass, with this map. -/
theorem buildFrom_eq_ok (a : Anchors) (m : PiecewiseMap) :
    buildFrom a = .ok m ↔
      (a.localTimes.length = a.harp.length ∧ 2 ≤ a.localTimes.length ∧ a.localTimes.Pairwise (· < ·)) ∧
        m = buildMap a := by
  simp only [buildFrom, bind_eq_ok, checkAnchors_eq_ok, exists_const, Except.ok.injEq]
  exact and_congr_right fun _ => eq_comm

theorem buildFrom_eq_error (a : Anchors) (f : Raise) : buildFrom a = .error f ↔ checkAnchors a = .error f := by
  simp [buildFrom, bind_eq_error]

theorem buildFrom_error_code (a : Anchors) (f : Raise) (h : buildFrom a = .error f) :
    f.code ∈ [Code.arrayLen, .tooFewAnchors, .anchorsNotAscending] :=
  checkAnchors_error_code a f ((buildFrom_eq_error a f).1 h)

@[simp] theorem localFits_nil : localFits [] = [] := rfl

@[simp] theorem localFits_single (a : Rat × Rat) : localFits [a] = [] := rfl

theorem localFits_cons (a b : Rat × Rat) (rest : List (Rat × Rat)) :
    localFits (a :: b :: rest) =
      { x := b.1, slope := localSlope a b, offset := a.2 - localSlope a b * a.1 } :: localFits (b :: rest) := rfl

/-- R233: entry `k` of the local fits is the line through points `k` and `k + 1`. -/
theorem localFits_getElem? (p : List (Rat × Rat)) (k : Nat) (e : MapEntry) :
    (localFits p)[k]? = some e ↔ ∃ a b, p[k]? = some a ∧ p[k + 1]? = some b ∧
      e = { x := b.1, slope := localSlope a b, offset := a.2 - localSlope a b * a.1 } := by
  induction p generalizing k with
  | nil => simp
  | cons a p ih =>
    cases p with
    | nil => simp
    | cons b rest =>
      rw [localFits_cons]
      cases k with
      | zero => simp [eq_comm]
      | succ k => rw [List.getElem?_cons_succ, ih]; simp

/-- R233, R234: the local fits carry the local times of the anchors after the first. -/
theorem localFits_x (p : List (Rat × Rat)) : (localFits p).map MapEntry.x = (p.map Prod.fst).tail := by
  induction p with
  | nil => rfl
  | cons a p ih =>
    cases p with
    | nil => rfl
    | cons b rest => rw [localFits_cons]; simpa using ih

theorem anchorPoints_fst (a : Anchors) (h : a.localTimes.length = a.harp.length) :
    (anchorPoints a).map Prod.fst = a.localTimes := by
  simp [anchorPoints, List.map_fst_zip, h]

/-- R234: `PM.x` is a copy of the anchors' local times. -/
theorem mapTimes_buildMap (a : Anchors) (h : a.localTimes.length = a.harp.length) (hne : a.localTimes ≠ []) :
    mapTimes (buildMap a) = a.localTimes := by
  have h1 : (localFits (anchorPoints a)).map MapEntry.x = a.localTimes.tail := by
    rw [localFits_x, anchorPoints_fst a h]
  cases hl : a.localTimes with
  | nil => exact absurd hl hne
  | cons x rest =>
    simp only [mapTimes, mapEntries, buildMap, List.map_cons, hl, List.headD_cons]
    rw [h1, hl, List.tail_cons]

@[simp] theorem mapTimes_length (m : PiecewiseMap) : (mapTimes m).length = mapSize m := by
  simp [mapTimes, mapEntries, mapSize]

/-! ### ALIGN.QUERY -/

/-- R235: the insertion index is at most `N`. -/
theorem insertionIndex_le (m : PiecewiseMap) (t : Rat) : insertionIndex m t ≤ mapSize m := by
  rw [← mapTimes_length]
  exact List.length_filter_le _ _

/-- R236: the index used is one of the map's. -/
theorem queryIndex_lt (m : PiecewiseMap) (t : Rat) : queryIndex m t < mapSize m := by
  have := insertionIndex_le m t
  unfold queryIndex
  split
  · simp [mapSize]
  · omega

theorem queryIndex_of_beyond (m : PiecewiseMap) (t : Rat) (h : insertionIndex m t = mapSize m) :
    queryIndex m t = 0 := by simp [queryIndex, h]

theorem queryIndex_of_within (m : PiecewiseMap) (t : Rat) (h : insertionIndex m t < mapSize m) :
    queryIndex m t = insertionIndex m t := by simp [queryIndex, h.ne]

@[simp] theorem entryAt_zero (m : PiecewiseMap) : entryAt m 0 = m.global := rfl

theorem entryAt_of_getElem? (m : PiecewiseMap) (i : Nat) (e : MapEntry) (h : (mapEntries m)[i]? = some e) :
    entryAt m i = e := by
  simp [entryAt, h]

@[simp] theorem alignTimes_length (m : PiecewiseMap) (q : List Rat) : (alignTimes m q).length = q.length := by
  simp [alignTimes]

/-- R237: result `j` answers query `j`. -/
theorem alignTimes_getElem? (m : PiecewiseMap) (q : List Rat) (j : Nat) :
    (alignTimes m q)[j]? = q[j]?.map (alignTime m) := by
  simp [alignTimes]

end Sys2Proof.Machine
end

