-- ==== Sys2Proof/Laws/Codec.lean ====
section
/-! SUPPORT. What the parts of DECODE and ENCODE can do, each said once: when a part completes and with what, and
which faults it can raise. -/

namespace Sys2Proof.Machine

/-! ### DECODE -/

@[simp] theorem payloadOffset_true : payloadOffset true = 11 := rfl

@[simp] theorem payloadOffset_false : payloadOffset false = 5 := rfl

theorem dispatchType_eq_ok (tag : Byte) (e : EType) : dispatchType tag = .ok e ↔ typeOf tag = some e := by
  unfold dispatchType; cases typeOf tag <;> simp

theorem dispatchType_eq_error (tag : Byte) (f : Raise) :
    dispatchType tag = .error f ↔
      typeOf tag = none ∧ f = { code := .unknownType, exp := none, act := some (.int (baseTag tag).toNat) } := by
  unfold dispatchType; cases typeOf tag <;> simp [eq_comm]

/-- R132 to R136: the header passes exactly when all its tests do, and then the layout is this one. -/
theorem parseHeader_eq_ok (o : DecodeOperands) (b : List Byte) (l : Layout) :
    parseHeader o b = .ok l ↔
      5 ≤ b.length ∧ (o.expAddr = none ∨ o.expAddr = some (byteAt b 2)) ∧
        typeOf (byteAt b 4) = some l.etype ∧ (o.expType = none ∨ o.expType = some l.etype) ∧
        l.off + 1 ≤ l.stride ∧ (o.expLen = none ∨ o.expLen = some l.count) ∧
        (o.ncols = none ∨ o.ncols = some l.count) ∧
        l.stride = (byteAt b 1).toNat + 2 ∧ l.rows = b.length / l.stride ∧ l.tag = byteAt b 4 ∧
        l.timestamped = timestampFlag (byteAt b 4) ∧ l.off = payloadOffset l.timestamped ∧
        l.count = (l.stride - l.off - 1) / l.etype.size := by
  obtain ⟨stride, rows, tag, timestamped, off, etype, count⟩ := l
  simp only [parseHeader, bind_eq_ok, require_eq_ok, expect_eq_ok, dispatchType_eq_ok, Except.ok.injEq, Layout.mk.injEq]
  constructor
  · rintro ⟨_, h1, _, h2, e, h3, _, h4, _, h5, _, h6, _, h7, rfl, rfl, rfl, rfl, rfl, rfl, rfl⟩
    exact ⟨h1, h2, h3, h4, h5, h6, h7, rfl, rfl, rfl, rfl, rfl, rfl⟩
  · rintro ⟨h1, h2, h3, h4, h5, h6, h7, rfl, rfl, rfl, rfl, rfl, rfl⟩
    exact ⟨(), h1, (), h2, etype, h3, (), h4, (), h5, (), h6, (), h7, rfl, rfl, rfl, rfl, rfl, rfl, rfl⟩

/-- R130: the faults the header can raise. -/
theorem parseHeader_error_code (o : DecodeOperands) (b : List Byte) (f : Raise) (h : parseHeader o b = .error f) :
    f.code ∈ [Code.hdrTruncated, .addrMismatch, .unknownType, .typeMismatch, .strideTooSmall, .lenMismatch,
      .colMismatch] := by
  simp only [parseHeader, bind_eq_error, require_eq_error, expect_eq_error, dispatchType_eq_error] at h
  rcases h with ⟨_, rfl⟩ | ⟨_, _, ⟨w, _, _, rfl⟩ | ⟨_, _, ⟨_, rfl⟩ | ⟨e, _, ⟨w, _, _, rfl⟩ | ⟨_, _, ⟨_, rfl⟩ |
    ⟨_, _, ⟨w, _, _, rfl⟩ | ⟨_, _, ⟨w, _, _, rfl⟩ | ⟨_, _, h⟩⟩⟩⟩⟩⟩⟩ <;> simp_all

theorem rowKind_eq_ok (o : DecodeOperands) (l : Layout) (b : List Byte) (r : Nat) (k : Option Kind) :
    rowKind o l b r = .ok k ↔
      if o.keepKind then (kindOf (byteAt b (kindAddr l.stride r))).isSome ∧
        k = kindOf (byteAt b (kindAddr l.stride r))
      else k = none := by
  unfold rowKind
  cases o.keepKind
  · simp [eq_comm]
  · cases kindOf (byteAt b (kindAddr l.stride r)) <;> simp [eq_comm]

theorem rowKind_eq_error (o : DecodeOperands) (l : Layout) (b : List Byte) (r : Nat) (f : Raise) :
    rowKind o l b r = .error f ↔
      o.keepKind = true ∧ kindOf (byteAt b (kindAddr l.stride r)) = none ∧
        f = { code := .badKind, exp := none, act := some (.int (byteAt b (kindAddr l.stride r)).toNat) } := by
  unfold rowKind
  cases o.keepKind
  · simp
  · cases kindOf (byteAt b (kindAddr l.stride r)) <;> simp [eq_comm]

/-- R94: the kinds are the codes 0 to 3. -/
theorem kindOf_isSome (b : Byte) : (kindOf b).isSome = true ↔ b.toNat ≤ 3 := by
  revert b; decide +kernel

theorem kindOf_kindCode (k : Kind) : kindOf (kindCode k) = some k := by cases k <;> rfl

theorem kindCode_of_kindOf (b : Byte) (k : Kind) (h : kindOf b = some k) : kindCode k = b := by
  revert b k; decide +kernel

theorem decodeRow_eq_ok (o : DecodeOperands) (l : Layout) (b : List Byte) (r : Nat) (row : Record) :
    decodeRow o l b r = .ok row ↔
      rowKind o l b r = .ok row.kind ∧ row.ts = rowIndex o l b r ∧ row.payload = rowPayload l b r := by
  obtain ⟨ts, kind, payload⟩ := row
  simp only [decodeRow, bind_eq_ok, Except.ok.injEq, Record.mk.injEq]
  constructor
  · rintro ⟨k, h, rfl, rfl, rfl⟩
    exact ⟨h, rfl, rfl⟩
  · rintro ⟨h, rfl, rfl⟩
    exact ⟨kind, h, rfl, rfl, rfl⟩

theorem decodeRow_eq_error (o : DecodeOperands) (l : Layout) (b : List Byte) (r : Nat) (f : Raise) :
    decodeRow o l b r = .error f ↔ rowKind o l b r = .error f := by
  simp [decodeRow, bind_eq_error]

@[simp] theorem rowPayload_length (l : Layout) (b : List Byte) (r : Nat) : (rowPayload l b r).length = l.count := by
  simp [rowPayload]

/-- R102: every decoded pattern fits its element type. -/
theorem rowPayload_lt (l : Layout) (b : List Byte) (r p : Nat) (h : p ∈ rowPayload l b r) : p < 256 ^ l.etype.size := by
  simp only [rowPayload, List.mem_map] at h
  obtain ⟨c, _, rfl⟩ := h
  exact leNat_memRead_lt _ _ _

@[simp] theorem decodeBuffer_nil (o : DecodeOperands) :
    decodeBuffer o [] = .ok { table := emptyTable o, header := none } := by simp [decodeBuffer]

/-- R146: DECODE of a buffer with bytes completes exactly when the header and every row do. -/
theorem decodeBuffer_eq_ok (o : DecodeOperands) (b : List Byte) (d : Decoded) (hb : b ≠ []) :
    decodeBuffer o b = .ok d ↔
      ∃ l rows, parseHeader o b = .ok l ∧ (List.range l.rows).map (decodeRow o l b) = rows.map Except.ok ∧
        d =
          { table :=
              { indexKind := indexKindOf o l.timestamped, etype := some l.etype, ncols := l.count,
                hasKind := o.keepKind, rows := rows }
            header :=
              some { stride := l.stride, address := byteAt b 2, port := byteAt b 3, tag := l.tag, rows := l.rows } } := by
  simp only [decodeBuffer, hb, if_false, bind_eq_ok, collect_eq_ok, Except.ok.injEq]
  constructor
  · rintro ⟨l, h1, rows, h2, h3⟩
    exact ⟨l, rows, h1, h2, h3.symm⟩
  · rintro ⟨l, rows, h1, h2, h3⟩
    exact ⟨l, h1, rows, h2, h3.symm⟩

/-- R130: the faults of DECODE after the operand test. -/
theorem decodeBuffer_error_code (o : DecodeOperands) (b : List Byte) (f : Raise) (h : decodeBuffer o b = .error f) :
    f.code ∈ [Code.hdrTruncated, .addrMismatch, .unknownType, .typeMismatch, .strideTooSmall, .lenMismatch,
      .colMismatch, .badKind] := by
  unfold decodeBuffer at h
  split at h
  · cases h
  · simp only [bind_eq_error, collect_eq_error] at h
    rcases h with h | ⟨l, _, ⟨before, after, h⟩ | ⟨_, _, h⟩⟩
    · have := parseHeader_error_code o b f h
      simp only [List.mem_cons, List.not_mem_nil, or_false] at this ⊢
      tauto
    · have hm : (.error f : Except Raise Record) ∈ (List.range l.rows).map (decodeRow o l b) := by rw [h]; simp
      obtain ⟨r, _, hr⟩ := List.mem_map.1 hm
      rw [decodeRow_eq_error, rowKind_eq_error] at hr
      obtain ⟨_, _, rfl⟩ := hr
      simp
    · cases h

/-- R28, R140: a decoded table is a table. -/
theorem decodeBuffer_table_wellFormed (o : DecodeOperands) (b : List Byte) (d : Decoded)
    (h : decodeBuffer o b = .ok d) : d.table.wellFormed = true := by
  by_cases hb : b = []
  · subst hb
    simp at h
    subst h
    simp [Table.wellFormed, emptyTable]
  · obtain ⟨l, rows, hl, hrows, rfl⟩ := (decodeBuffer_eq_ok o b d hb).1 h
    simp only [Table.wellFormed, List.all_eq_true]
    intro row hrow
    have hm : (.ok row : Except Raise Record) ∈ (List.range l.rows).map (decodeRow o l b) := by
      rw [hrows]; exact List.mem_map.2 ⟨row, hrow, rfl⟩
    obtain ⟨r, _, hr⟩ := List.mem_map.1 hm
    obtain ⟨hk, hts, hp⟩ := (decodeRow_eq_ok o l b r row).1 hr
    rw [rowKind_eq_ok] at hk
    have h1 : row.kind.isSome = o.keepKind := by
      cases hkk : o.keepKind <;> simp [hkk] at hk <;> simp [hk]
    have h2 : row.ts.isSome = (indexKindOf o l.timestamped != .positional) := by
      rw [hts]
      unfold rowIndex indexKindOf
      cases l.timestamped <;> cases o.epoch <;> rfl
    have h3 : ∀ p ∈ row.payload, p < 256 ^ l.etype.size := fun p hp' => rowPayload_lt l b r p (hp ▸ hp')
    simp only [Record.fits, h1, h2, beq_self_eq_true, Bool.and_self, Bool.true_and, Bool.and_eq_true, beq_iff_eq,
      List.all_eq_true, decide_eq_true_eq]
    exact ⟨by rw [hp]; simp, h3⟩

/-- R26, R136: a decoded header holds a stride of R93 with room for the header bytes and the checksum. -/
theorem decodeBuffer_header_stride (o : DecodeOperands) (b : List Byte) (d : Decoded) (h : Header)
    (hd : decodeBuffer o b = .ok d) (hh : d.header = some h) : 6 ≤ h.stride ∧ h.stride ≤ 257 := by
  by_cases hb : b = []
  · subst hb; simp at hd; subst hd; simp at hh
  · obtain ⟨l, rows, hl, _, rfl⟩ := (decodeBuffer_eq_ok o b d hb).1 hd
    simp at hh
    subst hh
    obtain ⟨_, _, _, _, h1, _, _, h2, _, _, _, h3, _⟩ := (parseHeader_eq_ok o b l).1 hl
    have hlt := (byteAt b 1).isLt
    cases ht : l.timestamped <;> simp [ht] at h3 <;> simp only <;> omega

/-! ### ENCODE -/

theorem timingOf_eq_error (epoch : Option Rat) (k : IndexKind) (f : Raise) (h : timingOf epoch k = .error f) :
    f.code = .epochIndex := by
  cases epoch <;> cases k <;> simp [timingOf] at h <;> subst h <;> rfl

/-- R162 to R166: the plan of the frames passes exactly when all its tests do, and then it is this one. -/
theorem planFrames_eq_ok (o : EncodeOperands) (t : Table) (f : FrameShape) :
    planFrames o t = .ok f ↔
      ¬ (t.hasKind = true ∧ o.kind.isSome = true) ∧ (t.hasKind = true ∨ o.kind.isSome = true) ∧
        timingOf o.epoch t.indexKind = .ok f.timing ∧ coercible f.src f.dst t.rows = true ∧
        f.stride ≤ Config.maxStride ∧ f.src = t.etype.getD .u8 ∧ f.dst = o.dtype.getD f.src ∧
        f.stride = strideOf t.ncols f.dst f.timing.stamped := by
  obtain ⟨timing, src, dst, stride⟩ := f
  simp only [planFrames, bind_eq_ok, require_eq_ok, Except.ok.injEq, FrameShape.mk.injEq]
  constructor
  · rintro ⟨_, h1, _, h2, tm, h3, _, h4, _, h5, rfl, rfl, rfl, rfl⟩
    exact ⟨h1, h2, h3, h4, h5, rfl, rfl, rfl⟩
  · rintro ⟨h1, h2, h3, h4, h5, rfl, rfl, rfl⟩
    exact ⟨(), h1, (), h2, timing, h3, (), h4, (), h5, rfl, rfl, rfl, rfl⟩

/-- R160: the faults the plan can raise. -/
theorem planFrames_error_code (o : EncodeOperands) (t : Table) (f : Raise) (h : planFrames o t = .error f) :
    f.code ∈ [Code.kindAmbiguous, .kindUnspecified, .epochIndex, .coerceUnsupported, .frameTooLong] := by
  simp only [planFrames, bind_eq_error, require_eq_error] at h
  rcases h with ⟨_, rfl⟩ | ⟨_, _, ⟨_, rfl⟩ | ⟨_, _, h | ⟨_, _, ⟨_, rfl⟩ | ⟨_, _, ⟨_, rfl⟩ | ⟨_, _, h⟩⟩⟩⟩⟩
  · simp
  · simp
  · simp [timingOf_eq_error _ _ _ h]
  · simp
  · simp
  · cases h

theorem timestampBytes_eq_ok (t : Rat) (b : List Byte) :
    timestampBytes t = .ok b ↔
      (0 ≤ t.floor ∧ t.floor < 2 ^ 32) ∧ b = leBytes t.floor.toNat 4 ++ leBytes (ticksOf t) 2 := by
  simp only [timestampBytes, bind_eq_ok, require_eq_ok, Except.ok.injEq]
  constructor
  · rintro ⟨_, h, rfl⟩
    exact ⟨h, rfl⟩
  · rintro ⟨h, rfl⟩
    exact ⟨(), h, rfl⟩

theorem timestampBytes_eq_error (t : Rat) (f : Raise) :
    timestampBytes t = .error f ↔
      ¬ (0 ≤ t.floor ∧ t.floor < 2 ^ 32) ∧ f = { code := .tsRange, exp := none, act := some (.int t.floor) } := by
  simp only [timestampBytes, bind_eq_error, require_eq_error, reduceCtorEq, and_false, exists_false, or_false]
  exact and_congr_right fun _ => eq_comm

/-- R163, R167: the timestamp field is absent without timestamps, and else the bytes of the row's time. -/
theorem stampBytes_eq_ok (f : FrameShape) (r : Record) (b : List Byte) :
    stampBytes f r = .ok b ↔
      if f.timing.stamped then timestampBytes (f.timing.secondsOf (r.ts.getD 0)) = .ok b else b = [] := by
  unfold stampBytes
  split <;> simp [eq_comm]

theorem stampBytes_eq_error (f : FrameShape) (r : Record) (e : Raise) :
    stampBytes f r = .error e ↔
      f.timing.stamped = true ∧ timestampBytes (f.timing.secondsOf (r.ts.getD 0)) = .error e := by
  unfold stampBytes
  split <;> simp_all

/-- R168: a row's frame is its header, its timestamp field, its payload and the checksum. -/
theorem encodeRow_eq_ok (o : EncodeOperands) (f : FrameShape) (t : Table) (r : Record) (b : List Byte) :
    encodeRow o f t r = .ok b ↔
      ∃ stamp, stampBytes f r = .ok stamp ∧
        b = sealFrame (headerBytes o f (kindWritten o t r) ++ stamp ++ payloadBytes f r) := by
  simp only [encodeRow, bind_eq_ok, Except.ok.injEq]
  exact exists_congr fun _ => and_congr_right fun _ => eq_comm

theorem encodeRow_eq_error (o : EncodeOperands) (f : FrameShape) (t : Table) (r : Record) (e : Raise) :
    encodeRow o f t r = .error e ↔
      f.timing.stamped = true ∧ timestampBytes (f.timing.secondsOf (r.ts.getD 0)) = .error e := by
  simp only [encodeRow, bind_eq_error, reduceCtorEq, and_false, exists_false, or_false, stampBytes_eq_error]

/-- R171: ENCODE of a table with rows completes exactly when the plan and every row do. -/
theorem encodeTable_eq_ok (o : EncodeOperands) (t : Table) (b : List Byte) (h : t.rows ≠ []) :
    encodeTable o t = .ok b ↔
      ∃ (f : FrameShape) (frames : List (List Byte)), planFrames o t = .ok f ∧
        t.rows.map (encodeRow o f t) = frames.map Except.ok ∧ b = frames.flatten := by
  simp only [encodeTable, h, if_false, bind_eq_ok, collect_eq_ok, Except.ok.injEq]
  constructor
  · rintro ⟨f, h1, frames, h2, rfl⟩
    exact ⟨f, frames, h1, h2, rfl⟩
  · rintro ⟨f, frames, h1, h2, rfl⟩
    exact ⟨f, h1, frames, h2, rfl⟩

/-- R160: the faults of ENCODE after the operand test. -/
theorem encodeTable_error_code (o : EncodeOperands) (t : Table) (f : Raise) (h : encodeTable o t = .error f) :
    f.code ∈ [Code.kindAmbiguous, .kindUnspecified, .epochIndex, .coerceUnsupported, .frameTooLong, .tsRange] := by
  unfold encodeTable at h
  split at h
  · cases h
  · simp only [bind_eq_error, collect_eq_error] at h
    rcases h with h | ⟨g, _, ⟨before, after, h⟩ | ⟨_, _, h⟩⟩
    · have := planFrames_error_code o t f h
      simp only [List.mem_cons, List.not_mem_nil, or_false] at this ⊢
      tauto
    · have hm : (.error f : Except Raise (List Byte)) ∈ t.rows.map (encodeRow o g t) := by rw [h]; simp
      obtain ⟨r, _, hr⟩ := List.mem_map.1 hm
      rw [encodeRow_eq_error, timestampBytes_eq_error] at hr
      simp [hr.2.2]
    · cases h

end Sys2Proof.Machine
end

