-- ==== Sys2Proof/Laws/Machine.lean ====
section
/-! SUPPORT. What one command, one action of the host and one step can do, each said once. -/

namespace Sys2Proof.Machine

/-! ### The shared bodies of the commands -/

/-- R146: the two endings of DECODE of a buffer. -/
theorem decodeFrom_cases (ibuf : Option (List Byte)) (s : State) :
    (∃ b d, ibuf = some b ∧ decodeBuffer s.decodeOperands b = .ok d ∧
        decodeFrom ibuf s = returnOk false (commitDecoded d s)) ∨
      ∃ f, f.code ≠ .ok ∧ decodeFrom ibuf s = raiseFault f [.tbl, .hdr] s := by
  cases ibuf with
  | none => exact .inr ⟨_, by decide, rfl⟩
  | some b =>
    cases h : decodeBuffer s.decodeOperands b with
    | ok d => exact .inl ⟨b, d, rfl, h, by simp [decodeFrom, h]⟩
    | error f =>
      refine .inr ⟨f, fun hf => ?_, by simp [decodeFrom, h, decodeDests]⟩
      have := decodeBuffer_error_code _ _ _ h
      simp [hf] at this

/-- R171: the two endings of ENCODE. -/
theorem encodeFrom_cases (s : State) :
    (∃ t b, s.tbl = some t ∧ encodeTable s.encodeOperands t = .ok b ∧
        encodeFrom s = returnOk false (commitEncoded b s)) ∨
      ∃ f, f.code ≠ .ok ∧ encodeFrom s = raiseFault f [.obuf] s := by
  cases ht : s.tbl with
  | none => exact .inr ⟨{ code := .operandInvalid, exp := none, act := none }, by decide, by simp [encodeFrom, ht, encodeDests]⟩
  | some t =>
    cases h : encodeTable s.encodeOperands t with
    | ok b => exact .inl ⟨t, b, rfl, h, by simp [encodeFrom, ht, h]⟩
    | error f =>
      refine .inr ⟨f, fun hf => ?_, by simp [encodeFrom, ht, h, encodeDests]⟩
      have := encodeTable_error_code _ _ _ h
      simp [hf] at this

/-- R28: what `tableSound` asks. -/
theorem tableSound_iff (s : State) : tableSound s = true ↔ ∀ t, s.tbl = some t → t.wellFormed = true := by
  cases h : s.tbl <;> simp [tableSound, h]

/-- R201, R202: the two endings of OUTLIER.*. -/
theorem correctAnchors_cases (policy : Anchors → Corrected) (s : State) :
    (∃ a, s.an = some a ∧ a.localTimes.length = a.harp.length ∧
        correctAnchors policy s =
          returnOk (outlierWarning (policy a).count) (commitCorrected (policy a) s)) ∨
      ∃ f, f.code ≠ .ok ∧ correctAnchors policy s = raiseFault f [.an] s := by
  cases ha : s.an with
  | none => exact .inr ⟨{ code := .operandInvalid, exp := none, act := none }, by decide, by simp [correctAnchors, ha, outlierDests]⟩
  | some a =>
    by_cases h : a.localTimes.length = a.harp.length
    · exact .inl ⟨a, rfl, h, by simp [correctAnchors, ha, checkPaired, require, h]⟩
    · exact .inr ⟨{ code := .arrayLen, exp := some (.int a.localTimes.length), act := some (.int a.harp.length) },
        by simp, by simp [correctAnchors, ha, checkPaired, require, h, outlierDests]⟩

/-- R204: the two endings of CLOCKDEC.*. -/
theorem clockFrom_cases (policy : Anchors → Corrected) (s : State) :
    (∃ tr c, s.tr = some tr ∧ clockDecode policy s.rates tr = .ok c ∧
        clockFrom policy s = returnOk (outlierWarning c.corrected.count) (commitClock c s)) ∨
      ∃ f, f.code ≠ .ok ∧ clockFrom policy s = raiseFault f [.edg, .an] s := by
  cases ht : s.tr with
  | none => exact .inr ⟨{ code := .operandInvalid, exp := none, act := none }, by decide, by simp [clockFrom, ht, clockdecDests]⟩
  | some tr =>
    cases h : clockDecode policy s.rates tr with
    | ok c => exact .inl ⟨tr, c, rfl, h, by simp [clockFrom, ht, h]⟩
    | error f =>
      refine .inr ⟨f, fun hf => ?_, by simp [clockFrom, ht, h, clockdecDests]⟩
      have := clockDecode_error_code _ _ _ _ h
      simp [hf] at this

/-! ### The host -/

@[simp] theorem fetch_nil (s : State) (h : s.host = []) : fetch s = .idle := by simp [fetch, h]

theorem fetch_cmd (s : State) (v : Byte) (rest : List HostAction) (h : s.host = .cmd v :: rest) :
    fetch s = .command v (popAction rest s) := by simp [fetch, h]

/-- R23: what the fetch can find. -/
theorem fetch_cases (s : State) :
    (s.host = [] ∧ fetch s = .idle) ∨
      (∃ v rest, s.host = .cmd v :: rest ∧ fetch s = .command v (popAction rest s)) ∨
        ∃ a rest, s.host = a :: rest ∧ (∀ v, a ≠ .cmd v) ∧ fetch s = .action a (popAction rest s) := by
  cases h : s.host with
  | nil => exact .inl ⟨rfl, by simp [fetch, h]⟩
  | cons a rest =>
    cases a with
    | cmd v => exact .inr (.inl ⟨v, rest, rfl, by simp [fetch, h]⟩)
    | _ => exact .inr (.inr ⟨_, rest, rfl, by simp, by simp [fetch, h]⟩)

/-- R28, R43: a load either is well formed and stored, or is refused. -/
theorem hostAction_load (m : MemLoad) (s : State) :
    hostAction (.load m) s =
      if (HostAction.load m).wellFormed then .next (loadMem m s) else .refused .illTypedLoad := rfl

/-- R28: a load that is accepted leaves a table in `TBL` if there was one. -/
theorem loadMem_tbl (m : MemLoad) (s : State) (hm : (HostAction.load m).wellFormed = true)
    (h : ∀ t, s.tbl = some t → t.wellFormed = true) (t : Table) (ht : (loadMem m s).tbl = some t) :
    t.wellFormed = true := by
  cases m with
  | tbl t' => simp only [loadMem, Option.some.injEq] at ht; subst ht; exact hm
  | _ => exact h t ht

/-- R23, R71, R300: what one step can be. -/
theorem step_cases (s : State) :
    (s.host = [] ∧ step s = .next s) ∨
      (∃ v rest i, s.host = .cmd v :: rest ∧ decodeCmd v = some i ∧ step s = exec i (popAction rest s)) ∨
        (∃ v rest, s.host = .cmd v :: rest ∧ decodeCmd v = none ∧
          step s = .next (illegalCommand v (popAction rest s))) ∨
          ∃ a rest, s.host = a :: rest ∧ (∀ v, a ≠ .cmd v) ∧ step s = hostAction a (popAction rest s) := by
  rcases fetch_cases s with ⟨h, hf⟩ | ⟨v, rest, h, hf⟩ | ⟨a, rest, h, hn, hf⟩
  · exact .inl ⟨h, by simp [step, hf]⟩
  · cases hd : decodeCmd v with
    | none => exact .inr (.inr (.inl ⟨v, rest, h, hd, by simp [step, hf, hd]⟩))
    | some i => exact .inr (.inl ⟨v, rest, i, h, hd, by simp [step, hf, hd]⟩)
  · exact .inr (.inr (.inr ⟨a, rest, h, hn, by simp [step, hf]⟩))

end Sys2Proof.Machine
end

