-- ==== Sys2Proof/Laws/PerInstr.lean ====
section
/-! SUPPORT. One family of facts, an instruction at a time: the byte of an instruction selects its row of the opcode
table (R122). The masks and matches are the table's. -/

namespace Sys2Proof.Laws

/-- R122: the row of the opcode table: mask, match and format. -/
def rowOf : Instr → Byte × Byte × Format
  | .tagU8 _ => (0xEF, 0x01, .tag)
  | .tagU16 _ => (0xEF, 0x02, .tag)
  | .tagU32 _ => (0xEF, 0x04, .tag)
  | .tagU64 _ => (0xEF, 0x08, .tag)
  | .tagI8 _ => (0xEF, 0x81, .tag)
  | .tagI16 _ => (0xEF, 0x82, .tag)
  | .tagI32 _ => (0xEF, 0x84, .tag)
  | .tagI64 _ => (0xEF, 0x88, .tag)
  | .tagF32 _ => (0xEF, 0x44, .tag)
  | .kindNa => (0xFF, 0x00, .kind)
  | .kindRead => (0xFF, 0x01, .kind)
  | .kindWrite => (0xFF, 0x02, .kind)
  | .kindEvent => (0xFF, 0x03, .kind)
  | .decode => (0xFF, 0x01, .cmd)
  | .encode => (0xFF, 0x02, .cmd)
  | .segment => (0xFF, 0x10, .cmd)
  | .bardec => (0xFF, 0x11, .cmd)
  | .outlierRepair => (0xFF, 0x12, .cmd)
  | .outlierDrop => (0xFF, 0x13, .cmd)
  | .clockdecRepair => (0xFF, 0x14, .cmd)
  | .clockdecDrop => (0xFF, 0x15, .cmd)
  | .alignBuild => (0xFF, 0x20, .cmd)
  | .alignQuery => (0xFF, 0x21, .cmd)
  | .align => (0xFF, 0x22, .cmd)

/-- R122: a byte selects a row when its masked bits are the row's; and the instruction is of the row's format. -/
def MatchesRow.Statement (i : Instr) : Prop :=
  encode i &&& (rowOf i).1 = (rowOf i).2.1 ∧ i.format = (rowOf i).2.2

theorem MatchesRow.tagU8 (t : Bool) : MatchesRow.Statement (.tagU8 t) := by
  unfold MatchesRow.Statement; cases t <;> decide
theorem MatchesRow.tagU16 (t : Bool) : MatchesRow.Statement (.tagU16 t) := by
  unfold MatchesRow.Statement; cases t <;> decide
theorem MatchesRow.tagU32 (t : Bool) : MatchesRow.Statement (.tagU32 t) := by
  unfold MatchesRow.Statement; cases t <;> decide
theorem MatchesRow.tagU64 (t : Bool) : MatchesRow.Statement (.tagU64 t) := by
  unfold MatchesRow.Statement; cases t <;> decide
theorem MatchesRow.tagI8 (t : Bool) : MatchesRow.Statement (.tagI8 t) := by
  unfold MatchesRow.Statement; cases t <;> decide
theorem MatchesRow.tagI16 (t : Bool) : MatchesRow.Statement (.tagI16 t) := by
  unfold MatchesRow.Statement; cases t <;> decide
theorem MatchesRow.tagI32 (t : Bool) : MatchesRow.Statement (.tagI32 t) := by
  unfold MatchesRow.Statement; cases t <;> decide
theorem MatchesRow.tagI64 (t : Bool) : MatchesRow.Statement (.tagI64 t) := by
  unfold MatchesRow.Statement; cases t <;> decide
theorem MatchesRow.tagF32 (t : Bool) : MatchesRow.Statement (.tagF32 t) := by
  unfold MatchesRow.Statement; cases t <;> decide
theorem MatchesRow.kindNa : MatchesRow.Statement .kindNa := by unfold MatchesRow.Statement; decide
theorem MatchesRow.kindRead : MatchesRow.Statement .kindRead := by unfold MatchesRow.Statement; decide
theorem MatchesRow.kindWrite : MatchesRow.Statement .kindWrite := by unfold MatchesRow.Statement; decide
theorem MatchesRow.kindEvent : MatchesRow.Statement .kindEvent := by unfold MatchesRow.Statement; decide
theorem MatchesRow.decode : MatchesRow.Statement .decode := by unfold MatchesRow.Statement; decide
theorem MatchesRow.encode : MatchesRow.Statement .encode := by unfold MatchesRow.Statement; decide
theorem MatchesRow.segment : MatchesRow.Statement .segment := by unfold MatchesRow.Statement; decide
theorem MatchesRow.bardec : MatchesRow.Statement .bardec := by unfold MatchesRow.Statement; decide
theorem MatchesRow.outlierRepair : MatchesRow.Statement .outlierRepair := by unfold MatchesRow.Statement; decide
theorem MatchesRow.outlierDrop : MatchesRow.Statement .outlierDrop := by unfold MatchesRow.Statement; decide
theorem MatchesRow.clockdecRepair : MatchesRow.Statement .clockdecRepair := by unfold MatchesRow.Statement; decide
theorem MatchesRow.clockdecDrop : MatchesRow.Statement .clockdecDrop := by unfold MatchesRow.Statement; decide
theorem MatchesRow.alignBuild : MatchesRow.Statement .alignBuild := by unfold MatchesRow.Statement; decide
theorem MatchesRow.alignQuery : MatchesRow.Statement .alignQuery := by unfold MatchesRow.Statement; decide
theorem MatchesRow.align : MatchesRow.Statement .align := by unfold MatchesRow.Statement; decide

end Sys2Proof.Laws
end

