-- ==== Sys2Proof/Tests/Slice0.lean ====
section
/-! SUPPORT. The model's own tests: the checks of WellFormed, the decoding of words written out bit by bit from R94,
R97 and R118, one-step tests whose results are those of spec/95_test_vectors.md, and for every statement with
hypotheses a state that meets them. -/

set_option Elab.async false

namespace Sys2Proof.Tests

open Sys2Proof.Machine

/-! ### Helpers -/

def bytes (l : List Nat) : List Byte := l.map (BitVec.ofNat 8)

def nextOf : Host.Outcome State Fault Refusal → Option State
  | .next s => some s
  | _ => none

/-- One field of the state after an instruction, if it answers a next state. -/
def after {α : Type} (i : Instr) (s : State) (f : State → α) : Option α := (nextOf (exec i s)).map f

/-- V1 -/
def frameU8 : List Byte := bytes [0x02, 0x05, 0x20, 0xff, 0x01, 0x2a, 0x51]

/-- V2, first frame -/
def frameU16 : List Byte :=
  bytes [0x03, 0x0e, 0x22, 0xff, 0x12, 0x9a, 0x16, 0x3a, 0x00, 0x64, 0x00, 0x34, 0x12, 0xfe, 0xff, 0xd5]

def tableU8 : Table :=
  { indexKind := .positional, etype := some .u8, ncols := 1, hasKind := false,
    rows := [{ ts := none, kind := none, payload := [0x2a] }] }

def tableU16 : Table :=
  { indexKind := .seconds, etype := some .u16, ncols := 2, hasKind := true,
    rows := [{ ts := some (2379296252 / 625), kind := some .event, payload := [0x1234, 0xfffe] }] }

def withBuffer (b : List Byte) : State := { State.reset with ibuf := some b }

def withTable (t : Table) : State := { State.reset with tbl := some t, encAddr := 32 }

def withAnchors (x : List Rat) (y : List Int) : State :=
  { State.reset with an := some { localTimes := x, harp := y } }

/-- V32, the value 1, at 30 samples a bit. -/
def barcodeOne : Transitions :=
  { t := [1000, 1030, 1060, 1270, 1300, 1570, 1600, 1870, 1900, 2170]
    s := [false, true, false, true, false, true, false, true, false, true] }

def withTransitions (tr : Transitions) : State :=
  { State.reset with
    trTimes := some tr.t, trStates := some tr.s, sampleRate := some 30000, baud := 1000, bcLo := 0, bcHi := tr.t.length }

/-- One run of 39 low periods between two gaps of more than half a second: the value 0. -/
def lineZero : Transitions := { t := [0, 1, 139 / 100, 3], s := [true, false, true, false] }

def withLine : State :=
  { State.reset with
    trTimes := some lineZero.t, trStates := some lineZero.s, baud := 100, outlierCount := 5, bcHi := 4 }

/-! ### WellFormed refuses -/

theorem test_wellFormed_accepts : tableU8.wellFormed = true ∧ tableU16.wellFormed = true := by decide +kernel

theorem test_wellFormed_missing_timestamp : Table.wellFormed { tableU8 with indexKind := .seconds } = false := by
  decide +kernel

theorem test_wellFormed_spurious_timestamp : Table.wellFormed { tableU16 with indexKind := .positional } = false := by
  decide +kernel

theorem test_wellFormed_missing_kind : Table.wellFormed { tableU8 with hasKind := true } = false := by decide +kernel

theorem test_wellFormed_spurious_kind : Table.wellFormed { tableU16 with hasKind := false } = false := by decide +kernel

theorem test_wellFormed_ragged : Table.wellFormed { tableU8 with ncols := 2 } = false := by decide +kernel

theorem test_wellFormed_wide_pattern : Table.wellFormed { tableU16 with etype := some .i8 } = false := by decide +kernel

theorem test_wellFormed_no_etype : Table.wellFormed { tableU8 with etype := none } = false := by decide +kernel

theorem test_wellFormed_empty_any_shape :
    Table.wellFormed { indexKind := .moment, etype := none, ncols := 9, hasKind := true, rows := [] } = true := by
  decide +kernel

theorem test_wellFormed_load : HostAction.wellFormed (.load (.tbl { tableU8 with ncols := 2 })) = false := by
  decide +kernel

theorem test_ill_typed_load_is_refused :
    (match step { State.reset with host := [.load (.tbl { tableU8 with ncols := 2 })] } with
      | .refused .illTypedLoad => true
      | _ => false) = true := by decide +kernel

/-! ### Decoding of written-out words (R97, R94, R118) -/

theorem test_decode_tagU8 : decodeTag 0b00000001 = some (.tagU8 false) ∧ decodeTag 0b00010001 = some (.tagU8 true) := by
  decide

theorem test_decode_tagU16 :
    decodeTag 0b00000010 = some (.tagU16 false) ∧ decodeTag 0b00010010 = some (.tagU16 true) := by decide

theorem test_decode_tagU32 :
    decodeTag 0b00000100 = some (.tagU32 false) ∧ decodeTag 0b00010100 = some (.tagU32 true) := by decide

theorem test_decode_tagU64 :
    decodeTag 0b00001000 = some (.tagU64 false) ∧ decodeTag 0b00011000 = some (.tagU64 true) := by decide

theorem test_decode_tagI8 : decodeTag 0b10000001 = some (.tagI8 false) ∧ decodeTag 0b10010001 = some (.tagI8 true) := by
  decide

theorem test_decode_tagI16 :
    decodeTag 0b10000010 = some (.tagI16 false) ∧ decodeTag 0b10010010 = some (.tagI16 true) := by decide

theorem test_decode_tagI32 :
    decodeTag 0b10000100 = some (.tagI32 false) ∧ decodeTag 0b10010100 = some (.tagI32 true) := by decide

theorem test_decode_tagI64 :
    decodeTag 0b10001000 = some (.tagI64 false) ∧ decodeTag 0b10011000 = some (.tagI64 true) := by decide

theorem test_decode_tagF32 :
    decodeTag 0b01000100 = some (.tagF32 false) ∧ decodeTag 0b01010100 = some (.tagF32 true) := by decide

theorem test_decode_kindNa : decodeKind 0b00000000 = some .kindNa := by decide
theorem test_decode_kindRead : decodeKind 0b00000001 = some .kindRead := by decide
theorem test_decode_kindWrite : decodeKind 0b00000010 = some .kindWrite := by decide
theorem test_decode_kindEvent : decodeKind 0b00000011 = some .kindEvent := by decide
theorem test_decode_decode : decodeCmd 0b00000001 = some .decode := by decide
theorem test_decode_encode : decodeCmd 0b00000010 = some .encode := by decide
theorem test_decode_segment : decodeCmd 0b00010000 = some .segment := by decide
theorem test_decode_bardec : decodeCmd 0b00010001 = some .bardec := by decide
theorem test_decode_outlierRepair : decodeCmd 0b00010010 = some .outlierRepair := by decide
theorem test_decode_outlierDrop : decodeCmd 0b00010011 = some .outlierDrop := by decide
theorem test_decode_clockdecRepair : decodeCmd 0b00010100 = some .clockdecRepair := by decide
theorem test_decode_clockdecDrop : decodeCmd 0b00010101 = some .clockdecDrop := by decide
theorem test_decode_alignBuild : decodeCmd 0b00100000 = some .alignBuild := by decide
theorem test_decode_alignQuery : decodeCmd 0b00100001 = some .alignQuery := by decide
theorem test_decode_align : decodeCmd 0b00100010 = some .align := by decide

/-- R98, R106, R119: unassigned bytes are no rows. -/
theorem test_decode_refuses :
    decodeTag 0x00 = none ∧ decodeTag 0x48 = none ∧ decodeTag 0xC4 = none ∧ decodeKind 0x04 = none ∧
      decodeCmd 0x00 = none ∧ decodeCmd 0x16 = none ∧ decodeCmd 0xFF = none := by decide

/-- Log 2: a byte of two places is read as the command. -/
theorem test_decodeTableWord :
    decodeTableWord 8 0x01 = some .decode ∧ decodeTableWord 8 0x54 = some (.tagF32 true) ∧
      decodeTableWord 8 0x03 = some .kindEvent ∧ decodeTableWord 8 0x40 = none ∧ decodeTableWord 16 0x01 = none := by
  decide

theorem test_withFetchWord_tag :
    (nextOf (step (State.reset.withFetchWord 8 0x94))).map (fun t => t.tbl.map fun x => (x.etype, x.indexKind)) =
      some (some (some .i32, .seconds)) := by decide +kernel

theorem test_withFetchWord_kind :
    (nextOf (step (State.reset.withFetchWord 8 0x03))).map (fun t => t.tbl.map fun x => x.rows.map Record.kind) =
      some (some [some .event]) := by decide +kernel

theorem test_withFetchWord_command :
    (nextOf (step (State.reset.withFetchWord 8 0x22))).map (fun t => t.status.code) = some 22 := by decide +kernel

/-! ### One step of each instruction -/

/-- V1 -/
theorem test_decode_plain : after .decode (withBuffer frameU8) (fun t => (t.tbl, t.hdr.fields.stride)) =
    some (some tableU8, 7) := by decide +kernel

/-- V8: `BAD_KIND(none, 8)` -/
theorem test_decode_badKind :
    after .decode { withBuffer (bytes [0x08, 0x05, 0x20, 0xff, 0x01, 0x2a, 0x57]) with keepKind := true }
      (fun t => (t.status.code, t.status.exp, t.status.act)) = some (7, none, some (.int 8)) := by decide +kernel

/-- V4's payload bytes under tag 0x82; V8's stride fault under tag 0x11. -/
theorem test_tagI16 :
    after (.tagI16 false) (withBuffer (bytes [0x03, 0x0a, 0x28, 0xff, 0x00, 0xfe, 0xff, 0x03, 0, 0, 0x80, 0x36]))
      (fun t => t.tbl.map fun x => x.rows.map Record.payload) = some (some [[0xfffe, 3, 0x8000]]) := by decide +kernel

theorem test_tagI8 :
    after (.tagI8 false) (withBuffer frameU8) (fun t => t.tbl.map Table.etype) = some (some (some .i8)) := by
  decide +kernel

theorem test_tagI32 :
    after (.tagI32 false) (withBuffer frameU8) (fun t => t.tbl.map Table.ncols) = some (some 0) := by decide +kernel

theorem test_tagI64 :
    after (.tagI64 false) (withBuffer frameU8) (fun t => t.hdr.fields.tag) = some 0x88 := by decide +kernel

theorem test_tagU8_strideTooSmall :
    after (.tagU8 true) (withBuffer (bytes [0x03, 0x04, 0x20, 0xff, 0x00, 0x37]))
      (fun t => (t.status.code, t.status.exp, t.status.act)) = some (6, some (.int 12), some (.int 6)) := by
  decide +kernel

/-- V2's first frame with its tag byte overwritten and put back: seconds 3806874, ticks 100. -/
theorem test_tagU16 :
    after (.tagU16 true) (withBuffer (frameU16.set 4 0)) (fun t => t.tbl.map fun x => x.rows.map Record.ts) =
      some (some [some (2379296252 / 625)]) := by decide +kernel

/-- V9: `psize` 3 under U32 leaves no element. -/
theorem test_tagU32 :
    after (.tagU32 false) (withBuffer (bytes [0x03, 0x07, 0x20, 0xff, 0x00, 0x01, 0x02, 0x03, 0x30]))
      (fun t => t.tbl.map Table.ncols) = some (some 0) := by decide +kernel

/-- V5 -/
theorem test_tagU64 :
    after (.tagU64 true)
      (withBuffer (bytes [3, 0x12, 1, 0xff, 0, 0, 0, 0, 0, 0, 0, 8, 7, 6, 5, 4, 3, 2, 1, 0x51]))
      (fun t => t.tbl.map fun x => x.rows.map Record.payload) = some (some [[0x0102030405060708]]) := by decide +kernel

/-- V3: the pattern of a float is carried. -/
theorem test_tagF32 :
    after (.tagF32 true)
      (withBuffer (bytes [1, 0x0e, 0x2c, 0xff, 0, 1, 0, 0, 0, 9, 0x3d, 0, 0, 0xc0, 0x3f, 0xd4]))
      (fun t => t.tbl.map fun x => x.rows.map Record.payload) = some (some [[0x3fc00000]]) := by decide +kernel

theorem test_kindNa :
    after .kindNa { withBuffer frameU8 with keepKind := true } (fun t => t.tbl.map fun x => x.rows.map Record.kind) =
      some (some [some .na]) := by decide +kernel

theorem test_kindRead :
    after .kindRead { withBuffer frameU8 with keepKind := true } (fun t => t.tbl.map fun x => x.rows.map Record.kind) =
      some (some [some .read]) := by decide +kernel

/-- V1 with `KEEP_KIND = 1` -/
theorem test_kindWrite :
    after .kindWrite { withBuffer frameU8 with keepKind := true } (fun t => t.tbl.map fun x => x.rows.map Record.kind) =
      some (some [some .write]) := by decide +kernel

/-- R139: without `KEEP_KIND` byte 0 is not read. -/
theorem test_kindEvent :
    after .kindEvent (withBuffer frameU8) (fun t => t.tbl.map fun x => x.rows.map Record.kind) = some (some [none]) := by
  decide +kernel

/-- V13 -/
theorem test_encode_plain :
    after .encode { withTable tableU8 with encKind := some .write } (fun t => t.obuf) = some (some frameU8) := by
  decide +kernel

/-- V22, last row: ticks 31250, no carry. -/
theorem test_encode_ticks :
    after .encode
      { withTable { tableU8 with indexKind := .seconds, ncols := 0,
                                 rows := [{ ts := some (499999 / 62500), kind := none, payload := [] }] } with
        encAddr := 1, encKind := some .event }
      (fun t => t.obuf) = some (some (bytes [3, 0x0a, 1, 0xff, 0x11, 7, 0, 0, 0, 0x12, 0x7a, 0xb1])) := by decide +kernel

/-- V31 -/
theorem test_segment :
    after .segment
      { withTransitions { t := [0, 10, 11, 12, 30, 31, 50], s := [] } with minDelta := 5 } (fun t => t.edg) =
      some (some [(1, 4), (4, 6)]) := by decide +kernel

/-- V31: exceeding is strict. -/
theorem test_segment_strict :
    after .segment
      { withTransitions { t := [0, 10, 11, 12, 30, 31, 50], s := [] } with minDelta := 10 } (fun t => t.edg) =
      some (some [(4, 6)]) := by decide +kernel

/-- V32 -/
theorem test_bardec : after .bardec (withTransitions barcodeOne) (fun t => t.bcVal) = some (some 1) := by decide +kernel

/-- V33: `NON_ASCENDING(none, 1)` -/
theorem test_bardec_nonAscending :
    after .bardec (withTransitions { t := [0, 60, 20, 400], s := [false, true, false, true] })
      (fun t => (t.status.code, t.status.act, t.bcVal)) = some (18, some (.int 1), none) := by decide +kernel

/-- V38 -/
theorem test_outlierRepair :
    after .outlierRepair (withAnchors [0, 10, 20, 30] [100, 200, 201, 202])
      (fun t => (t.an.map Anchors.harp, t.outlierCount, t.status.warn)) = some (some [100, 101, 102, 103], 3, true) := by
  decide +kernel

/-- V37, row 7 -/
theorem test_outlierDrop :
    after .outlierDrop (withAnchors [0, 10, 20, 30, 40] [100, 101, 150, 103, 104]) (fun t => (t.an, t.outlierCount)) =
      some (some { localTimes := [0, 10, 30, 40], harp := [100, 101, 103, 104] }, 1) := by decide +kernel

/-- R204, R205: half a second; the range's value; the count written even when 0. -/
theorem test_clockdecRepair :
    after .clockdecRepair withLine (fun t => (t.edg, t.an, t.outlierCount)) =
      some (some [(1, 3)], some { localTimes := [1], harp := [0] }, 0) := by decide +kernel

/-- R202, R206: one anchor is a run of length 1. -/
theorem test_clockdecDrop :
    after .clockdecDrop withLine (fun t => (t.edg, t.an, t.outlierCount, t.status.warn)) =
      some (some [(1, 3)], some { localTimes := [], harp := [] }, 1, true) := by decide +kernel

/-- V41 -/
theorem test_alignBuild :
    after .alignBuild (withAnchors [10, 20, 40] [100, 101, 102]) (fun t => t.pm) =
      some (some { global := { x := 10, slope := 9 / 140, offset := 199 / 2 },
                   locals := [{ x := 20, slope := 1 / 10, offset := 99 }, { x := 40, slope := 1 / 20, offset := 100 }] }) := by
  decide +kernel

/-- V44, with the map of V41: beyond the last anchor the global fit. -/
theorem test_alignQuery_wraps :
    after .alignQuery
      { State.reset with
        pm := some { global := { x := 10, slope := 9 / 140, offset := 199 / 2 },
                     locals := [{ x := 20, slope := 1 / 10, offset := 99 }, { x := 40, slope := 1 / 20, offset := 100 }] }
        qt := some [20, 30, 40, 41, 50] }
      (fun t => t.qa) = some (some [101, 203 / 2, 102, 14299 / 140, 719 / 7]) := by decide +kernel

/-- V43 -/
theorem test_align :
    after .align { withAnchors [0, 1] [5, 6] with qt := some [-1, 0, 1 / 2, 1, 2] } (fun t => t.qa) =
      some (some [4, 5, 11 / 2, 6, 7]) := by decide +kernel

/-- V47 -/
theorem test_illegal_command :
    (nextOf (step { State.reset with host := [.cmd 0x03] })).map (fun t => (t.status.code, t.status.act, t.status.sticky)) =
      some (23, some (.int 3), true) := by decide +kernel

/-- R121: the actions of `encode(...)`, run from reset, leave V13's bytes. -/
theorem test_callEncode_reads :
    ((callEncode tableU8 32 none none none (some .write)).getLast?, hostRead .obuf { State.reset with obuf := some frameU8 }) =
      (some (.read .obuf), .bytes true frameU8) := by decide +kernel

/-! ### Witnesses: for each statement with hypotheses, operands that meet all of them -/

/-- An instruction answers a next state with this status code. -/
abbrev EndsWith (i : Instr) (s : State) (code : Byte) : Prop := ∃ t, exec i s = .next t ∧ t.status.code = code

theorem witness_DecodeAndEncodeAgree : Instr.wellFormed (.tagF32 true) = true := rfl

def commanded (v : Byte) (s : State) : State := { s with host := [.cmd v, .read .status] }

theorem witness_StepRunsTheCommand :
    (commanded 0x22 State.reset).host = .cmd 0x22 :: [.read .status] ∧ decodeCmd 0x22 = some .align := ⟨rfl, by decide⟩

/-- Both clauses, at the shortest buffer of each. -/
theorem witness_StepRunsTheFrameRows :
    (5 ≤ (frameU8.take 5).length ∧ decodeTag (byteAt (frameU8.take 5) 4) = some (.tagU8 false)) ∧
      1 ≤ (frameU8.take 1).length ∧ decodeKind (byteAt (frameU8.take 1) 0) = some .kindWrite ∧
        (commanded 0x01 (withBuffer (frameU8.take 1))).host = .cmd 0x01 :: [.read .status] ∧
          (commanded 0x01 (withBuffer (frameU8.take 1))).ibuf = some (frameU8.take 1) := by decide +kernel

theorem witness_IllegalCommandChangesOnlyStatus :
    (commanded 0x23 State.reset).host = .cmd 0x23 :: [.read .status] ∧ decodeCmd 0x23 = none := ⟨rfl, by decide⟩

theorem witness_ResetEventRestoresReset :
    ({ withBuffer frameU8 with host := [.reset] } : State).host = .reset :: [] := rfl

theorem witness_InertHostActions :
    (withBuffer frameU8).host = [] ∧
      ({ State.reset with host := [.setReadOnly .bcVal] } : State).host = .setReadOnly .bcVal :: [] ∧
        ({ State.reset with host := [.read .cmd] } : State).host = .read .cmd :: [] := ⟨rfl, rfl, rfl⟩

theorem witness_HostLoadsAMemory :
    ({ State.reset with host := [.load (.tbl tableU16)] } : State).host = .load (.tbl tableU16) :: [] ∧
      tableU16.wellFormed = true ∧
        ({ State.reset with host := [.load (.tbl { tableU8 with ncols := 2 })] } : State).host =
            .load (.tbl { tableU8 with ncols := 2 }) :: [] ∧
          Table.wellFormed { tableU8 with ncols := 2 } = false := by decide +kernel

theorem witness_HostLoadsAMemory_untyped :
    ({ State.reset with host := [.load (.ibuf [])] } : State).host = .load (.ibuf []) :: [] ∧
      ({ State.reset with host := [.load (.tr lineZero)] } : State).host = .load (.tr lineZero) :: [] ∧
        ({ State.reset with host := [.load (.an ⟨[1], []⟩)] } : State).host = .load (.an ⟨[1], []⟩) :: [] ∧
          ({ State.reset with host := [.load (.qt [2])] } : State).host = .load (.qt [2]) :: [] ∧
            ({ State.reset with host := [.load (.trTimes [2])] } : State).host = .load (.trTimes [2]) :: [] ∧
              ({ State.reset with host := [.load (.trStates [true])] } : State).host = .load (.trStates [true]) :: [] :=
  ⟨rfl, rfl, rfl, rfl, rfl, rfl⟩

/-- R34: from reset and from a valid `TR`, in both orders; after the first load from reset `TR` is not valid yet. -/
theorem witness_TransitionsLoadSeparately :
    ({ withLine with host := [.load (.trTimes [0, 1]), .load (.trStates [])] } : State).host =
        .load (.trTimes [0, 1]) :: .load (.trStates []) :: [] ∧
      ({ State.reset with host := [.load (.trStates [true]), .load (.trTimes [0])] } : State).host =
          .load (.trStates [true]) :: .load (.trTimes [0]) :: [] ∧
        withLine.tr = some lineZero ∧ (loadMem (.trTimes [0]) State.reset).tr = none ∧
          (loadMem (.trStates [true]) (loadMem (.trTimes [0]) State.reset)).tr = some { t := [0], s := [true] } :=
  ⟨rfl, rfl, rfl, rfl, rfl⟩

theorem witness_HostWritesARegister :
    ({ State.reset with host := [.set (.baud 1000)] } : State).host = .set (.baud 1000) :: [] := rfl

theorem witness_StepKeepsSound :
    Sound (commanded 0x01 (withBuffer frameU8)) ∧
      step (commanded 0x01 (withBuffer frameU8)) =
        .next (decodeFrom (some frameU8) (popAction [.read .status] (commanded 0x01 (withBuffer frameU8)))) := by
  refine ⟨⟨by unfold StatusSound; decide +kernel, ?_, ?_, ?_, ?_⟩, rfl⟩
  · intro h; exact absurd h (by decide)
  · intro t h; exact absurd h (by simp [commanded, withBuffer, State.reset])
  · intro r h; exact absurd h (by simp [commanded, withBuffer, State.reset])
  · intro m h; exact absurd h (by simp [commanded, withBuffer, State.reset])

theorem witness_StepAlwaysAnswers :
    TableSound (commanded 0x02 (withTable tableU8)) ∧
      ∀ a ∈ (commanded 0x02 (withTable tableU8)).host, a.wellFormed = true := by
  refine ⟨fun t h => ?_, by decide +kernel⟩
  simp only [commanded, withTable, Option.some.injEq] at h
  subst h
  decide +kernel

theorem witness_CommandsChangeOnlyTheirRow : EndsWith .clockdecDrop withLine 0 ∧ EndsWith .decode State.reset 22 :=
  ⟨⟨_, rfl, by decide +kernel⟩, _, rfl, by decide +kernel⟩

theorem witness_ResultsDependOnlyOnReads :
    SameReads .decode (withBuffer frameU8) { withBuffer frameU8 with outlierCount := 5, baud := 3 } ∧
      EndsWith .decode (withBuffer frameU8) 0 ∧
        EndsWith .decode { withBuffer frameU8 with outlierCount := 5, baud := 3 } 0 ∧
          SameReads .outlierDrop (withAnchors [1] [1]) { withAnchors [1] [1] with outlierCount := 9 } ∧
            correctsOutliers .outlierDrop = true ∧ EndsWith .outlierDrop (withAnchors [1] [1]) 0 :=
  ⟨⟨rfl, rfl, rfl, rfl, rfl, rfl, rfl⟩, ⟨_, rfl, by decide +kernel⟩, ⟨_, rfl, by decide +kernel⟩, rfl, rfl, _, rfl,
    by decide +kernel⟩

theorem witness_FaultLeavesNoResult : EndsWith .align State.reset 22 ∧ (22 : Byte) ≠ 0 :=
  ⟨⟨_, rfl, by decide +kernel⟩, by decide⟩

theorem witness_CompletionReportsOk : EndsWith .decode (withBuffer []) 0 ∧ EndsWith .decode (withBuffer frameU8) 0 :=
  ⟨⟨_, rfl, by decide +kernel⟩, _, rfl, by decide +kernel⟩

theorem witness_InvalidOperandFaultsFirst :
    ¬ OperandsValid .alignQuery { State.reset with pm := some ⟨⟨0, 0, 0⟩, []⟩ } := by
  simp [OperandsValid, State.reset]

/-- The four clauses: a faulting command, a step that sets the bit, one that keeps it, the reset event. -/
theorem witness_StickyStaysUntilReset :
    EndsWith .encode State.reset 22 ∧
      (∃ t, step (commanded 0x03 State.reset) = .next t ∧ State.reset.status.sticky = false ∧ t.status.sticky = true) ∧
        (∃ s t, step s = .next t ∧ s.status.sticky = true ∧ s.host.head? ≠ some .reset) ∧
          ∃ s t, step s = .next t ∧ s.host.head? = some .reset :=
  ⟨⟨_, rfl, by decide +kernel⟩, ⟨_, rfl, rfl, by decide +kernel⟩,
    ⟨commanded 0x01 (illegalCommand 3 State.reset), _, rfl, rfl, by decide +kernel⟩,
    { State.reset with host := [.reset] }, _, rfl, rfl⟩

theorem witness_ReissuedFaultRepeats :
    Instr.clockdecRepair ≠ .outlierRepair ∧ Instr.clockdecRepair ≠ .outlierDrop ∧
      EndsWith .clockdecRepair { withLine with baud := 0 } 16 :=
  ⟨by decide, by decide, _, rfl, by decide +kernel⟩

theorem witness_DecodeOfEmptyBuffer : ({ withBuffer [] with epoch := some 7 } : State).ibuf = some [] := rfl

/-- Every expectation supplied and true, kinds kept. -/
def expecting : State :=
  { withBuffer frameU16 with
    expAddr := some 0x22, expType := some .u16, expLen := some 2, ncols := some 2, keepKind := true, epoch := some 1 }

theorem witness_DecodeFillsTheTable : expecting.ibuf = some frameU16 ∧ DecodeAccepts expecting frameU16 .u16 := by
  unfold DecodeAccepts Admits; decide +kernel

/-- The least strides of both formats: 6 and 12. -/
theorem witness_DecodeFillsTheTable_least :
    DecodeAccepts State.reset (bytes [3, 4, 0x20, 0xff, 1, 0x27]) .u8 ∧
      DecodeAccepts State.reset (bytes [3, 10, 0x20, 0xff, 0x11]) .u8 := by
  unfold DecodeAccepts Admits; decide +kernel

theorem witness_DecodeFaults_truncated : bytes [3, 4, 5, 6] ≠ [] ∧ (bytes [3, 4, 5, 6]).length < 5 := by decide +kernel

theorem witness_DecodeFaults_address :
    frameU16 ≠ [] ∧ 5 ≤ (frameU16.take 5).length ∧ { expecting with expAddr := some 35 }.expAddr = some 35 ∧
      (35 : Byte) ≠ byteAt frameU16 2 := by decide +kernel

theorem witness_DecodeFaults_unknownType :
    Admits State.reset.expAddr (byteAt (bytes [3, 4, 0x20, 0xff, 3, 0x27]) 2) ∧
      typeOf (byteAt (bytes [3, 4, 0x20, 0xff, 3, 0x27]) 4) = none := by
  unfold Admits; decide +kernel

theorem witness_DecodeFaults_type :
    Admits expecting.expAddr (byteAt frameU16 2) ∧ typeOf (byteAt frameU16 4) = some .u16 ∧
      ({ expecting with expType := some .i16 } : State).expType = some .i16 ∧ EType.i16 ≠ .u16 := by
  unfold Admits; decide +kernel

/-- Strides 5 and 11, one below the least of each format. -/
theorem witness_DecodeFaults_stride :
    bufferStride (bytes [3, 3, 0x20, 0xff, 1]) < 5 + 1 ∧ timestampFlag (byteAt (bytes [3, 3, 0x20, 0xff, 1]) 4) = false ∧
      bufferStride (bytes [3, 9, 0x20, 0xff, 0x11]) < 11 + 1 ∧
        timestampFlag (byteAt (bytes [3, 9, 0x20, 0xff, 0x11]) 4) = true ∧ Admits State.reset.expType EType.u8 := by
  unfold Admits; decide +kernel

theorem witness_DecodeFaults_counts :
    (if timestampFlag (byteAt frameU16 4) then 12 else 6) ≤ bufferStride frameU16 ∧
      elementCount (bufferStride frameU16) (byteAt frameU16 4) .u16 = 2 ∧
        ({ expecting with expLen := some 3 } : State).expLen = some 3 ∧ 3 ≠ 2 ∧
          Admits expecting.expLen 2 ∧ ({ expecting with ncols := some 1 } : State).ncols = some 1 ∧ 1 ≠ 2 := by
  unfold Admits; decide +kernel

/-- Row 0 of kind 3, row 1 of kind 4. -/
theorem witness_DecodeFaults_kind :
    Admits State.reset.ncols 1 ∧ 1 < (bytes [3, 5, 0, 0, 1, 9, 0, 4, 5, 0, 0, 1, 9, 0]).length / 7 ∧
      3 < (byteAt (bytes [3, 5, 0, 0, 1, 9, 0, 4, 5, 0, 0, 1, 9, 0]) (1 * 7)).toNat ∧
        ∀ q < 1, (byteAt (bytes [3, 5, 0, 0, 1, 9, 0, 4, 5, 0, 0, 1, 9, 0]) (q * 7)).toNat ≤ 3 := by
  unfold Admits; decide +kernel

/-- Another checksum, another trailing byte. -/
theorem witness_DecodeIgnoresChecksumsAndTrailingBytes :
    (withBuffer (frameU8 ++ [1])).ibuf = some (frameU8 ++ [1]) ∧
      (frameU8 ++ [1]).length = (frameU8.set 6 0 ++ [2]).length ∧
        (∀ p < 5, byteAt (frameU8 ++ [1]) p = byteAt (frameU8.set 6 0 ++ [2]) p) ∧
          (∀ p < 7, p % 7 ≠ 6 → byteAt (frameU8 ++ [1]) p = byteAt (frameU8.set 6 0 ++ [2]) p) ∧
            bufferStride (frameU8 ++ [1]) = 7 ∧ EndsWith .decode (withBuffer (frameU8 ++ [1])) 0 :=
  ⟨rfl, rfl, by decide +kernel, by decide +kernel, by decide +kernel, _, rfl, by decide +kernel⟩

theorem witness_DecodeTwiceIsDecodeOnce : EndsWith .decode expecting 0 := ⟨_, rfl, by decide +kernel⟩

theorem witness_TagRowsSelectTheType :
    DecodeAccepts (withBuffer frameU8) (frameU8.set 4 (tagByte .i8 false)) .i8 ∧
      DecodeAccepts (withBuffer frameU16) (frameU16.set 4 (tagByte .f32 true)) .f32 := by
  unfold DecodeAccepts Admits; decide +kernel

theorem witness_KindRowsSelectTheKind :
    DecodeAccepts (withBuffer frameU8) (frameU8.set 0 (kindCode .na)) .u8 ∧
      DecodeAccepts expecting (frameU16.set 0 (kindCode .event)) .u16 := by
  unfold DecodeAccepts Admits; decide +kernel

/-- Accepted headers at the least strides: no element (6 and 12 bytes), and frames with elements, one timestamped. -/
theorem witness_DecodeAddressesAreInBounds :
    (parseHeader State.reset.decodeOperands [0, 4, 0, 0, 0x01, 5]).toOption.map
        (fun l => (l.rows, l.timestamped, l.count)) = some (1, false, 0) ∧
      (parseHeader State.reset.decodeOperands [0, 10, 0, 0, 0x14, 0, 0, 0, 0, 0, 0, 30]).toOption.map
          (fun l => (l.rows, l.timestamped, l.count)) = some (1, true, 0) ∧
        (parseHeader State.reset.decodeOperands frameU8).toOption.map
            (fun l => (l.rows, l.timestamped, l.count)) = some (1, false, 1) ∧
          (parseHeader State.reset.decodeOperands frameU16).toOption.map
              (fun l => (l.rows, l.timestamped, l.count)) = some (1, true, 2) := by decide +kernel

theorem witness_EncodeOfEmptyTable : (withTable { tableU16 with rows := [] }).tbl = some { tableU16 with rows := [] } ∧
    ({ tableU16 with rows := [] } : Table).rows = [] := ⟨rfl, rfl⟩

/-- A table of seconds with the kind column: the first and the last second that fit. -/
def tableEdges : Table :=
  { indexKind := .seconds, etype := some .u8, ncols := 0, hasKind := true,
    rows := [{ ts := some 0, kind := some .na, payload := [] },
             { ts := some (4294967295 + 31249 / 31250), kind := some .event, payload := [] }] }

theorem witness_EncodeWritesTheFrames : EncodeAccepts (withTable tableEdges) tableEdges .u8 := by
  unfold EncodeAccepts EpochFits CoercionFits; decide +kernel

/-- The longest frame: 251 bytes of payload, stride 257. -/
theorem witness_EncodeWritesTheFrames_longest :
    EncodeAccepts { State.reset with encKind := some .read }
      { tableU8 with ncols := 251, rows := [{ ts := none, kind := none, payload := List.replicate 251 255 }] } .u8 := by
  unfold EncodeAccepts EpochFits CoercionFits; decide +kernel

/-- Moments with `EPOCH`, and a coercion that fits. -/
theorem witness_EncodeWritesTheFrames_moment :
    EncodeAccepts { State.reset with epoch := some 5, encKind := some .read, encDtype := some .i8 }
      { indexKind := .moment, etype := some .i16, ncols := 2, hasKind := false,
        rows := [{ ts := some 5, kind := none, payload := [0xff80, 0x7f] }] } .i16 := by
  unfold EncodeAccepts EpochFits CoercionFits; decide +kernel

theorem witness_EncodeFaults_kinds :
    (tableU16.wellFormed = true ∧ tableU16.rows ≠ [] ∧ tableU16.etype = some .u16 ∧ tableU16.hasKind = true ∧
        ({ withTable tableU16 with encKind := some .na } : State).encKind.isSome = true) ∧
      tableU8.wellFormed = true ∧ tableU8.rows ≠ [] ∧ tableU8.etype = some .u8 ∧ tableU8.hasKind = false ∧
        (withTable tableU8).encKind = none := by decide +kernel

theorem witness_EncodeFaults_epoch :
    ((withTable tableU16).encKind.isSome = !tableU16.hasKind ∧
        ({ withTable tableU16 with epoch := some 0 } : State).epoch.isSome = true ∧ tableU16.indexKind ≠ .moment) ∧
      Table.wellFormed { tableU16 with indexKind := .moment } = true ∧ (withTable tableU16).epoch = none := by
  decide +kernel

/-- I16 value -2 to U16: out of range; F32 never. -/
theorem witness_EncodeFaults_coercion :
    EpochFits none IndexKind.positional ∧
      ¬ CoercionFits .i16 .u16 [{ ts := none, kind := none, payload := [0xfffe] }] ∧
        ¬ CoercionFits .i16 .f32 [{ ts := none, kind := none, payload := [0] }] ∧
          CoercionFits .i16 .i8 [{ ts := none, kind := none, payload := [0xfffe] }] := by
  unfold EpochFits CoercionFits; decide +kernel

/-- Stride 258. -/
theorem witness_EncodeFaults_frame :
    257 < tableStride { tableU8 with ncols := 252 } .u8 ∧
      Table.wellFormed
          { tableU8 with ncols := 252, rows := [{ ts := none, kind := none, payload := List.replicate 252 1 }] } = true := by
  decide +kernel

/-- Row 0 is the last second that fits, row 1 the first that does not; and a second below 0. -/
theorem witness_EncodeFaults_time :
    stampedBy IndexKind.seconds = true ∧
      4294967296 ≤ (rowTime State.reset { ts := some 4294967296, kind := none, payload := [] }).floor ∧
        (rowTime State.reset { ts := some 4294967295, kind := none, payload := [] }).floor < 4294967296 ∧
          (rowTime State.reset { ts := some (-1 / 2), kind := none, payload := [] }).floor < 0 := by decide +kernel

theorem witness_EncodeStopsOnMalformedTable :
    (withTable { tableU8 with ncols := 2 }).tbl = some { tableU8 with ncols := 2 } ∧
      Table.wellFormed { tableU8 with ncols := 2 } = false := by decide +kernel

/-- The least value of I8 in I16. -/
theorem witness_CoercionKeepsValues :
    EType.i16 ≠ .f32 ∧ EType.i8 ≠ .f32 ∧ 0xff80 < 256 ^ EType.i16.size ∧ leastOf .i8 ≤ valueOf .i16 0xff80 ∧
      valueOf .i16 0xff80 ≤ greatestOf .i8 := by decide +kernel

theorem witness_BufferRoundTrip :
    expecting.ibuf = some frameU16 ∧ bufferWellFormed frameU16 = true ∧ expecting.keepKind = true ∧
      ({ expecting with ncols := none } : State).ncols = none ∧ timestampFlag (byteAt frameU16 4) = true ∧
        Admits expecting.expAddr (byteAt frameU16 2) ∧ typeOf (byteAt frameU16 4) = some .u16 ∧
          Admits expecting.expType EType.u16 ∧
            Admits expecting.expLen (elementCount (bufferStride frameU16) (byteAt frameU16 4) .u16) := by
  unfold Admits; decide +kernel

theorem witness_BufferRoundTrip_plain :
    bufferWellFormed frameU8 = true ∧ bufferWellFormed [] = true ∧ (withBuffer frameU8).epoch = none := by decide +kernel

theorem witness_BufferRoundTripForAnyEpoch :
    ({ withBuffer frameU8 with keepKind := true, epoch := some 0 } : State).ibuf = some frameU8 ∧
      bufferWellFormed frameU8 = true := by decide +kernel

theorem witness_TableRoundTrip :
    EndsWith .encode (withTable tableU16) 0 ∧ (withTable tableU16).tbl = some tableU16 ∧ tableU16.rows ≠ [] ∧
      tableU16.etype = some .u16 ∧ ({ withTable tableU16 with keepKind := true } : State).keepKind = tableU16.hasKind :=
  ⟨⟨encodeFrom (withTable tableU16), by
      have h : tableSound (withTable tableU16) = true := by decide +kernel
      simp [exec, execEncode, h], by decide +kernel⟩, rfl, by decide, rfl, rfl⟩

theorem witness_SegmentFindsTheRunsBetweenGaps : withLine.tr = some lineZero := rfl

theorem ratesPositive_of_some (s : State) (sr : Rat) (h : s.sampleRate = some sr) (hb : 0 < s.baud) (hs : 0 < sr) :
    RatesPositive s := by
  refine ⟨hb, fun r hr => ?_⟩
  rw [h, Option.some.injEq] at hr
  exact hr ▸ hs

theorem ratesPositive_of_none (s : State) (h : s.sampleRate = none) (hb : 0 < s.baud) : RatesPositive s :=
  ⟨hb, fun r hr => by rw [h] at hr; cases hr⟩

/-- A whole capture of one barcode: 39 levels, the least that decodes. -/
theorem witness_BardecWeighsTheLevels :
    (withTransitions barcodeOne).tr = some barcodeOne ∧ barcodeOne.t.length = barcodeOne.s.length ∧
      RatesPositive (withTransitions barcodeOne) ∧
        slice barcodeOne.t 0 10 = barcodeOne.t ∧ slice barcodeOne.s 0 10 = barcodeOne.s ∧
          (∀ i < 9, 0 ≤ periodsAt (withTransitions barcodeOne) barcodeOne.t i) ∧
            (levelVector (withTransitions barcodeOne) barcodeOne.t barcodeOne.s).length = 39 :=
  ⟨rfl, rfl, ratesPositive_of_some _ 30000 rfl (by decide +kernel) (by decide +kernel), by decide +kernel,
    by decide +kernel, by decide +kernel, by decide +kernel⟩

theorem witness_BardecFaults_operands :
    ({ barcodeOne with s := [] } : Transitions).t.length ≠ ({ barcodeOne with s := [] } : Transitions).s.length ∧
      ({ withTransitions barcodeOne with bcLo := 10, bcHi := 9 } : State).bcHi <
          ({ withTransitions barcodeOne with bcLo := 10, bcHi := 9 } : State).bcLo ∧
        barcodeOne.t.length < ({ withTransitions barcodeOne with bcHi := 11 } : State).bcHi ∧
          ¬ RatesPositive { withTransitions barcodeOne with baud := 0 } :=
  ⟨by decide, by decide, by decide, fun h => absurd h.1 (by decide +kernel)⟩

/-- V33: interval 1 negative, interval 0 not. V32, `0x80000001`: 38 levels, one too few. -/
theorem witness_BardecFaults_barcode :
    periodsAt (withTransitions barcodeOne) [0, 60, 20, 400] 1 < 0 ∧
      (∀ j < 1, 0 ≤ periodsAt (withTransitions barcodeOne) [0, 60, 20, 400] j) ∧
        (levelVector (withTransitions barcodeOne) [0, 30, 60, 270, 300, 570, 600, 870, 900, 1140]
              [false, true, false, true, false, true, false, true, false, true]).length < 39 ∧
          ∀ i < 9, 0 ≤ periodsAt (withTransitions barcodeOne) [0, 30, 60, 270, 300, 570, 600, 870, 900, 1140] i := by
  decide +kernel

/-- The barcode of `v` between one transition before and one after, at 30 samples a bit. -/
def capture (v : Nat) : State :=
  { State.reset with
    sampleRate := some 30000, baud := 1000, bcLo := 1, bcHi := 1 + (barcodeTransitions v 2 1000).t.length
    trTimes := some ([7] ++ (barcodeTransitions v 2 1000).t.map (· * 30000) ++ [9])
    trStates := some ([true] ++ (barcodeTransitions v 2 1000).s ++ [false]) }

/-- The greatest value that decodes and the least that does not. -/
theorem witness_BardecReadsBackABarcode (v : Nat) (h : v = 2147483647 ∨ v = 2147483648) :
    RatesPositive (capture v) ∧ v < 4294967296 ∧ ([7] : List Rat).length = [true].length ∧
      (capture v).tr = some
        { t := [7] ++ (barcodeTransitions v 2 (capture v).baud).t.map (· * unitsPerSecond (capture v)) ++ [9]
          s := [true] ++ (barcodeTransitions v 2 (capture v).baud).s ++ [false] } ∧
        (capture v).bcLo = ([7] : List Rat).length ∧
          (capture v).bcHi = ([7] : List Rat).length + (barcodeTransitions v 2 (capture v).baud).t.length :=
  ⟨ratesPositive_of_some _ 30000 rfl (by show (0 : Rat) < 1000; decide +kernel) (by decide +kernel), by omega, rfl, rfl,
    rfl, rfl⟩

theorem witness_OutlierCorrection :
    (withAnchors [0, 10] [5, 9]).an = some ⟨[0, 10], [5, 9]⟩ ∧ ([0, 10] : List Rat).length = ([5, 9] : List Int).length ∧
      EndsWith .outlierRepair (withAnchors [0, 10] [5, 9]) 0 ∧ EndsWith .outlierDrop (withAnchors [0, 10] [5, 9]) 0 :=
  ⟨rfl, rfl, ⟨_, rfl, by decide +kernel⟩, _, rfl, by decide +kernel⟩

theorem witness_OutlierArrayLengthFault :
    (withAnchors [0] [5, 9]).an = some ⟨[0], [5, 9]⟩ ∧ ([0] : List Rat).length ≠ ([5, 9] : List Int).length :=
  ⟨rfl, by decide⟩

theorem gapAt_lineZero (i : Nat) : GapAt lineZero.t (1 / 2) i ↔ i = 0 ∨ i = 2 := by
  constructor
  · rintro ⟨h, hg⟩
    have h3 : i + 1 < 4 := h
    have : i < 3 := by omega
    interval_cases i
    · exact .inl rfl
    · exact absurd hg (by decide +kernel)
    · exact .inr rfl
  · rintro (rfl | rfl) <;> exact ⟨by decide, by decide +kernel⟩

theorem runsBetweenGaps_lineZero : RunsBetweenGaps lineZero.t (1 / 2) [(1, 3)] := by
  refine ⟨by simp, fun a b => ?_⟩
  simp only [List.mem_singleton, Prod.mk.injEq, gapAt_lineZero]
  constructor
  · rintro ⟨rfl, rfl⟩
    exact ⟨by omega, by omega, .inl rfl, .inr rfl, fun i h1 h2 => by omega⟩
  · rintro ⟨h1, h2, h3, h4, h5⟩
    have := h5 2
    omega

/-- The one range holds 39 levels, the least that decodes; `i` is either command. -/
theorem witness_ClockdecIsTheChain :
    withLine.tr = some lineZero ∧ lineZero.t.length = lineZero.s.length ∧ RatesPositive withLine ∧
      RunsBetweenGaps lineZero.t (unitsPerSecond withLine / 2) [(1, 3)] ∧
        BarcodeReadable withLine (slice lineZero.t 1 3) (slice lineZero.s 1 3) :=
  ⟨rfl, rfl, ratesPositive_of_none _ rfl (by decide +kernel),
    by rw [show unitsPerSecond withLine / 2 = 1 / 2 by decide +kernel]; exact runsBetweenGaps_lineZero,
    fun i h => by
      have : i = 0 := by have : (slice lineZero.t 1 3).length = 2 := rfl
                         omega
      subst this
      decide +kernel,
    by decide +kernel⟩

/-- Unequal arrays; a rate of 0; at 97 bits a second the one range, at index 0, is a level short of 39. -/
theorem witness_ClockdecFaultsInOrder :
    ({ lineZero with s := [] } : Transitions).t.length ≠ ({ lineZero with s := [] } : Transitions).s.length ∧
      ¬ RatesPositive { withLine with baud := 0 } ∧
        RunsBetweenGaps lineZero.t (unitsPerSecond { withLine with baud := 97 } / 2) [(1, 3)] ∧
          [((1, 3) : Nat × Nat)][0]? = some (1, 3) ∧
            EndsWith .bardec { withLine with baud := 97, bcLo := 1, bcHi := 3 } 19 :=
  ⟨by decide, fun h => absurd h.1 (by decide +kernel),
    by rw [show unitsPerSecond { withLine with baud := 97 } / 2 = 1 / 2 by decide +kernel]
       exact runsBetweenGaps_lineZero,
    rfl, _, rfl, by decide +kernel⟩

theorem witness_AnchorsFit : AnchorsFit ⟨[10, 20], [100, 101]⟩ ∧ AnchorsFit ⟨[10, 20, 40], [100, 101, 102]⟩ := by
  unfold AnchorsFit; decide +kernel

theorem witness_GlobalFitIsLeastSquares :
    ∃ t m, exec .alignBuild (withAnchors [10, 20, 40] [100, 101, 102]) = .next t ∧ t.pm = some m :=
  ⟨_, buildMap ⟨[10, 20, 40], [100, 101, 102]⟩, rfl, by decide +kernel⟩

/-- The times at the clauses' bounds: the first anchor, just beyond the last, the last. -/
theorem witness_QuerySelectsTheSegment :
    (mapTimes (buildMap ⟨[10, 20, 40], [100, 101, 102]⟩)).Pairwise (· < ·) ∧
      (10 : Rat) ≤ (buildMap ⟨[10, 20, 40], [100, 101, 102]⟩).global.x ∧
        (∀ x ∈ mapTimes (buildMap ⟨[10, 20, 40], [100, 101, 102]⟩), x < 41) ∧
          (mapEntries (buildMap ⟨[10, 20, 40], [100, 101, 102]⟩)).map MapEntry.x = [10, 20, 40] ∧ (20 : Rat) < 40 := by
  decide +kernel

theorem witness_AlignIsLinearBetweenAnchors :
    AnchorsFit ⟨[10, 20], [100, 101]⟩ ∧ ({ withAnchors [10, 20] [100, 101] with qt := some [20] } : State).qt = some [20] ∧
      (10 : Rat) < 20 ∧ (20 : Rat) ≤ 20 := by
  unfold AnchorsFit; decide +kernel

theorem witness_AlignIsBuildThenQuery :
    EndsWith .alignBuild { withAnchors [10, 20] [100, 101] with qt := some [] } 0 ∧
      EndsWith .alignBuild { withAnchors [10] [100] with qt := some [] } 20 :=
  ⟨⟨_, rfl, by decide +kernel⟩, _, rfl, by decide +kernel⟩

theorem witness_AlignerFaultsInOrder :
    ([1] : List Rat).length ≠ ([] : List Int).length ∧
      (([1] : List Rat).length = ([1] : List Int).length ∧ ([1] : List Rat).length < 2) ∧
        ([1, 1] : List Rat)[0]? = some 1 ∧ ([1, 1] : List Rat)[0 + 1]? = some 1 ∧ (1 : Rat) ≤ 1 ∧
          ([1, 2, 2] : List Rat)[1]? = some 2 ∧ ([1, 2, 2] : List Rat)[1 + 1]? = some 2 := by decide +kernel

end Sys2Proof.Tests
end

section
/-! PROOF. The scope's operations: rounding (R11). -/

namespace Sys2Proof.Proofs

open Sys2Proof.Machine

/-- R11: an exact half rounds to the even neighbour. -/
theorem roundHalfEven_even_of_half (q : Rat) (half : q - q.floor = 1 / 2) : roundHalfEven q % 2 = 0 := by
  simp only [roundHalfEven, half, lt_irrefl, if_false]
  split_ifs with even
  · exact even
  · omega

/-- R11: the rounded integer is within a half. -/
theorem abs_sub_roundHalfEven_le (q : Rat) : |q - roundHalfEven q| ≤ 1 / 2 := by
  have lower : (q.floor : Rat) ≤ q := Rat.floor_le q
  have upper : q < q.floor + 1 := mod_cast Rat.lt_floor_add_one q
  rw [abs_le]
  obtain ⟨down, near⟩ | ⟨up, near⟩ := roundHalfEven_cases q
  · rw [down]
    constructor <;> linarith
  · rw [up]
    push_cast
    constructor <;> linarith

/-- R11: two integers are nearest only to a number half-way above its floor. -/
theorem sub_floor_eq_half_of_tie (q : Rat) (tie : |q - roundHalfEven q| = 1 / 2) : q - q.floor = 1 / 2 := by
  have lower : (q.floor : Rat) ≤ q := Rat.floor_le q
  have upper : q < q.floor + 1 := mod_cast Rat.lt_floor_add_one q
  obtain ⟨down, near⟩ | ⟨up, near⟩ := roundHalfEven_cases q
  · rwa [down, abs_of_nonneg (sub_nonneg.2 lower)] at tie
  · rw [up, abs_sub_comm] at tie
    push_cast at tie
    rw [abs_of_nonneg (sub_nonneg.2 upper.le)] at tie
    linarith

/-- Settles O40: the bound from the two candidates of R11, the tie rule from the exact half. -/
theorem roundIsHalfToEven : Obligations.RoundIsHalfToEven := fun q =>
  ⟨abs_sub_roundHalfEven_le q, fun tie => roundHalfEven_even_of_half q (sub_floor_eq_half_of_tie q tie)⟩

end Sys2Proof.Proofs
end

section
/-! PROOF. The one shape of every command: its result, a function of what it reads, ended by `finish` (R42, R260). What a
command can do is said once here, for all rows of the opcode table; the statements of 10_state.md follow from it. -/

namespace Sys2Proof.Proofs

open Sys2Proof.Machine

/-! ### What a command produces -/

/-- What a command that completes can produce (R45, column "writes"). -/
inductive Product where
  | decoded (d : Decoded)
  | encoded (data : List Byte)
  | ranges (r : List (Nat × Nat))
  | barcode (v : Nat)
  | corrected (c : Corrected)
  | clock (c : ClockDecoded)
  | map (m : PiecewiseMap)
  | times (q : List Rat)
  | aligned (r : PiecewiseMap × List Rat)

namespace Product

/-- The model's own write of each product. -/
def commit : Product → State → State
  | .decoded d => commitDecoded d
  | .encoded data => commitEncoded data
  | .ranges r => commitRanges r
  | .barcode v => commitBarcode v
  | .corrected c => commitCorrected c
  | .clock c => commitClock c
  | .map m => commitMap m
  | .times q => commitTimes q
  | .aligned r => commitAlign r

/-- R264: only an outlier correction warns. -/
def warns : Product → Bool
  | .corrected c => outlierWarning c.count
  | .clock c => outlierWarning c.corrected.count
  | _ => false

/-- R45: where a product is written, beside `OUTLIER_COUNT`. -/
def dests : Product → List Dest
  | .decoded _ => [.tbl, .hdr]
  | .encoded _ => [.obuf]
  | .ranges _ => [.edg]
  | .barcode _ => [.bcVal]
  | .corrected _ => [.an]
  | .clock _ => [.edg, .an]
  | .map _ => [.pm]
  | .times _ => [.qa]
  | .aligned _ => [.pm, .qa]

/-- R25: the products that carry a count. -/
def counts : Product → Bool
  | .corrected _ => true
  | .clock _ => true
  | _ => false

end Product

/-- R146, log 1: the buffer as DECODE's parser sees it: a TAG or a KIND row puts its byte in the first frame's header. -/
def bufferSeen (i : Instr) (s : State) : Option (List Byte) :=
  match i.format with
  | .tag => withHeaderByte s.ibuf 4 (encode i)
  | .kind => withHeaderByte s.ibuf 0 (encode i)
  | .cmd => s.ibuf

/-- The body of every command up to its ending: its product, or what it raises. -/
def resultOf (i : Instr) (s : State) : Except Raise Product :=
  match i with
  | .encode => (operand s.tbl >>= encodeTable s.encodeOperands).map .encoded
  | .segment => (operand s.tr >>= fun tr => .ok (segmentRanges tr.t s.minDelta)).map .ranges
  | .bardec => (operand s.tr >>= barDecRange s.rates s.bcLo s.bcHi).map .barcode
  | .outlierRepair => (operand s.an >>= fun a =>
      checkPaired a.localTimes.length a.harp.length >>= fun _ => .ok (repairAnchors a)).map .corrected
  | .outlierDrop => (operand s.an >>= fun a =>
      checkPaired a.localTimes.length a.harp.length >>= fun _ => .ok (dropAnchors a)).map .corrected
  | .clockdecRepair => (operand s.tr >>= clockDecode repairAnchors s.rates).map .clock
  | .clockdecDrop => (operand s.tr >>= clockDecode dropAnchors s.rates).map .clock
  | .alignBuild => (operand s.an >>= buildFrom).map .map
  | .alignQuery => (operand s.pm >>= fun m => operand s.qt >>= fun q => .ok (alignTimes m q)).map .times
  | .align => (operand s.an >>= fun a => operand s.qt >>= fun q =>
      buildFrom a >>= fun m => .ok (m, alignTimes m q)).map .aligned
  | _ => (operand (bufferSeen i s) >>= decodeBuffer s.decodeOperands).map .decoded

/-- The next state of every command. -/
def runOf (i : Instr) (s : State) : State := finish (destsOf i) (resultOf i s) Product.commit Product.warns s

/-- A result can be named as a product before it is ended. -/
theorem finish_map {α β : Type} (ds : List Dest) (r : Except Raise α) (g : α → β) (c : β → State → State)
    (w : β → Bool) (s : State) :
    finish ds (r.map g) c w s = finish ds r (fun a => c (g a)) (fun a => w (g a)) s := by
  cases r <;> rfl

/-- R122, log 1: every row answers `runOf`; only ENCODE can stop instead, on what is no table (log 10). -/
theorem exec_eq (i : Instr) (s : State) :
    exec i s = if i = .encode ∧ tableSound s = false then .fault .malformedTable else .next (runOf i s) := by
  cases i
  case encode =>
    have body : encodeFrom s = runOf .encode s := by
      simp only [runOf, resultOf, finish_map]
      rfl
    change execEncode s = _
    cases h : tableSound s <;> simp [execEncode, h, body]
  all_goals
    simp only [runOf, resultOf, finish_map, reduceCtorEq, false_and, if_false]
    rfl

/-- A command that answers a next state answers `runOf`. -/
theorem eq_runOf_of_exec {i : Instr} {s t : State} (h : exec i s = .next t) : t = runOf i s := by
  rw [exec_eq] at h
  split at h
  · cases h
  · exact (Host.Outcome.next.inj h).symm

/-- R260: a command completes with its product or raises. -/
theorem runOf_cases (i : Instr) (s : State) :
    (∃ p, resultOf i s = .ok p ∧ runOf i s = returnOk p.warns (p.commit s)) ∨
      ∃ f, resultOf i s = .error f ∧ runOf i s = raiseFault f (destsOf i) s :=
  finish_cases ..

/-! ### What a body can answer -/

theorem map_eq_ok {α β : Type} (g : α → β) (r : Except Raise α) (b : β) :
    r.map g = .ok b ↔ ∃ a, r = .ok a ∧ g a = b := by
  cases r <;> simp [Except.map]

theorem map_eq_error {α β : Type} (g : α → β) (r : Except Raise α) (f : Raise) :
    r.map g = .error f ↔ r = .error f := by
  cases r <;> simp [Except.map]

/-- R45: a command's product is written to the destinations of its row. -/
theorem dests_of_resultOf {i : Instr} {s : State} {p : Product} (h : resultOf i s = .ok p) : p.dests = destsOf i := by
  cases i <;> (obtain ⟨a, -, rfl⟩ := (map_eq_ok ..).1 h; rfl)

/-- R25, R203: a command's product carries a count exactly when the command corrects outliers. -/
theorem counts_of_resultOf {i : Instr} {s : State} {p : Product} (h : resultOf i s = .ok p) :
    p.counts = correctsOutliers i := by
  cases i <;> (obtain ⟨a, -, rfl⟩ := (map_eq_ok ..).1 h; rfl)

/-- R276: with the body behind its operand test never raising `OK`, the whole does not. -/
theorem code_ne_ok_of_operand {α β : Type} {m : Option α} {g : α → Except Raise β} {f : Raise}
    (body : ∀ a, g a = .error f → f.code ≠ .ok) (h : (operand m >>= g) = .error f) : f.code ≠ .ok := by
  cases m with
  | none => cases h; decide
  | some a => exact body a h

theorem code_ne_ok_of_mem {c : Code} {l : List Code} (h : c ∈ l) (hl : Code.ok ∉ l) : c ≠ .ok :=
  fun hc => hl (hc ▸ h)

theorem code_ne_ok_of_checkPaired {α : Type} {n m : Nat} {a : α} {f : Raise}
    (h : (checkPaired n m >>= fun _ => .ok a) = .error f) : f.code ≠ .ok := by
  simp only [bind_eq_error, checkPaired_eq_error, reduceCtorEq, and_false, exists_false, or_false] at h
  obtain ⟨-, rfl⟩ := h
  simp

/-- R261: no command raises the code of a completion. -/
theorem code_ne_ok_of_resultOf {i : Instr} {s : State} {f : Raise} (h : resultOf i s = .error f) : f.code ≠ .ok := by
  cases i <;> refine code_ne_ok_of_operand (fun a ha => ?_) ((map_eq_error ..).1 h)
  case encode => exact code_ne_ok_of_mem (encodeTable_error_code _ _ _ ha) (by decide)
  case segment => cases ha
  case bardec => exact code_ne_ok_of_mem (barDecRange_error_code _ _ _ _ _ ha) (by decide)
  case outlierRepair => exact code_ne_ok_of_checkPaired ha
  case outlierDrop => exact code_ne_ok_of_checkPaired ha
  case clockdecRepair => exact code_ne_ok_of_mem (clockDecode_error_code _ _ _ _ ha) (by decide)
  case clockdecDrop => exact code_ne_ok_of_mem (clockDecode_error_code _ _ _ _ ha) (by decide)
  case alignBuild => exact code_ne_ok_of_mem (buildFrom_error_code _ _ ha) (by decide)
  case alignQuery => exact code_ne_ok_of_operand (fun _ hq => by cases hq) ha
  case align =>
    refine code_ne_ok_of_operand (fun q hq => ?_) ha
    rcases (bind_eq_error ..).1 hq with hb | ⟨_, _, hm⟩
    · exact code_ne_ok_of_mem (buildFrom_error_code _ _ hb) (by decide)
    · cases hm
  all_goals exact code_ne_ok_of_mem (decodeBuffer_error_code _ _ _ ha) (by decide)

/-- R42, R45: a command's result is a function of what its row says it reads. -/
theorem resultOf_congr {i : Instr} {s u : State} (h : SameReads i s u) : resultOf i s = resultOf i u := by
  cases i
  case encode =>
    obtain ⟨tbl, addr, port, dtype, kind, epoch⟩ := h
    simp only [resultOf, State.encodeOperands, tbl, addr, port, dtype, kind, epoch]
  case segment =>
    obtain ⟨times, minDelta⟩ := h
    cases hs : s.tr <;> cases hu : u.tr <;> simp_all [resultOf]
  case bardec =>
    obtain ⟨tr, lo, hi, baud, rate⟩ := h
    simp only [resultOf, State.rates, tr, lo, hi, baud, rate]
  case clockdecRepair | clockdecDrop =>
    obtain ⟨tr, baud, rate⟩ := h
    simp only [resultOf, State.rates, tr, baud, rate]
  case outlierRepair | outlierDrop | alignBuild =>
    have an : s.an = u.an := h
    simp only [resultOf, an]
  case alignQuery =>
    obtain ⟨pm, qt⟩ := h
    simp only [resultOf, pm, qt]
  case align =>
    obtain ⟨an, qt⟩ := h
    simp only [resultOf, an, qt]
  all_goals
    obtain ⟨ibuf, addr, type, len, epoch, keep, ncols⟩ := h
    simp only [resultOf, bufferSeen, State.decodeOperands, ibuf, addr, type, len, epoch, keep, ncols]

end Sys2Proof.Proofs
end

section
/-! PROOF. 10_state.md: what commands write and leave unchanged (R45), what their results depend on (R42), the invariant of
the block, and the host's writes and reset (R22, R34, R43, R44). -/

namespace Sys2Proof.Proofs

open Sys2Proof.Machine

/-! ### What commands leave unchanged -/

/-- R266: a fault writes `STATUS` and its destinations only. -/
theorem raiseFault_sameOutside (f : Raise) (ds : List Dest) (s : State) : SameOutside ds s (raiseFault f ds s) := by
  rw [raiseFault_eq]
  refine ⟨rfl, ?_⟩
  simp +contextual

/-- R266: a fault keeps `OUTLIER_COUNT`. -/
theorem raiseFault_outlierCount (f : Raise) (ds : List Dest) (s : State) :
    (raiseFault f ds s).outlierCount = s.outlierCount := by
  rw [raiseFault_eq]

/-- R45: a completion writes `STATUS`, `OUTLIER_COUNT` and its product's destinations only. -/
theorem returnOk_commit_sameOutside (w : Bool) (p : Product) (s : State) :
    SameOutside p.dests s (returnOk w (p.commit s)) := by
  cases p <;> refine ⟨rfl, ?_⟩ <;> simp [Product.dests, Product.commit]

/-- R25: only a product with a count writes `OUTLIER_COUNT`. -/
theorem commit_outlierCount {p : Product} (h : p.counts = false) (s : State) :
    (p.commit s).outlierCount = s.outlierCount := by
  cases p with
  | corrected | clock => cases h
  | _ => rfl

/-- R45: a command changes nothing outside its row. -/
theorem runOf_sameOutside (i : Instr) (s : State) : SameOutside (destsOf i) s (runOf i s) := by
  rcases runOf_cases i s with ⟨p, hp, run⟩ | ⟨f, -, run⟩ <;> rw [run]
  · exact dests_of_resultOf hp ▸ returnOk_commit_sameOutside p.warns p s
  · exact raiseFault_sameOutside f (destsOf i) s

/-- R25: only a correcting command changes `OUTLIER_COUNT`. -/
theorem runOf_outlierCount {i : Instr} (h : correctsOutliers i = false) (s : State) :
    (runOf i s).outlierCount = s.outlierCount := by
  rcases runOf_cases i s with ⟨p, hp, run⟩ | ⟨f, -, run⟩ <;> rw [run]
  · exact commit_outlierCount ((counts_of_resultOf hp).trans h) s
  · exact raiseFault_outlierCount f (destsOf i) s

/-- Settles O16, from the frames of the two endings. -/
theorem commandsChangeOnlyTheirRow : Obligations.CommandsChangeOnlyTheirRow := by
  intro i s t h
  rw [eq_runOf_of_exec h]
  exact ⟨runOf_sameOutside i s, fun noCount => runOf_outlierCount noCount s⟩

/-! ### What results depend on -/

/-- R42: a product leaves the same in its destinations whatever the state was. -/
theorem commit_sameDest (p : Product) (v w : Bool) (s u : State) :
    ∀ d ∈ p.dests, SameDest (returnOk v (p.commit s)) (returnOk w (p.commit u)) d := by
  cases p with
  | decoded d =>
    obtain ⟨table, header⟩ := d
    cases header <;> simp [Product.dests, SameDest, Product.commit, invalidHdr]
  | _ => simp [Product.dests, SameDest, Product.commit]

/-- R266: a fault leaves every destination invalid, so the same, whatever the state was. -/
theorem raiseFault_sameDest (f : Raise) (ds : List Dest) (s u : State) :
    ∀ d ∈ ds, SameDest (raiseFault f ds s) (raiseFault f ds u) d := by
  intro d hd
  rw [raiseFault_eq, raiseFault_eq]
  cases d <;> simp [SameDest, hd, invalidHdr]

/-- R203: a product's count does not depend on the state before. -/
theorem commit_outlierCount_congr {p : Product} (h : p.counts = true) (s u : State) :
    (p.commit s).outlierCount = (p.commit u).outlierCount := by
  cases p with
  | corrected | clock => rfl
  | _ => cases h

/-- Settles O17: the two states get one result, and each ending puts it into the destinations alone. -/
theorem resultsDependOnlyOnReads : Obligations.ResultsDependOnlyOnReads := by
  intro i s u s' u' reads hs hu
  rw [eq_runOf_of_exec hs, eq_runOf_of_exec hu]
  have same := resultOf_congr reads
  rcases runOf_cases i s with ⟨p, hp, runs⟩ | ⟨f, hf, runs⟩ <;>
    rcases runOf_cases i u with ⟨q, hq, runu⟩ | ⟨g, hg, runu⟩ <;> rw [runs, runu]
  · obtain rfl : p = q := Except.ok.inj (hp.symm.trans (same.trans hq))
    exact ⟨rfl, dests_of_resultOf hp ▸ commit_sameDest p _ _ s u,
      fun counts _ => commit_outlierCount_congr ((counts_of_resultOf hp).trans counts) s u⟩
  · cases hp.symm.trans (same.trans hg)
  · cases hf.symm.trans (same.trans hq)
  · obtain rfl : f = g := Except.error.inj (hf.symm.trans (same.trans hg))
    exact ⟨rfl, raiseFault_sameDest f _ s u,
      fun _ ok => absurd ((code_num_eq_zero _).1 ok) (code_ne_ok_of_resultOf hf)⟩

/-- R271: a fault taken again on what it left leaves the same. -/
theorem raiseFault_raiseFault (f : Raise) (ds : List Dest) (s : State) :
    raiseFault f ds (raiseFault f ds s) = raiseFault f ds s := by
  simp only [raiseFault_eq]
  congr 1 <;> split <;> rfl

/-- R42: a product written again leaves the same. -/
theorem returnOk_commit_idem (w : Bool) (p : Product) (s : State) :
    returnOk w (p.commit (returnOk w (p.commit s))) = returnOk w (p.commit s) := by
  cases p <;> rfl

/-- R42, R271: a command issued again, with what it reads untouched by its first run, leaves the same state. -/
theorem runOf_idem {i : Instr} {s : State} (reads : SameReads i s (runOf i s)) : runOf i (runOf i s) = runOf i s := by
  have same : resultOf i (runOf i s) = resultOf i s := (resultOf_congr reads).symm
  rcases runOf_cases i s with ⟨p, hp, run⟩ | ⟨f, hf, run⟩
  · rw [runOf, same, hp, finish_ok, run, returnOk_commit_idem]
  · rw [runOf, same, hf, finish_error, run, raiseFault_raiseFault]

/-- R45: what lies outside the row of DECODE holds all that DECODE reads. -/
theorem sameReads_decode_of_sameOutside {s t : State} (h : SameOutside [.tbl, .hdr] s t) : SameReads .decode s t := by
  obtain ⟨frame, -⟩ := h
  rw [frame]
  exact ⟨rfl, rfl, rfl, rfl, rfl, rfl, rfl⟩

/-- Settles O27: DECODE writes nothing that it reads, so it runs again to the same state. -/
theorem decodeTwiceIsDecodeOnce : Obligations.DecodeTwiceIsDecodeOnce := by
  intro s t h
  rw [eq_runOf_of_exec h, exec_eq, if_neg (by simp),
    runOf_idem (sameReads_decode_of_sameOutside (runOf_sameOutside .decode s))]

/-! ### The invariant of the block -/

/-- R24, R269: the status of a fault is sound. -/
theorem raiseFault_statusSound {f : Raise} (hf : f.code ≠ .ok) (ds : List Dest) (s : State) :
    StatusSound (raiseFault f ds s) := by
  have nonzero : f.code.num ≠ 0 := fun h => hf ((code_num_eq_zero _).1 h)
  exact ⟨iff_of_true rfl nonzero, code_num_le _, fun _ => rfl, (nomatch ·), (absurd · nonzero)⟩

/-- R266: a fault keeps the invariant; of each memory it leaves nothing, or what was there. -/
theorem raiseFault_sound {f : Raise} (hf : f.code ≠ .ok) (ds : List Dest) {s : State} (h : Sound s) :
    Sound (raiseFault f ds s) := by
  obtain ⟨-, hdr, table, ranges, map⟩ := h
  refine ⟨raiseFault_statusSound hf ds s, ?_, ?_, ?_, ?_⟩ <;> rw [raiseFault_eq]
  · by_cases hd : Dest.hdr ∈ ds
    · simp [HdrSound, hd, invalidHdr]
    · simpa [HdrSound, hd] using hdr
  · by_cases hd : Dest.tbl ∈ ds
    · simp [TableSound, hd]
    · simpa [TableSound, hd] using table
  · by_cases hd : Dest.edg ∈ ds
    · simp [RangesSound, hd]
    · simpa [RangesSound, hd] using ranges
  · by_cases hd : Dest.pm ∈ ds
    · simp [MapSound, hd]
    · simpa [MapSound, hd] using map

/-- R24, R264, R268: the status of a completion is sound when it warns of a positive count only. -/
theorem returnOk_statusSound {w : Bool} {s : State} (counted : w = true → 0 < s.outlierCount) :
    StatusSound (returnOk w s) :=
  ⟨by simp [okStatus, Code.num], by simp [okStatus, Code.num], fun h => absurd rfl h, fun h => ⟨rfl, counted h⟩,
    fun _ => ⟨rfl, rfl⟩⟩

/-- R203, R264: a warning comes with a positive count. -/
theorem outlierCount_pos_of_warns {p : Product} (h : p.warns = true) (s : State) : 0 < (p.commit s).outlierCount := by
  cases p with
  | corrected | clock => exact of_decide_eq_true h
  | _ => cases h

/-- R192: the ranges of a segmentation are sound. -/
theorem rangesSound_of_edg {s : State} {t : List Rat} {md : Rat} (h : s.edg = some (segmentRanges t md)) :
    RangesSound s := by
  intro ranges hr
  obtain rfl := Option.some.inj (h.symm.trans hr)
  exact ⟨segmentRanges_lt t md, segmentRanges_adjacent t md⟩

/-- R231, R234: a map that was built is sound. -/
theorem mapSound_of_pm {s : State} {a : Anchors} {m : PiecewiseMap} (built : buildFrom a = .ok m) (h : s.pm = some m) :
    MapSound s := by
  intro m' hm
  obtain rfl := Option.some.inj (h.symm.trans hm)
  obtain ⟨⟨paired, two, ascending⟩, rfl⟩ := (buildFrom_eq_ok a m).1 built
  have times : mapTimes (buildMap a) = a.localTimes :=
    mapTimes_buildMap a paired (List.ne_nil_of_length_pos (by omega))
  rw [← mapTimes_length, times]
  exact ⟨two, ascending⟩

/-- R26, R28, R131: what DECODE writes is sound. -/
theorem commitDecoded_hdrSound_tableSound {o : DecodeOperands} {b : List Byte} {d : Decoded}
    (h : decodeBuffer o b = .ok d) (s : State) : HdrSound (commitDecoded d s) ∧ TableSound (commitDecoded d s) := by
  constructor
  · obtain ⟨table, header⟩ := d
    cases header with
    | none => simp [HdrSound, invalidHdr]
    | some fields => exact fun _ => decodeBuffer_header_stride o b _ fields h rfl
  · intro t ht
    obtain rfl := Option.some.inj ht
    exact decodeBuffer_table_wellFormed o b d h

/-- The clauses of `Sound` about memories. -/
def MemoriesSound (s : State) : Prop := HdrSound s ∧ TableSound s ∧ RangesSound s ∧ MapSound s

/-- R24 to R39: a command's product keeps the memories sound. -/
theorem commit_memoriesSound {i : Instr} {s : State} {p : Product} (hp : resultOf i s = .ok p)
    (h : MemoriesSound s) : MemoriesSound (p.commit s) := by
  obtain ⟨hdr, table, ranges, map⟩ := h
  cases i <;> obtain ⟨a, ha, rfl⟩ := (map_eq_ok ..).1 hp
  case encode | bardec | outlierRepair | outlierDrop | alignQuery => exact ⟨hdr, table, ranges, map⟩
  case segment =>
    obtain ⟨tr, -, hr⟩ := (bind_eq_ok ..).1 ha
    obtain rfl := Except.ok.inj hr
    exact ⟨hdr, table, rangesSound_of_edg rfl, map⟩
  case clockdecRepair | clockdecDrop =>
    obtain ⟨tr, -, hc⟩ := (bind_eq_ok ..).1 ha
    obtain ⟨-, -, hr, -⟩ := (clockDecode_eq_ok ..).1 hc
    exact ⟨hdr, table, rangesSound_of_edg (congrArg some hr), map⟩
  case alignBuild =>
    obtain ⟨anchors, -, built⟩ := (bind_eq_ok ..).1 ha
    exact ⟨hdr, table, ranges, mapSound_of_pm built rfl⟩
  case align =>
    simp only [bind_eq_ok] at ha
    obtain ⟨anchors, -, q, -, m, built, hm⟩ := ha
    obtain rfl := Except.ok.inj hm
    exact ⟨hdr, table, ranges, mapSound_of_pm built rfl⟩
  all_goals
    obtain ⟨b, -, hd⟩ := (bind_eq_ok ..).1 ha
    obtain ⟨hdr', table'⟩ := commitDecoded_hdrSound_tableSound hd s
    exact ⟨hdr', table', ranges, map⟩

/-- R260: a command keeps the invariant. -/
theorem runOf_sound (i : Instr) {s : State} (h : Sound s) : Sound (runOf i s) := by
  rcases runOf_cases i s with ⟨p, hp, run⟩ | ⟨f, hf, run⟩ <;> rw [run]
  · exact ⟨returnOk_statusSound fun hw => outlierCount_pos_of_warns hw s, commit_memoriesSound hp h.2⟩
  · exact raiseFault_sound (code_ne_ok_of_resultOf hf) _ h

/-- R22: a write of an operand register keeps the invariant, which no operand register is in. -/
theorem writeReg_sound (w : RegWrite) {s : State} (h : Sound s) : Sound (writeReg w s) := by
  cases w <;> exact h

/-- R28, R43: a load of a memory's content keeps the invariant. -/
theorem loadMem_sound {m : MemLoad} (hm : (HostAction.load m).wellFormed = true) {s : State} (h : Sound s) :
    Sound (loadMem m s) := by
  obtain ⟨status, hdr, table, ranges, map⟩ := h
  have table' : TableSound (loadMem m s) := loadMem_tbl m s hm table
  cases m <;> exact ⟨status, hdr, table', ranges, map⟩

/-- Settles O13: the flags of R44 are clear together, and no memory is valid. -/
theorem resetIsSound : Obligations.ResetIsSound := by
  refine ⟨by unfold StatusSound; decide, (nomatch ·), ?_, ?_, ?_⟩ <;> intro _ valid <;> cases valid

/-- R120: an action of the host keeps the invariant. -/
theorem hostAction_sound {a : HostAction} {s t : State} (h : Sound s) (ht : hostAction a s = .next t) : Sound t := by
  cases a with
  | set w => cases ht; exact writeReg_sound w h
  | load m =>
    rw [hostAction_load] at ht
    split at ht
    · next hm => cases ht; exact loadMem_sound hm h
    · cases ht
  | reset => cases ht; exact resetIsSound
  | cmd | read | setReadOnly => cases ht; exact h

/-- Settles O14, over the four things a step can be. -/
theorem stepKeepsSound : Obligations.StepKeepsSound := by
  intro s t h ht
  rcases step_cases s with ⟨-, hs⟩ | ⟨v, rest, i, -, -, hs⟩ | ⟨v, rest, -, -, hs⟩ | ⟨a, rest, -, -, hs⟩ <;>
    rw [hs] at ht
  · cases ht; exact h
  · rw [eq_runOf_of_exec ht]
    exact runOf_sound i (s := popAction rest s) h
  · cases ht
    exact raiseFault_sound (by simp) [] (s := popAction rest s) h
  · exact hostAction_sound (s := popAction rest s) h ht

/-! ### Single steps -/

/-- R23, R118: a step whose next action writes a command's code. -/
theorem step_command {s : State} {v : Byte} {rest : List HostAction} {i : Instr} (h : s.host = .cmd v :: rest)
    (hv : decodeCmd v = some i) : step s = exec i (popAction rest s) := by
  simp [step, fetch_cmd s v rest h, hv]

/-- R22: a step whose next action sets an operand register. -/
theorem step_set {s : State} {w : RegWrite} {rest : List HostAction} (h : s.host = .set w :: rest) :
    step s = .next (writeReg w (popAction rest s)) := by
  simp [step, fetch, h, hostAction]

/-- R43: a step whose next action loads a content of the memory's type. -/
theorem step_load {s : State} {m : MemLoad} {rest : List HostAction} (h : s.host = .load m :: rest)
    (fits : (HostAction.load m).wellFormed = true) : step s = .next (loadMem m (popAction rest s)) := by
  simp [step, fetch, h, hostAction_load, fits]

/-- R28, log 9: a step whose next action loads anything else. -/
theorem step_load_refused {s : State} {m : MemLoad} {rest : List HostAction} (h : s.host = .load m :: rest)
    (ragged : (HostAction.load m).wellFormed = false) : step s = .refused .illTypedLoad := by
  simp [step, fetch, h, hostAction_load, ragged]

/-- Settles O5: the fetch gives the value out, and its decoding is the command. -/
theorem stepRunsTheCommand : Obligations.StepRunsTheCommand :=
  fun _ _ _ _ => step_command

/-- Settles O8, from the fields of `State.reset`. -/
theorem resetValues : Obligations.ResetValues := by
  unfold Obligations.ResetValues
  decide

/-- Settles O11: the loads of everything but `TBL` always fit, and each is its branch of `loadMem`. -/
theorem hostLoadsAMemory : Obligations.HostLoadsAMemory := fun _ _ =>
  ⟨fun _ h => step_load h rfl, fun _ h fits => step_load h fits, fun _ h ragged => step_load_refused h ragged,
    fun _ h => step_load h rfl, fun _ h => step_load h rfl, fun _ h => step_load h rfl, fun _ h => step_load h rfl,
    fun _ h => step_load h rfl⟩

/-- Settles O12, register by register. -/
theorem hostWritesARegister : Obligations.HostWritesARegister := by
  intro s rest w h
  rw [step_set h]
  cases w <;> rfl

/-- Settles O34: the one branch of `exec_eq` that stops. -/
theorem encodeStopsOnMalformedTable : Obligations.EncodeStopsOnMalformedTable := by
  intro s t valid ragged
  have unsound : tableSound s = false := by simp [tableSound, valid, ragged]
  rw [exec_eq, if_pos ⟨rfl, unsound⟩]

/-! ### The separate loads of `TR` -/

/-- Settles O57: each order of the two loads fills the two fields that the load of both fills. -/
theorem transitionsLoadSeparately : Obligations.TransitionsLoadSeparately := by
  refine ⟨tr_eq_some, ?_, ?_, ?_⟩
  · intro s x rest h
    exact ⟨_, step_load h rfl, loadMem_trTimes_tr x (popAction rest s)⟩
  · intro s l rest h
    exact ⟨_, step_load h rfl, loadMem_trStates_tr l (popAction rest s)⟩
  · rintro s x l rest first second h (⟨rfl, rfl⟩ | ⟨rfl, rfl⟩)
    · exact ⟨_, _, _, step_load h rfl, step_load rfl rfl, step_load rfl rfl, rfl, rfl⟩
    · exact ⟨_, _, _, step_load h rfl, step_load rfl rfl, step_load rfl rfl, rfl, rfl⟩

end Sys2Proof.Proofs
end

section
/-! PROOF. 20_memory.md section 5: the addresses of R66 stay inside the frames of an accepted buffer (R68). -/

namespace Sys2Proof.Proofs

open Sys2Proof.Machine

/-! ### Addresses within one frame -/

/-- R66: a place that leaves room for one more byte in the frame ends at or before the checksum byte. -/
theorem frameAddr_add_le_cksumAddr {stride n : Nat} (r : Nat) (h : n + 1 ≤ stride) :
    frameAddr stride r + n ≤ cksumAddr stride r := by
  unfold cksumAddr
  omega

/-- R66, R67: the checksum byte of a frame lies within the whole frames. -/
theorem cksumAddr_lt_mul {stride rows r : Nat} (hs : 0 < stride) (hr : r < rows) :
    cksumAddr stride r < rows * stride := by
  have frameEnd : frameAddr stride r + stride ≤ rows * stride := by
    rw [frameAddr, ← Nat.succ_mul]
    exact Nat.mul_le_mul_right stride hr
  unfold cksumAddr
  omega

/-- R66, R138: an element of a payload that fits in the frame ends at or before the checksum byte. -/
theorem elemAddr_add_size_le_cksumAddr {stride off size count c : Nat} (r : Nat)
    (fits : off + count * size + 1 ≤ stride) (hc : c < count) :
    elemAddr stride off size r c + size ≤ cksumAddr stride r := by
  have elemEnd : c * size + size ≤ count * size := by
    rw [← Nat.succ_mul]
    exact Nat.mul_le_mul_right size hc
  calc elemAddr stride off size r c + size
    _ = frameAddr stride r + (off + (c * size + size)) := by simp only [elemAddr, Nat.add_assoc]
    _ ≤ cksumAddr stride r := frameAddr_add_le_cksumAddr r (by omega)

/-! ### The accepted header -/

/-- R136: the payload of an accepted header, with its checksum byte behind it, fits in the stride. -/
theorem payload_fits_of_parseHeader {o : DecodeOperands} {b : List Byte} {l : Layout} (h : parseHeader o b = .ok l) :
    payloadOffset l.timestamped + l.count * l.etype.size + 1 ≤ l.stride := by
  obtain ⟨-, -, -, -, room, -, -, -, -, -, -, off, count⟩ := (parseHeader_eq_ok o b l).1 h
  have payload : l.count * l.etype.size ≤ l.stride - l.off - 1 := count ▸ Nat.div_mul_le_self _ _
  omega

/-- R132, R134: an accepted buffer holds the header bytes and its whole frames. -/
theorem frames_fit_of_parseHeader {o : DecodeOperands} {b : List Byte} {l : Layout} (h : parseHeader o b = .ok l) :
    5 ≤ b.length ∧ l.rows * l.stride ≤ b.length := by
  obtain ⟨header, -, -, -, -, -, -, -, rows, -⟩ := (parseHeader_eq_ok o b l).1 h
  exact ⟨header, rows ▸ Nat.div_mul_le_self _ _⟩

/-- R134: the payload of an accepted header starts at its format's offset. -/
theorem off_of_parseHeader {o : DecodeOperands} {b : List Byte} {l : Layout} (h : parseHeader o b = .ok l) :
    l.off = payloadOffset l.timestamped := by
  obtain ⟨-, -, -, -, -, -, -, -, -, -, -, off, -⟩ := (parseHeader_eq_ok o b l).1 h
  exact off

/-- R134: both formats place the payload behind the five header bytes. -/
theorem five_le_payloadOffset (timestamped : Bool) : 5 ≤ payloadOffset timestamped := by
  cases timestamped <;> simp

/-- Settles O30: every field ends where the payload starts or before, the payload before the checksum byte, and the
checksum byte with its frame. -/
theorem decodeAddressesAreInBounds : Obligations.DecodeAddressesAreInBounds := by
  intro o b l h
  obtain ⟨header, frames⟩ := frames_fit_of_parseHeader h
  have fits := payload_fits_of_parseHeader h
  have start := five_le_payloadOffset l.timestamped
  refine ⟨header, frames, fun r hr => ⟨?kind, fun stamped => ?timestamp, fun c hc => ?element, ?checksum⟩⟩
  case kind => exact frameAddr_add_le_cksumAddr r (n := 1) (by omega)
  case timestamp =>
    rw [stamped, payloadOffset_true] at fits
    exact ⟨frameAddr_add_le_cksumAddr r (n := 9) (by omega), frameAddr_add_le_cksumAddr r (n := 11) (by omega)⟩
  case element => exact elemAddr_add_size_le_cksumAddr r (off_of_parseHeader h ▸ fits) hc
  case checksum => exact cksumAddr_lt_mul (by omega) hr

end Sys2Proof.Proofs
end

section
/-! PROOF. How a row of the table ends, from what its body answers (R266, R268). -/

namespace Sys2Proof.Proofs

open Sys2Proof.Machine

/-- R268: a row whose body completes writes its product and returns OK. -/
theorem exec_of_resultOf_ok {i : Instr} {s : State} {p : Product} (sound : i = .encode → tableSound s = true)
    (h : resultOf i s = .ok p) : exec i s = .next (returnOk p.warns (p.commit s)) := by
  rw [exec_eq, if_neg (by simp +contextual [sound]), runOf, h, finish_ok]

/-- R266: a row whose body raises reports what it raised. -/
theorem faultsWith_of_resultOf_error {i : Instr} {s : State} {f : Raise} (sound : i = .encode → tableSound s = true)
    (h : resultOf i s = .error f) : FaultsWith i s f.code.num f.exp f.act := by
  refine ⟨_, ?_, raiseFault_status f (destsOf i) s⟩
  rw [exec_eq, if_neg (by simp +contextual [sound]), runOf, h, finish_error]

end Sys2Proof.Proofs
end

section
/-! PROOF. 30_encoding.md section 6 and 42_barcode_clock.md section 2: the transitions of a barcode's bit frame expand to
its levels again (R110, R195), and those weigh to the value (R112, R199). -/

namespace Sys2Proof.Proofs

open Sys2Proof.Machine

/-! ### The start times of bit periods -/

/-- R113: when bit period `p` of a barcode starts. -/
def periodStart (t0 baud : Rat) (p : Nat) : Rat := t0 + (p : Rat) / baud

/-- R195: between the starts of two bit periods lie as many periods as their positions say. -/
theorem bitPeriods_periodStart {baud : Rat} (positive : 0 < baud) (t0 : Rat) (p n : Nat) :
    bitPeriods baud (periodStart t0 baud p) (periodStart t0 baud (p + n)) = n := by
  have periods : (periodStart t0 baud (p + n) - periodStart t0 baud p) * baud = ((n : Int) : Rat) := by
    unfold periodStart
    push_cast
    field_simp
    ring
  rw [bitPeriods, periods, roundHalfEven_intCast]

/-- R194: normalising undoes the host's units. -/
theorem normalise_mul_unitsPerSecond {s : State} (rates : RatesPositive s) (x : Rat) :
    normalise s.sampleRate (x * unitsPerSecond s) = x := by
  obtain ⟨-, rate⟩ := rates
  cases h : s.sampleRate with
  | none => simp [normalise, unitsPerSecond, h]
  | some sr => simp [normalise, unitsPerSecond, h, (rate sr h).ne']

/-! ### Expanding a line whose changes are recorded -/

/-- A line's level at `p` lasts until `q`. -/
def LevelHolds (level : Nat → Bool) (p q : Nat) : Prop := p < q ∧ ∀ i, p ≤ i → i < q → level i = level p

/-- The line's level at `p` is not that of the period before. -/
def changesAt (level : Nat → Bool) (p : Nat) : Bool := level p != level (p - 1)

/-- The level lasts from each recorded change to the next. -/
theorem isChain_changes {level : Nat → Bool} {p a : Nat} (n : Nat) (held : LevelHolds level p a) :
    (p :: (List.range' a n).filter (changesAt level)).IsChain (LevelHolds level) := by
  induction n generalizing p a with
  | zero => exact .singleton p
  | succ n ih =>
    obtain ⟨before, same⟩ := held
    rw [List.range'_succ]
    by_cases change : changesAt level a = true
    · rw [List.filter_cons_of_pos change]
      refine .cons_cons ⟨before, same⟩ (ih ⟨by omega, fun i _ _ => ?_⟩)
      rw [show i = a by omega]
    · rw [List.filter_cons_of_neg change]
      have still : level a = level (a - 1) := by simpa [changesAt] using change
      refine ih ⟨by omega, fun i low high => ?_⟩
      rcases Nat.lt_succ_iff_lt_or_eq.1 high with earlier | rfl
      · exact same i low earlier
      · rw [still, same (i - 1) (by omega) (by omega)]

/-- The periods from `p` to `p + n` at one level, and those behind them. -/
theorem replicate_append_levels {level : Nat → Bool} {p n : Nat} (held : LevelHolds level p (p + n)) (m : Nat) :
    List.replicate n (level p) ++ (List.range' (p + n) m).map level = (List.range' p (n + m)).map level := by
  have run : (List.range' p n).map level = List.replicate n (level p) := by
    refine List.eq_replicate_iff.2 ⟨by simp, fun x hx => ?_⟩
    obtain ⟨i, hi, rfl⟩ := List.mem_map.1 hx
    obtain ⟨low, high⟩ := List.mem_range'_1.1 hi
    exact held.2 i low high
  rw [← run, ← List.map_append, List.range'_append_1]

/-- R195, R196: the transitions at the changes of a line expand to its levels up to the last change. -/
theorem expandLevels_of_isChain {baud : Rat} (positive : 0 < baud) (t0 : Rat) (level : Nat → Bool) (k p : Nat)
    (es : List Nat) (held : (p :: es).IsChain (LevelHolds level)) :
    ∃ n, (p :: es).getLast? = some (p + n) ∧
      expandLevels baud k ((p :: es).map (periodStart t0 baud)) ((p :: es).map level) =
        .ok ((List.range' p n).map level) := by
  induction es generalizing k p with
  | nil => exact ⟨0, by simp⟩
  | cons q es ih =>
    obtain ⟨first, rest⟩ := List.isChain_cons_cons.1 held
    obtain ⟨d, rfl⟩ := Nat.exists_eq_add_of_lt first.1
    obtain ⟨m, last, expanded⟩ := ih (k + 1) (p + d + 1) rest
    refine ⟨d + 1 + m, by rw [List.getLast?_cons_cons, last]; congr 1; omega, ?_⟩
    have periods := bitPeriods_periodStart positive t0 p (d + 1)
    simp only [List.map_cons] at expanded ⊢
    rw [expandLevels_cons, expanded, Nat.add_assoc p d 1, periods, if_neg (by omega), ok_bind, Int.toNat_natCast,
      replicate_append_levels first]

/-! ### The bit frame of a barcode -/

/-- R110, R113: the line idles high, so period 0 is a change; the others are those against the period before. -/
theorem barcodeEdges_eq (v : Nat) :
    barcodeEdges v = 0 :: (List.range' 1 39).filter (changesAt (barcodeLevel v)) := by
  have periods : List.range Config.barcodePeriods = 0 :: List.range' 1 39 := by decide
  rw [barcodeEdges, periods, List.filter_cons_of_pos (by simp [barcodeLevel])]
  refine congrArg _ (List.filter_congr fun p hp => ?_)
  have later : p ≠ 0 := by have := List.mem_range'_1.1 hp; omega
  simp [changesAt, later]

/-- R113: a barcode's transitions are recorded at the starts of the periods in which the level changes. -/
theorem barcodeTransitions_t (v : Nat) (t0 baud : Rat) :
    (barcodeTransitions v t0 baud).t = (barcodeEdges v).map (periodStart t0 baud) := by
  simp [barcodeTransitions, ← List.map_eq_flatMap, periodStart, Function.comp_def]

/-- R195, R196: a barcode's transitions expand to its levels up to its last edge. -/
theorem expandLevels_barcode {baud : Rat} (positive : 0 < baud) (v : Nat) (t0 : Rat) :
    ∃ n, (barcodeEdges v).getLast? = some n ∧
      expandLevels baud 0 (barcodeTransitions v t0 baud).t (barcodeTransitions v t0 baud).s =
        .ok ((List.range n).map (barcodeLevel v)) := by
  have first : LevelHolds (barcodeLevel v) 0 1 := ⟨by omega, fun i _ _ => by rw [show i = 0 by omega]⟩
  obtain ⟨n, last, expanded⟩ := expandLevels_of_isChain positive t0 (barcodeLevel v) 0 0 _ (isChain_changes 39 first)
  rw [← barcodeEdges_eq, Nat.zero_add] at last
  rw [← barcodeEdges_eq, ← List.range_eq_range'] at expanded
  exact ⟨n, last, barcodeTransitions_t v t0 baud ▸ expanded⟩

/-- R110, R111: bit `n` of the value stands at its position. -/
theorem barcodeLevel_bitPos (v : Nat) {n : Nat} (_ : n < 32) : barcodeLevel v (bitPos n) = v.testBit n := by
  have position : bitPos n = 10 * (n / 8) + (n % 8 + 1) := by unfold bitPos; omega
  have byte : bitPos n / 10 = n / 8 := by omega
  have within : bitPos n % 10 = n % 8 + 1 := by omega
  have notFinal : bitPos n ≠ Config.barcodePeriods - 1 := by simp only [Config.barcodePeriods]; omega
  have bit : 8 * (n / 8) + (n % 8 + 1 - 1) = n := by omega
  rw [barcodeLevel, if_neg (by omega), if_neg notFinal, if_neg (by omega), if_neg (by omega), byte, within, bit]

/-- R110: the final high bit is a change exactly when bit 31, the period before it, is clear. -/
theorem changesAt_final (v : Nat) : changesAt (barcodeLevel v) 39 = !v.testBit 31 := by
  have bit31 : barcodeLevel v 38 = v.testBit 31 := barcodeLevel_bitPos v (n := 31) (by omega)
  have final : barcodeLevel v 39 = true := rfl
  rw [changesAt, final, bit31]
  cases v.testBit 31 <;> rfl

/-- R199 (c): with bit 31 clear the last edge is the final period's. -/
theorem barcodeEdges_getLast?_of_clear {v : Nat} (clear : v.testBit 31 = false) :
    (barcodeEdges v).getLast? = some 39 := by
  have final : changesAt (barcodeLevel v) 39 = true := by simp [changesAt_final, clear]
  have split : List.range' 1 39 = List.range' 1 38 ++ [39] := by decide
  rw [barcodeEdges_eq, split, List.filter_append, List.filter_cons_of_pos final, List.filter_nil, ← List.cons_append,
    List.getLast?_concat]

/-- R199 (c): with bit 31 set the last edge comes before the final period. -/
theorem le_38_of_barcodeEdges_getLast? {v n : Nat} (high : v.testBit 31 = true)
    (last : (barcodeEdges v).getLast? = some n) : n ≤ 38 := by
  have edge : n ∈ barcodeEdges v := List.mem_of_getLast? last
  rw [barcodeEdges_eq, List.mem_cons, List.mem_filter, List.mem_range'_1] at edge
  have final : n ≠ 39 := by
    rintro rfl
    simp [changesAt_final, high] at edge
  omega

/-- A number is the sum of its bits' weights, up to the bits taken. -/
theorem sum_testBit (v n : Nat) : ((List.range n).map fun k => if v.testBit k then 2 ^ k else 0).sum = v % 2 ^ n := by
  induction n with
  | zero => simp [Nat.mod_one]
  | succ n ih =>
    have weight : (if v.testBit n then 2 ^ n else 0) = 2 ^ n * (v / 2 ^ n % 2) := by
      rw [← Nat.toNat_testBit]
      cases v.testBit n <;> simp
    simp [List.range_succ, ih, Nat.mod_pow_succ, weight]

/-- R112, R199: the levels of the periods 0 to 38 weigh to the value. -/
theorem barcodeValue_barcodeLevels {v : Nat} (bound : v < 2 ^ 32) :
    barcodeValue ((List.range 39).map (barcodeLevel v)) = v := by
  have level : ∀ n ∈ List.range 32,
      (if ((List.range 39).map (barcodeLevel v)).getD (bitPos n) false then 2 ^ n else 0) =
        if v.testBit n then 2 ^ n else 0 := by
    intro n hn
    have bit : n < 32 := List.mem_range.1 hn
    have inside : bitPos n < 39 := by unfold bitPos; omega
    simp [inside, barcodeLevel_bitPos v bit]
  rw [barcodeValue, List.map_congr_left level, sum_testBit, Nat.mod_eq_of_lt bound]

/-! ### BARDEC of a captured barcode -/

/-- R8: a slice takes out what was put between. -/
theorem slice_append {α : Type} (a b c : List α) {lo hi : Nat} (start : lo = a.length) (stop : hi = lo + b.length) :
    slice (a ++ b ++ c) lo hi = b := by
  simp [slice, start, stop]

/-- R198, R200: BARDEC of transitions marked between others is their `BarDec`. -/
theorem resultOf_bardec_between {s : State} {before marked after : Transitions} (rates : RatesPositive s)
    (valid : s.tr = some { t := before.t ++ marked.t ++ after.t, s := before.s ++ marked.s ++ after.s })
    (pairedBefore : before.t.length = before.s.length) (pairedMarked : marked.t.length = marked.s.length)
    (pairedAfter : after.t.length = after.s.length) (lo : s.bcLo = before.t.length)
    (hi : s.bcHi = s.bcLo + marked.t.length) :
    resultOf .bardec s = (barDec s.rates marked.t marked.s).map .barcode := by
  have paired : checkPaired (before.t ++ marked.t ++ after.t).length (before.s ++ marked.s ++ after.s).length = .ok () :=
    (checkPaired_eq_ok ..).2 (by simp [pairedBefore, pairedMarked, pairedAfter])
  have range : s.bcLo ≤ s.bcHi ∧ s.bcHi ≤ (before.t ++ marked.t ++ after.t).length := by
    simp only [List.length_append]
    omega
  have positive : checkRates s.rates = .ok () := (checkRates_eq_ok ..).2 rates
  simp only [resultOf, valid, operand_some, ok_bind, barDecRange, paired, require_pos _ range, positive,
    slice_append before.t marked.t after.t lo hi,
    slice_append before.s marked.s after.s (lo.trans pairedBefore) (pairedMarked ▸ hi)]

/-- R113, R194: the transitions of the barcode of `v`, recorded in the units of `TR.t`. -/
def recordedBarcode (s : State) (v : Nat) (t0 : Rat) : Transitions :=
  { t := (barcodeTransitions v t0 s.baud).t.map (· * unitsPerSecond s), s := (barcodeTransitions v t0 s.baud).s }

theorem recordedBarcode_t_length (s : State) (v : Nat) (t0 : Rat) :
    (recordedBarcode s v t0).t.length = (barcodeTransitions v t0 s.baud).t.length := List.length_map _

theorem recordedBarcode_paired (s : State) (v : Nat) (t0 : Rat) :
    (recordedBarcode s v t0).t.length = (recordedBarcode s v t0).s.length := by
  simp [recordedBarcode, barcodeTransitions]

/-- R195 to R197: `BarDec` of a recorded barcode sees a level for each period up to the last edge. -/
theorem barDec_recordedBarcode {s : State} (rates : RatesPositive s) (v : Nat) (t0 : Rat) :
    ∃ n, (barcodeEdges v).getLast? = some n ∧
      (39 ≤ n → barDec s.rates (recordedBarcode s v t0).t (recordedBarcode s v t0).s =
        .ok (barcodeValue ((List.range n).map (barcodeLevel v)))) ∧
      (n < 39 → barDec s.rates (recordedBarcode s v t0).t (recordedBarcode s v t0).s =
        .error { code := .barcodeShort, exp := some (.int 39), act := some (.int n) }) := by
  obtain ⟨n, last, expanded⟩ := expandLevels_barcode rates.1 v t0
  have seconds : (recordedBarcode s v t0).t.map (normalise s.sampleRate) = (barcodeTransitions v t0 s.baud).t := by
    simp [recordedBarcode, Function.comp_def, normalise_mul_unitsPerSecond rates]
  rw [← seconds] at expanded
  exact ⟨n, last, fun long => (barDec_eq_ok ..).2 ⟨_, expanded, by simpa using long, rfl⟩,
    fun short => (barDec_eq_error ..).2 (.inr ⟨_, expanded, by simpa using short, by simp⟩)⟩

/-- R199 (c): bit 31 of a 32-bit value. -/
theorem testBit_31 {v : Nat} (bound : v < 4294967296) : v.testBit 31 = decide (2147483648 ≤ v) := by
  rw [Nat.testBit_eq_decide_div_mod_eq, decide_eq_decide]
  omega

/-- Settles O44: the captured transitions expand to the levels of the frame up to its last edge, which is at period 39
exactly when bit 31 is clear. -/
theorem bardecReadsBackABarcode : Obligations.BardecReadsBackABarcode := by
  intro s v t0 before after rates bound pairedBefore pairedAfter valid lo hi
  obtain ⟨n, last, long, short⟩ := barDec_recordedBarcode rates v t0
  have body := resultOf_bardec_between (marked := recordedBarcode s v t0) rates valid pairedBefore
    (recordedBarcode_paired s v t0) pairedAfter lo (by rw [hi, lo, recordedBarcode_t_length])
  refine ⟨fun clear => ?_, fun high => ⟨n, ?_⟩⟩
  · obtain rfl : n = 39 := Option.some.inj
      (last.symm.trans (barcodeEdges_getLast?_of_clear (by simpa [testBit_31 bound] using clear)))
    rw [long le_rfl, barcodeValue_barcodeLevels bound] at body
    exact exec_of_resultOf_ok (by simp) body
  · have early := le_38_of_barcodeEdges_getLast? (by simpa [testBit_31 bound] using high) last
    rw [short (by omega)] at body
    exact ⟨early, faultsWith_of_resultOf_error (by simp) body⟩

end Sys2Proof.Proofs
end

section
/-! PROOF. 30_encoding.md sections 1, 2, 7 and 8: each decoder of the opcode table against the encoder, and the values the
tables leave unassigned (R94 to R98, R118, R119, R122). -/

namespace Sys2Proof.Proofs

open Sys2Proof.Machine

/-! ### The payload type table -/

/-- R147: the dispatcher's table reads a base tag as the type it is the tag of, and nothing else. -/
theorem typeOfBase_eq_some (base : Byte) (e : EType) : typeOfBase base = some e ↔ tagOf e = base := by
  constructor
  · unfold typeOfBase
    split <;> rintro ⟨⟩
    all_goals exact BitVec.eq_of_toNat_eq (Eq.symm ‹_›)
  · rintro rfl
    cases e <;> rfl

/-- R147: a tag has a type exactly when its base tag is that type's. -/
theorem typeOf_eq_some (b : Byte) (e : EType) : typeOf b = some e ↔ tagOf e = b &&& 0xEF :=
  typeOfBase_eq_some (baseTag b) e

/-- R96: the tag of a frame keeps its type. -/
theorem typeOf_tagByte (e : EType) (stamped : Bool) : typeOf (tagByte e stamped) = some e := by
  rw [typeOf_eq_some]
  cases e <;> cases stamped <;> rfl

/-- R96: the tag of a frame keeps its flag. -/
theorem timestampFlag_tagByte (e : EType) (stamped : Bool) : timestampFlag (tagByte e stamped) = stamped := by
  cases e <;> cases stamped <;> rfl

/-- R96: bit 4 and the other bits make up the tag again. -/
theorem tagByte_timestampFlag {b : Byte} {e : EType} (h : typeOf b = some e) : tagByte e (timestampFlag b) = b := by
  have base : tagOf e = b &&& 0xEF := (typeOf_eq_some b e).1 h
  have bits : ∀ b : Byte, (if timestampFlag b then b &&& 0xEF ||| Config.tsFlag else b &&& 0xEF) = b := by
    decide +kernel
  rw [tagByte, base, bits]

/-- Settles O4: the rows of R97 type by type, and the dispatcher as their inverse. -/
theorem typeTableIsBidirectional : Obligations.TypeTableIsBidirectional :=
  ⟨fun e => by cases e <;> rfl, fun e => typeOf_tagByte e false, typeOf_eq_some⟩

/-- Settles O3: of the 256 bytes, 18 are tags of the nine types. -/
theorem unassignedTagBytes : Obligations.UnassignedTagBytes := by
  unfold Obligations.UnassignedTagBytes
  decide +kernel

/-! ### Decoding and encoding -/

theorem format_tagInstr (e : EType) (stamped : Bool) : (tagInstr e stamped).format = .tag := by cases e <;> rfl

theorem encode_tagInstr (e : EType) (stamped : Bool) : encode (tagInstr e stamped) = tagByte e stamped := by
  cases e <;> rfl

theorem format_kindInstr (k : Kind) : (kindInstr k).format = .kind := by cases k <;> rfl

theorem encode_kindInstr (k : Kind) : encode (kindInstr k) = kindCode k := by cases k <;> rfl

/-- R122: every TAG row is that of a type and a flag. -/
theorem exists_tagInstr {i : Instr} (h : i.format = .tag) : ∃ e stamped, i = tagInstr e stamped := by
  cases i with
  | tagU8 t => exact ⟨.u8, t, rfl⟩
  | tagU16 t => exact ⟨.u16, t, rfl⟩
  | tagU32 t => exact ⟨.u32, t, rfl⟩
  | tagU64 t => exact ⟨.u64, t, rfl⟩
  | tagI8 t => exact ⟨.i8, t, rfl⟩
  | tagI16 t => exact ⟨.i16, t, rfl⟩
  | tagI32 t => exact ⟨.i32, t, rfl⟩
  | tagI64 t => exact ⟨.i64, t, rfl⟩
  | tagF32 t => exact ⟨.f32, t, rfl⟩
  | _ => cases h

/-- R122: every KIND row is that of a kind. -/
theorem exists_kindInstr {i : Instr} (h : i.format = .kind) : ∃ k, i = kindInstr k := by
  cases i with
  | kindNa => exact ⟨.na, rfl⟩
  | kindRead => exact ⟨.read, rfl⟩
  | kindWrite => exact ⟨.write, rfl⟩
  | kindEvent => exact ⟨.event, rfl⟩
  | _ => cases h

/-- R96, R97: a tag byte is read as a TAG row exactly when it is that row's byte. -/
theorem decodeTag_eq_some (b : Byte) (i : Instr) : decodeTag b = some i ↔ i.format = .tag ∧ encode i = b := by
  constructor
  · intro h
    obtain ⟨e, type, rfl⟩ := Option.map_eq_some_iff.1 h
    exact ⟨format_tagInstr .., (encode_tagInstr ..).trans (tagByte_timestampFlag type)⟩
  · rintro ⟨tag, rfl⟩
    obtain ⟨e, stamped, rfl⟩ := exists_tagInstr tag
    rw [encode_tagInstr, decodeTag, typeOf_tagByte, timestampFlag_tagByte, Option.map_some]

/-- R94: a kind byte is read as a KIND row exactly when it is that row's byte. -/
theorem decodeKind_eq_some (b : Byte) (i : Instr) : decodeKind b = some i ↔ i.format = .kind ∧ encode i = b := by
  constructor
  · intro h
    obtain ⟨k, kind, rfl⟩ := Option.map_eq_some_iff.1 h
    exact ⟨format_kindInstr k, (encode_kindInstr k).trans (kindCode_of_kindOf b k kind)⟩
  · rintro ⟨kind, rfl⟩
    obtain ⟨k, rfl⟩ := exists_kindInstr kind
    rw [encode_kindInstr, decodeKind, kindOf_kindCode, Option.map_some]

/-- R118: a value of `CMD` is read as a command exactly when it is that command's code. -/
theorem decodeCmd_eq_some (b : Byte) (i : Instr) : decodeCmd b = some i ↔ i.format = .cmd ∧ encode i = b := by
  constructor
  · unfold decodeCmd
    split <;> rintro ⟨⟩
    all_goals exact ⟨rfl, BitVec.eq_of_toNat_eq (Eq.symm ‹_›)⟩
  · rintro ⟨cmd, rfl⟩
    cases i <;> cases cmd <;> rfl

/-- Settles O1, format by format. -/
theorem decodeAndEncodeAgree : Obligations.DecodeAndEncodeAgree := by
  intro f b i _
  cases f with
  | tag => exact decodeTag_eq_some b i
  | kind => exact decodeKind_eq_some b i
  | cmd => exact decodeCmd_eq_some b i

/-- Settles O2, from the tables. -/
theorem writtenOutBytesDecode : Obligations.WrittenOutBytesDecode := by
  unfold Obligations.WrittenOutBytesDecode
  decide

/-! ### Values that are no command -/

/-- R118, R119: the eleven codes. -/
theorem decodeCmd_eq_none (v : Byte) :
    decodeCmd v = none ↔ v.toNat ∉ [0x01, 0x02, 0x10, 0x11, 0x12, 0x13, 0x14, 0x15, 0x20, 0x21, 0x22] := by
  unfold decodeCmd
  split <;> simp_all

/-- R119: a step whose next action writes a value that is no command. -/
theorem step_illegal {s : State} {v : Byte} {rest : List HostAction} (h : s.host = .cmd v :: rest)
    (hv : decodeCmd v = none) : step s = .next (illegalCommand v (popAction rest s)) := by
  simp [step, fetch_cmd s v rest h, hv]

/-- Settles O7: the fault of a value that is no command has no destinations, so only `STATUS` changes. -/
theorem illegalCommandChangesOnlyStatus : Obligations.IllegalCommandChangesOnlyStatus :=
  ⟨decodeCmd_eq_none, fun _ _ _ => step_illegal⟩

end Sys2Proof.Proofs
end

section
/-! PROOF. 30_encoding.md section 3: the ticks field of a time (R101, R245). -/

namespace Sys2Proof.Proofs

open Sys2Proof.Machine

/-- R11: between two integers, rounding stays between them. -/
theorem roundHalfEven_mem_Icc {q : Rat} {a b : Int} (low : (a : Rat) ≤ q) (high : q ≤ b) :
    a ≤ roundHalfEven q ∧ roundHalfEven q ≤ b := by
  have below : a ≤ q.floor := Rat.le_floor_iff.2 low
  have above : (q.floor : Rat) ≤ q := Rat.floor_le q
  have atMost : q.floor ≤ b := by exact_mod_cast above.trans high
  obtain ⟨down, -⟩ | ⟨up, near⟩ := roundHalfEven_cases q
  · omega
  · have notAt : q.floor ≠ b := by
      intro same
      rw [same] at near
      linarith
    omega

/-- R101, R245: the rounded ticks of a fraction need no wrap at 16 bits. -/
theorem ticksOf_eq (t : Rat) :
    ticksOf t ≤ 31250 ∧ (ticksOf t : Int) = roundHalfEven ((t - t.floor) * 31250) := by
  have lower : (t.floor : Rat) ≤ t := Rat.floor_le t
  have upper : t < t.floor + 1 := mod_cast Rat.lt_floor_add_one t
  obtain ⟨low, high⟩ := roundHalfEven_mem_Icc (q := (t - t.floor) * 31250) (a := 0) (b := 31250)
    (by push_cast; linarith) (by push_cast; linarith)
  simp only [ticksOf, Config.ticksPerSecond]
  omega

/-- Settles O36: no wrap, and half a tick is a half of R11's unit. -/
theorem ticksNeverWrap : Obligations.TicksNeverWrap := by
  intro t
  obtain ⟨atMost, ticks⟩ := ticksOf_eq t
  refine ⟨atMost, ticks, ?_⟩
  have near := abs_sub_roundHalfEven_le ((t - t.floor) * 31250)
  rw [← ticks, Int.cast_natCast, abs_le] at near
  rw [abs_le]
  constructor <;> linarith

end Sys2Proof.Proofs
end

section
/-! PROOF. 40_message_decode.md sections 1 to 3: what DECODE of an accepted buffer leaves (R132 to R140), and 30_encoding.md
section 8 with log 1: a TAG or a KIND row is that DECODE, with the row's byte in the first frame's header. -/

namespace Sys2Proof.Proofs

open Sys2Proof.Machine

/-! ### Bytes of a buffer -/

/-- R8: a byte put into a buffer is read back at its place, and no other place changes. -/
theorem byteAt_set (b : List Byte) (v : Byte) {p : Nat} (inside : p < b.length) (i : Nat) :
    byteAt (b.set p v) i = if i = p then v else byteAt b i := by
  by_cases h : i = p
  · simp [byteAt, h, inside]
  · simp [byteAt, h, Ne.symm h]

/-- R8: putting in the byte that is there changes nothing. -/
theorem set_byteAt (b : List Byte) (p : Nat) : b.set p (byteAt b p) = b := by
  by_cases inside : p < b.length
  · simp [byteAt, inside]
  · exact List.set_eq_of_length_le (by omega)

/-- R10: a read of one byte more starts with the byte at its address. -/
theorem leNat_memRead_succ (b : List Byte) (a n : Nat) :
    leNat (memRead b a (n + 1)) = (byteAt b a).toNat + 256 * leNat (memRead b (a + 1) n) := by
  by_cases inside : a < b.length
  · rw [memRead, List.drop_eq_getElem_cons inside, List.take_succ_cons, leNat]
    simp [memRead, byteAt, inside]
  · have past : b.length ≤ a := by omega
    rw [memRead, memRead, List.drop_of_length_le past, List.drop_of_length_le (Nat.le_succ_of_le past)]
    simp [byteAt, past, leNat]

/-- What stands in a list computed position by position. -/
theorem getElem?_map_range_eq_some {α : Type} (f : Nat → α) (n i : Nat) (x : α) :
    ((List.range n).map f)[i]? = some x ↔ i < n ∧ f i = x := by
  simp [List.getElem?_eq_some_iff]

/-- R9: the number read from a field is the sum of its weighed bytes. -/
theorem leNat_memRead (b : List Byte) (a n : Nat) : leNat (memRead b a n) = wireNat b a n := by
  induction n generalizing a with
  | zero => simp [memRead, leNat, wireNat]
  | succ n ih =>
    have weigh : ∀ i,
        256 * ((byteAt b (a + 1 + i)).toNat * 256 ^ i) = (byteAt b (a + (i + 1))).toNat * 256 ^ (i + 1) := by
      intro i
      rw [show a + 1 + i = a + (i + 1) by omega]
      ring
    rw [leNat_memRead_succ, ih, wireNat, wireNat, List.range_succ_eq_map, List.map_cons, List.sum_cons, List.map_map,
      ← List.sum_map_mul_left]
    simp [Function.comp_def, weigh]

/-! ### DECODE of an accepted buffer -/

/-- R132 to R136: the geometry of a buffer with element type `e`. -/
def layoutOf (b : List Byte) (e : EType) : Layout :=
  { stride := bufferStride b, rows := b.length / bufferStride b, tag := byteAt b 4,
    timestamped := timestampFlag (byteAt b 4), off := payloadOffset (timestampFlag (byteAt b 4)), etype := e,
    count := elementCount (bufferStride b) (byteAt b 4) e }

/-- R146: the record of row `r` of a buffer. -/
def recordOf (s : State) (b : List Byte) (e : EType) (r : Nat) : Record :=
  { ts := rowIndex s.decodeOperands (layoutOf b e) b r
    kind := if s.keepKind then kindOf (byteAt b (r * bufferStride b)) else none
    payload := rowPayload (layoutOf b e) b r }

/-- R140: the table of a buffer with element type `e`. -/
def tableOf (s : State) (b : List Byte) (e : EType) : Table :=
  { indexKind := indexKindOf s.decodeOperands (timestampFlag (byteAt b 4)), etype := some e,
    ncols := elementCount (bufferStride b) (byteAt b 4) e, hasKind := s.keepKind,
    rows := (List.range (b.length / bufferStride b)).map (recordOf s b e) }

/-- R103, R134: the payload offset of a tag. -/
theorem payloadOffset_eq (stamped : Bool) : payloadOffset stamped = if stamped then 11 else 5 := rfl

/-- R141: the header of an accepted buffer passes all its tests. -/
theorem parseHeader_of_accepts {s : State} {b : List Byte} {e : EType} (h : DecodeAccepts s b e) :
    parseHeader s.decodeOperands b = .ok (layoutOf b e) := by
  obtain ⟨header, addr, type, expType, room, len, cols, -⟩ := h
  have fits : (layoutOf b e).off + 1 ≤ (layoutOf b e).stride := by
    simp only [layoutOf, payloadOffset_eq]
    split at room <;> simp_all
  exact (parseHeader_eq_ok ..).2
    ⟨header, addr, type, expType, fits, len, cols, rfl, rfl, rfl, rfl, rfl, rfl⟩

/-- R139: every row of an accepted buffer has a kind when kinds are kept. -/
theorem decodeRow_of_accepts {s : State} {b : List Byte} {e : EType} (h : DecodeAccepts s b e) {r : Nat}
    (hr : r < b.length / bufferStride b) : decodeRow s.decodeOperands (layoutOf b e) b r = .ok (recordOf s b e r) := by
  obtain ⟨-, -, -, -, -, -, -, kinds⟩ := h
  refine (decodeRow_eq_ok ..).2 ⟨(rowKind_eq_ok ..).2 ?_, rfl, rfl⟩
  change if s.keepKind then (kindOf (byteAt b (r * bufferStride b))).isSome ∧ _ else _
  cases keep : s.keepKind
  · simp [recordOf, keep]
  · simp [recordOf, keep, (kindOf_isSome _).2 (kinds keep r hr), kindAddr, frameAddr, layoutOf]

/-- R146: DECODE's body on an accepted buffer. -/
theorem decodeBuffer_of_accepts {s : State} {b : List Byte} {e : EType} (h : DecodeAccepts s b e) :
    decodeBuffer s.decodeOperands b = .ok { table := tableOf s b e, header := some (headerOf b).fields } := by
  have nonempty : b ≠ [] := List.ne_nil_of_length_pos (by have := h.1; omega)
  refine (decodeBuffer_eq_ok _ _ _ nonempty).2 ⟨layoutOf b e, _, parseHeader_of_accepts h, ?_, rfl⟩
  rw [List.map_map]
  exact List.map_congr_left fun r hr => decodeRow_of_accepts h (List.mem_range.1 hr)

/-- R137: the index of a row, read by weighing bytes. -/
theorem rowIndex_layoutOf (s : State) (b : List Byte) (e : EType) (r : Nat) :
    rowIndex s.decodeOperands (layoutOf b e) b r =
      if timestampFlag (byteAt b 4) then
        some (s.epoch.getD 0 +
          ((wireNat b (r * bufferStride b + 5) 4 : Rat) + (wireNat b (r * bufferStride b + 9) 2 : Rat) / 31250))
      else none := by
  have seconds : rowSeconds b (bufferStride b) r =
      (wireNat b (r * bufferStride b + 5) 4 : Rat) + (wireNat b (r * bufferStride b + 9) 2 : Rat) / 31250 := by
    rw [rowSeconds, leNat_memRead, leNat_memRead, Config.tick, mul_one_div]
    rfl
  simp only [rowIndex, layoutOf, State.decodeOperands, seconds]
  cases s.epoch <;> simp

/-- R137 to R139: the record of a row is what the row holds. -/
theorem rowDecoded_recordOf (s : State) (b : List Byte) (e : EType) (r : Nat) :
    RowDecoded s b e r (recordOf s b e r) := by
  refine ⟨rowIndex_layoutOf s b e r, rfl, rowPayload_length .., fun c p hp => ?_⟩
  obtain ⟨-, rfl⟩ := (getElem?_map_range_eq_some ..).1 hp
  exact leNat_memRead ..

/-- R137 to R140: the table of a buffer is what its frames hold. -/
theorem tableDecoded_tableOf (s : State) (b : List Byte) (e : EType) : TableDecoded s b e (tableOf s b e) := by
  refine ⟨rfl, rfl, rfl, rfl, by simp [tableOf], fun r row hrow => ?_⟩
  obtain ⟨-, rfl⟩ := (getElem?_map_range_eq_some ..).1 hrow
  exact rowDecoded_recordOf s b e r

/-! ### The rows that DECODE runs -/

/-- R45, log 1: the TAG and KIND rows write what DECODE writes. -/
theorem destsOf_of_format {i : Instr} (h : i.format ≠ .cmd) : destsOf i = [.tbl, .hdr] := by
  cases i <;> simp_all [Instr.format, destsOf]

/-- R146, log 1: the rows that write `TBL` and `HDR` decode the buffer they see. -/
theorem resultOf_of_dests {i : Instr} (h : destsOf i = [.tbl, .hdr]) (s : State) :
    resultOf i s = (operand (bufferSeen i s) >>= decodeBuffer s.decodeOperands).map .decoded := by
  cases i <;> cases h <;> rfl

/-- R140: what such a row leaves when it accepts the buffer it sees. -/
theorem exec_of_accepts {i : Instr} {s : State} {b : List Byte} {e : EType} (row : destsOf i = [.tbl, .hdr])
    (seen : bufferSeen i s = some b) (h : DecodeAccepts s b e) :
    exec i s = .next { s with tbl := some (tableOf s b e), hdr := headerOf b, status := okAfter s.status false } := by
  have body : resultOf i s = .ok (.decoded { table := tableOf s b e, header := some (headerOf b).fields }) := by
    rw [resultOf_of_dests row, seen, operand_some, ok_bind, decodeBuffer_of_accepts h]
    rfl
  refine exec_of_resultOf_ok ?_ body
  rintro rfl
  cases row

/-- R122, log 1: such a row is DECODE when it sees the buffer as it is. -/
theorem exec_eq_decode {i : Instr} {s : State} (row : destsOf i = [.tbl, .hdr]) (seen : bufferSeen i s = s.ibuf) :
    exec i s = exec .decode s := by
  have notEncode : i ≠ .encode := by
    rintro rfl
    cases row
  rw [exec_eq, exec_eq, if_neg (by simp [notEncode]), if_neg (by simp), runOf, runOf, resultOf_of_dests row,
    resultOf_of_dests rfl, row, seen]
  rfl

theorem bufferSeen_of_tag {i : Instr} (h : i.format = .tag) (s : State) :
    bufferSeen i s = withHeaderByte s.ibuf 4 (encode i) := by
  rw [bufferSeen, h]

theorem bufferSeen_of_kind {i : Instr} (h : i.format = .kind) (s : State) :
    bufferSeen i s = withHeaderByte s.ibuf 0 (encode i) := by
  rw [bufferSeen, h]

/-- Settles O6: the row's byte is the one that stands in the header, so the row sees the buffer as it is. -/
theorem stepRunsTheFrameRows : Obligations.StepRunsTheFrameRows := by
  intro s rest b i host buffer
  have decode : step s = exec .decode (popAction rest s) := step_command host rfl
  rw [decode]
  constructor
  · intro _ selected
    obtain ⟨tag, byte⟩ := (decodeTag_eq_some ..).1 selected
    refine (exec_eq_decode (destsOf_of_format (by simp [tag])) ?_).symm
    simp [bufferSeen_of_tag tag, byte, withHeaderByte, buffer, set_byteAt]
  · intro _ selected
    obtain ⟨kind, byte⟩ := (decodeKind_eq_some ..).1 selected
    refine (exec_eq_decode (destsOf_of_format (by simp [kind])) ?_).symm
    simp [bufferSeen_of_kind kind, byte, withHeaderByte, buffer, set_byteAt]

/-- Settles O28: the row sees `IBUF` with its tag byte at offset 4, whose flag is the row's field. -/
theorem tagRowsSelectTheType : Obligations.TagRowsSelectTheType := by
  intro e stamped s b buffer accepts
  have tag := format_tagInstr e stamped
  have seen : bufferSeen (tagInstr e stamped) s = some (b.set 4 (tagByte e stamped)) := by
    rw [bufferSeen_of_tag tag, encode_tagInstr, buffer, withHeaderByte, Option.map_some]
  have header : 5 ≤ b.length := by simpa only [List.length_set] using accepts.1
  have flag : timestampFlag (byteAt (b.set 4 (tagByte e stamped)) 4) = stamped := by
    rw [byteAt_set b _ (by omega), if_pos rfl, timestampFlag_tagByte]
  refine ⟨_, exec_of_accepts (destsOf_of_format (by simp [tag])) seen accepts, tableDecoded_tableOf .., rfl, ?_⟩
  rw [tableOf, flag, indexKindOf]
  cases stamped <;> cases s.decodeOperands.epoch <;> simp

/-- R140: a kind byte is no part of the header registers. -/
theorem headerOf_set_zero (b : List Byte) (v : Byte) : headerOf (b.set 0 v) = headerOf b := by
  cases b <;> rfl

/-- Settles O29: the row sees `IBUF` with its kind byte at offset 0, which is the kind byte of row 0. -/
theorem kindRowsSelectTheKind : Obligations.KindRowsSelectTheKind := by
  intro k e s b buffer accepts
  have kind := format_kindInstr k
  have seen : bufferSeen (kindInstr k) s = some (b.set 0 (kindCode k)) := by
    rw [bufferSeen_of_kind kind, encode_kindInstr, buffer, withHeaderByte, Option.map_some]
  have header : 5 ≤ b.length := by simpa only [List.length_set] using accepts.1
  have first : byteAt (b.set 0 (kindCode k)) 0 = kindCode k := by rw [byteAt_set b _ (by omega), if_pos rfl]
  have run := exec_of_accepts (destsOf_of_format (by simp [kind])) seen accepts
  have decoded := tableDecoded_tableOf s (b.set 0 (kindCode k)) e
  rw [headerOf_set_zero] at run
  refine ⟨_, run, decoded, fun row hrow => ?_⟩
  obtain ⟨-, -, -, -, -, rows⟩ := decoded
  obtain ⟨-, rowKind, -⟩ := rows 0 row hrow
  rw [rowKind, Nat.zero_mul, first, kindOf_kindCode]

end Sys2Proof.Proofs
end

section
/-! PROOF. 40_message_decode.md: DECODE of the empty buffer and of an accepted one (R131 to R140), its faults in the
order of R141, and what it does not read (R142, R143). -/

namespace Sys2Proof.Proofs

open Sys2Proof.Machine

/-! ### What DECODE's body says of DECODE -/

/-- R146: on a valid `IBUF`, DECODE's result is that of the bytes. -/
theorem resultOf_decode {s : State} {b : List Byte} (buffer : s.ibuf = some b) :
    resultOf .decode s = (decodeBuffer s.decodeOperands b).map .decoded := by
  rw [resultOf_of_dests rfl, show bufferSeen .decode s = s.ibuf from rfl, buffer, operand_some, ok_bind]

/-- R266: DECODE reports what its body raises. -/
theorem faultsWith_of_decodeBuffer_error {s : State} {b : List Byte} {f : Raise} (buffer : s.ibuf = some b)
    (h : decodeBuffer s.decodeOperands b = .error f) : FaultsWith .decode s f.code.num f.exp f.act :=
  faultsWith_of_resultOf_error nofun (by rw [resultOf_decode buffer, h]; rfl)

/-- Settles O23: the body of an empty buffer makes no test. -/
theorem decodeOfEmptyBuffer : Obligations.DecodeOfEmptyBuffer := by
  intro s buffer
  have body : resultOf .decode s = .ok (.decoded { table := emptyTable s.decodeOperands, header := none }) := by
    rw [resultOf_decode buffer, decodeBuffer_nil]
    rfl
  exact ⟨_, exec_of_resultOf_ok nofun body, rfl, rfl, rfl, rfl, returnOk_commit_sameOutside false _ s⟩

/-- Settles O24: on a buffer it accepts, DECODE leaves the table of the buffer's frames. -/
theorem decodeFillsTheTable : Obligations.DecodeFillsTheTable := fun s b e buffer accepts =>
  ⟨tableOf s b e, exec_of_accepts rfl buffer accepts, tableDecoded_tableOf s b e⟩

/-! ### The faults of DECODE (R141) -/

/-- R133 to R136: what the header raises: the first test that fails, those before it passed. -/
theorem parseHeader_eq_error (o : DecodeOperands) (b : List Byte) (f : Raise) :
    parseHeader o b = .error f ↔
      b.length < 5 ∧ f = ⟨.hdrTruncated, some (.int 5), some (.int b.length)⟩ ∨
      5 ≤ b.length ∧
        ((∃ a, o.expAddr = some a ∧ a ≠ byteAt b 2 ∧
          f = ⟨.addrMismatch, some (.int a.toNat), some (.int (byteAt b 2).toNat)⟩) ∨
        Admits o.expAddr (byteAt b 2) ∧
          (typeOf (byteAt b 4) = none ∧ f = ⟨.unknownType, none, some (.int (baseTag (byteAt b 4)).toNat)⟩ ∨
          ∃ e, typeOf (byteAt b 4) = some e ∧
            ((∃ d, o.expType = some d ∧ d ≠ e ∧ f = ⟨.typeMismatch, some (.etype d), some (.etype e)⟩) ∨
            Admits o.expType e ∧
              ((layoutOf b e).stride < (layoutOf b e).off + 1 ∧
                f = ⟨.strideTooSmall, some (.int ((layoutOf b e).off + 1 : Nat)), some (.int (layoutOf b e).stride)⟩ ∨
              (layoutOf b e).off + 1 ≤ (layoutOf b e).stride ∧
                ((∃ n, o.expLen = some n ∧ n ≠ (layoutOf b e).count ∧
                  f = ⟨.lenMismatch, some (.int n), some (.int (layoutOf b e).count)⟩) ∨
                Admits o.expLen (layoutOf b e).count ∧
                  ∃ n, o.ncols = some n ∧ n ≠ (layoutOf b e).count ∧
                    f = ⟨.colMismatch, some (.int n), some (.int (layoutOf b e).count)⟩))))) := by
  simp only [parseHeader, bind_eq_error, require_eq_error, require_eq_ok, expect_eq_error, expect_eq_ok,
    dispatchType_eq_error, dispatchType_eq_ok, exists_const, reduceCtorEq, and_false, or_false, not_le, Admits,
    eq_comm (b := f)]
  rfl

/-- R94: the bytes above 3 are no kinds. -/
theorem kindOf_eq_none (b : Byte) : kindOf b = none ↔ 3 < b.toNat := by
  rw [← Option.not_isSome_iff_eq_none, kindOf_isSome, not_le]

/-- R267: a loop over rows raises what its lowest raising row raises. -/
theorem collect_map_range_of_error {α : Type} {g : Nat → Except Raise α} {n r : Nat} {f : Raise} (hr : r < n)
    (before : ∀ q < r, ∃ a, g q = .ok a) (raises : g r = .error f) : collect ((List.range n).map g) = .error f := by
  induction r generalizing n g with
  | zero =>
    obtain ⟨n, rfl⟩ := Nat.exists_eq_add_one.2 hr
    rw [List.range_succ_eq_map, List.map_cons, raises, collect_cons_error]
  | succ r ih =>
    obtain ⟨n, rfl⟩ := Nat.exists_eq_add_one.2 (Nat.zero_lt_of_lt hr)
    obtain ⟨a, first⟩ := before 0 r.succ_pos
    have rest := ih (g := g ∘ Nat.succ) (Nat.lt_of_succ_lt_succ hr) (fun q hq => before (q + 1) (by omega)) raises
    rw [List.range_succ_eq_map, List.map_cons, List.map_map, first, collect, rest]

/-- R139: the raise of DECODE on a buffer whose header passes is that of the lowest row with a bad kind. -/
theorem decodeBuffer_of_badKind {o : DecodeOperands} {b : List Byte} {l : Layout} {r : Nat} (nonempty : b ≠ [])
    (header : parseHeader o b = .ok l) (keep : o.keepKind = true) (hr : r < l.rows)
    (bad : 3 < (byteAt b (kindAddr l.stride r)).toNat)
    (before : ∀ q < r, (byteAt b (kindAddr l.stride q)).toNat ≤ 3) :
    decodeBuffer o b = .error ⟨.badKind, none, some (.int (byteAt b (kindAddr l.stride r)).toNat)⟩ := by
  have completes : ∀ q < r, ∃ row, decodeRow o l b q = .ok row := fun q hq =>
    ⟨⟨rowIndex o l b q, kindOf (byteAt b (kindAddr l.stride q)), rowPayload l b q⟩,
      (decodeRow_eq_ok ..).2 ⟨(rowKind_eq_ok ..).2 (by simp [keep, (kindOf_isSome _).2 (before q hq)]), rfl, rfl⟩⟩
  have raises : decodeRow o l b r = .error ⟨.badKind, none, some (.int (byteAt b (kindAddr l.stride r)).toNat)⟩ :=
    (decodeRow_eq_error ..).2 ((rowKind_eq_error ..).2 ⟨keep, (kindOf_eq_none _).2 bad, rfl⟩)
  rw [decodeBuffer, if_neg nonempty, header, ok_bind, collect_map_range_of_error hr completes raises, error_bind]

/-- R136: the least stride of each format. -/
theorem payloadOffset_add_one (stamped : Bool) : payloadOffset stamped + 1 = if stamped then 12 else 6 := by
  cases stamped <;> rfl

/-- Settles O25: the header's tests one after another, then the rows. -/
theorem decodeFaultsInOrder : Obligations.DecodeFaultsInOrder := by
  intro s b buffer nonempty
  have raises {f : Raise} (h : parseHeader s.decodeOperands b = .error f) :
      FaultsWith .decode s f.code.num f.exp f.act :=
    faultsWith_of_decodeBuffer_error buffer (by rw [decodeBuffer, if_neg nonempty, h, error_bind])
  simp only [parseHeader_eq_error] at raises
  refine ⟨fun short => raises (.inl ⟨short, rfl⟩), fun header => ?_⟩
  replace raises {f : Raise} h := @raises f (.inr ⟨header, h⟩)
  refine ⟨fun a want wrong => raises (.inl ⟨a, want, wrong, rfl⟩), fun addr => ?_⟩
  replace raises {f : Raise} h := @raises f (.inr ⟨addr, h⟩)
  refine ⟨fun unknown => raises (.inl ⟨unknown, rfl⟩), fun e type => ?_⟩
  replace raises {f : Raise} h := @raises f (.inr ⟨e, type, h⟩)
  refine ⟨fun d want wrong => raises (.inl ⟨d, want, wrong, rfl⟩), fun expType => ?_⟩
  replace raises {f : Raise} h := @raises f (.inr ⟨expType, h⟩)
  refine ⟨fun off hoff small => ?_, fun least n hn => ?_⟩
  · obtain rfl : off = payloadOffset (timestampFlag (byteAt b 4)) := hoff
    exact raises (.inl ⟨small, rfl⟩)
  have room := (payloadOffset_add_one _).trans_le least
  subst hn
  replace raises {f : Raise} h := @raises f (.inr ⟨room, h⟩)
  refine ⟨fun m want wrong => raises (.inl ⟨m, want, wrong, rfl⟩), fun len => ?_⟩
  replace raises {f : Raise} h := @raises f (.inr ⟨len, h⟩)
  refine ⟨fun m want wrong => raises ⟨m, want, wrong, rfl⟩, fun cols keep r hr bad before => ?_⟩
  have passes : parseHeader s.decodeOperands b = .ok (layoutOf b e) :=
    (parseHeader_eq_ok ..).2 ⟨header, addr, type, expType, room, len, cols, rfl, rfl, rfl, rfl, rfl, rfl⟩
  exact faultsWith_of_decodeBuffer_error buffer (decodeBuffer_of_badKind nonempty passes keep hr bad before)

/-! ### What DECODE does not read (R142, R143) -/

/-- R66, R142: two buffers hold the same in the frame of row `r` before its checksum byte. -/
def SameInFrame (stride r : Nat) (b c : List Byte) : Prop :=
  ∀ p, frameAddr stride r ≤ p → p < cksumAddr stride r → byteAt b p = byteAt c p

/-- R9: equal bytes read as equal numbers. -/
theorem wireNat_congr {b c : List Byte} {a n : Nat} (same : ∀ i < n, byteAt b (a + i) = byteAt c (a + i)) :
    wireNat b a n = wireNat c a n := by
  unfold wireNat
  congr 1
  exact List.map_congr_left fun i hi => by rw [same i (List.mem_range.1 hi)]

/-- R68: a field between the start of a frame and its checksum byte reads the same. -/
theorem leNat_memRead_congr {stride r a n : Nat} {b c : List Byte} (same : SameInFrame stride r b c)
    (start : frameAddr stride r ≤ a) (stop : a + n ≤ cksumAddr stride r) :
    leNat (memRead b a n) = leNat (memRead c a n) := by
  rw [leNat_memRead, leNat_memRead]
  exact wireNat_congr fun i hi => same (a + i) (by omega) (by omega)

/-- R132 to R136: the header's tests see the length and the five header bytes only. -/
theorem parseHeader_congr (o : DecodeOperands) {b c : List Byte} (length : b.length = c.length)
    (header : ∀ p < 5, byteAt b p = byteAt c p) : parseHeader o b = parseHeader o c := by
  simp only [parseHeader, length, header 1 (by omega), header 2 (by omega), header 4 (by omega)]

/-- R142: a row's record is a function of its frame without the checksum byte. -/
theorem decodeRow_congr {o : DecodeOperands} {b c : List Byte} {l : Layout} {r : Nat} (h : parseHeader o b = .ok l)
    (hr : r < l.rows) (same : SameInFrame l.stride r b c) : decodeRow o l b r = decodeRow o l c r := by
  obtain ⟨-, -, inFrame⟩ := decodeAddressesAreInBounds o b l h
  obtain ⟨kindInFrame, timeInFrame, elemInFrame, -⟩ := inFrame r hr
  have kind : rowKind o l b r = rowKind o l c r := by
    simp only [rowKind, same (kindAddr l.stride r) (by simp [kindAddr]) kindInFrame]
  have index : rowIndex o l b r = rowIndex o l c r := by
    cases stamped : l.timestamped with
    | false => simp [rowIndex, stamped]
    | true =>
      obtain ⟨secondsInFrame, ticksInFrame⟩ := timeInFrame stamped
      simp only [rowIndex, rowSeconds, leNat_memRead_congr same (by simp [secondsAddr]) secondsInFrame,
        leNat_memRead_congr same (by simp [ticksAddr]) ticksInFrame]
  have payload : rowPayload l b r = rowPayload l c r :=
    List.map_congr_left fun i hi =>
      leNat_memRead_congr same (by simp [elemAddr, Nat.add_assoc]) (elemInFrame i (List.mem_range.1 hi))
  simp only [decodeRow, kind, index, payload]

/-- R142, R143: DECODE's body is a function of the length, the header and the frames without their checksum bytes. -/
theorem decodeBuffer_congr (o : DecodeOperands) {b c : List Byte} (length : b.length = c.length)
    (header : ∀ p < 5, byteAt b p = byteAt c p)
    (frames : ∀ r < b.length / bufferStride b, SameInFrame (bufferStride b) r b c) :
    decodeBuffer o b = decodeBuffer o c := by
  have empty : b = [] ↔ c = [] := by rw [← List.length_eq_zero_iff, length, List.length_eq_zero_iff]
  rw [decodeBuffer, decodeBuffer, ← parseHeader_congr o length header]
  cases h : parseHeader o b with
  | error f => simp [empty]
  | ok l =>
    obtain ⟨-, -, -, -, -, -, -, stride, rows, -⟩ := (parseHeader_eq_ok o b l).1 h
    rw [← show l.stride = bufferStride b from stride, ← rows] at frames
    have each : (List.range l.rows).map (decodeRow o l b) = (List.range l.rows).map (decodeRow o l c) :=
      List.map_congr_left fun r hr => decodeRow_congr h (List.mem_range.1 hr) (frames r (List.mem_range.1 hr))
    simp only [empty, ok_bind, each, header 2 (by omega), header 3 (by omega)]

/-- R66: the places of a frame before its checksum byte have the frame's number and are not last in it. -/
theorem div_mod_of_mem_frame {stride r p : Nat} (start : frameAddr stride r ≤ p) (stop : p < cksumAddr stride r) :
    p / stride = r ∧ p % stride ≠ stride - 1 := by
  unfold cksumAddr at stop
  unfold frameAddr at start stop
  obtain ⟨number, place⟩ := (Nat.div_mod_unique (a := p) (b := stride) (c := p - r * stride) (d := r) (by omega)).2
    ⟨by rw [Nat.mul_comm stride]; omega, by omega⟩
  exact ⟨number, by omega⟩

/-- R42: with one result from both buffers, DECODE ends alike but for `IBUF` itself. -/
theorem runOf_decode_ibuf {s : State} {b c : List Byte} (buffer : s.ibuf = some b)
    (same : decodeBuffer s.decodeOperands b = decodeBuffer s.decodeOperands c) :
    runOf .decode { s with ibuf := some c } = { runOf .decode s with ibuf := some c } := by
  have result : resultOf .decode { s with ibuf := some c } = resultOf .decode s := by
    rw [resultOf_decode rfl, resultOf_decode buffer, same]
    rfl
  rw [runOf, runOf, result, resultOf_decode buffer]
  cases decodeBuffer s.decodeOperands b <;> rfl

/-- Settles O26: both buffers give DECODE's body one result. -/
theorem decodeIgnoresChecksumsAndTrailingBytes : Obligations.DecodeIgnoresChecksumsAndTrailingBytes := by
  intro s t b c buffer length header frames run
  have same : decodeBuffer s.decodeOperands b = decodeBuffer s.decodeOperands c :=
    decodeBuffer_congr _ length header fun r hr p start stop => by
      obtain ⟨number, place⟩ := div_mod_of_mem_frame start stop
      exact frames p (number ▸ hr) place
  rw [eq_runOf_of_exec run, exec_eq, if_neg (by simp), runOf_decode_ibuf buffer same]

end Sys2Proof.Proofs
end

section
/-! PROOF. 10_state.md section 3 and 41_message_encode.md section 2: the coercion of an element keeps its value (R30,
R164). -/

namespace Sys2Proof.Proofs

open Sys2Proof.Machine

/-! ### Values and patterns of the integer types (R30, R164) -/

theorem isInteger_iff (e : EType) : isInteger e = true ↔ e ≠ .f32 := by cases e <;> simp [isInteger]

/-- R30: the bits of an element are those of its bytes. -/
theorem two_pow_elemBits (e : EType) : 2 ^ elemBits e = 256 ^ e.size := by rw [elemBits, Nat.pow_mul]

/-- R164: the least value computed by the block is the one of the table. -/
theorem minValue_eq_leastOf (e : EType) : minValue e = leastOf e := by cases e <;> rfl

/-- R164: the greatest value computed by the block is the one of the table. -/
theorem maxValue_eq_greatestOf {e : EType} (integer : e ≠ .f32) : maxValue e = greatestOf e := by
  cases e with
  | f32 => contradiction
  | _ => rfl

/-- R30: a signed type has as many negative values as others, an unsigned one none. -/
theorem range_of_integer {e : EType} (integer : e ≠ .f32) :
    (isSigned e = true ∧ leastOf e = -(greatestOf e + 1) ∧ 2 * (greatestOf e + 1) = 256 ^ e.size) ∨
      (isSigned e = false ∧ leastOf e = 0 ∧ greatestOf e + 1 = 256 ^ e.size) := by
  cases e <;> simp [isSigned, leastOf, greatestOf, EType.size] at integer ⊢

/-- R30: the block reads a pattern of an integer type as its value. -/
theorem patternValue_eq_valueOf {e : EType} (integer : e ≠ .f32) {p : Nat} (fits : p < 256 ^ e.size) :
    patternValue e p = valueOf e p := by
  have top := maxValue_eq_greatestOf integer
  have bits : (2 : Int) ^ elemBits e = 256 ^ e.size := mod_cast two_pow_elemBits e
  have width : (p : Int) < 256 ^ e.size := mod_cast fits
  rcases range_of_integer integer with ⟨signed, -, -⟩ | ⟨unsigned, -, size⟩
  · have half : (p < 2 ^ (elemBits e - 1)) ↔ ¬ greatestOf e < p := by
      rw [← top, maxValue, if_pos signed, Int.sub_lt_iff, Int.lt_add_one_iff, not_le]
      exact_mod_cast Iff.rfl
    simp only [patternValue, signed, signExtend, valueOf, half, if_true, ite_not, bits]
  · have atMost : (p : Int) ≤ greatestOf e := Int.lt_add_one_iff.1 (size ▸ width)
    simp only [patternValue, unsigned, valueOf, Bool.false_eq_true, if_false, if_neg atMost.not_gt]

/-- R164: the pattern written for a value is its remainder at the type's width. -/
theorem valuePattern_cast (e : EType) (v : Int) : (valuePattern e v : Int) = v % 256 ^ e.size := by
  have bits : (2 : Int) ^ elemBits e = 256 ^ e.size := mod_cast two_pow_elemBits e
  rw [valuePattern, bits, Int.toNat_of_nonneg (Int.emod_nonneg v (by positivity))]

theorem valuePattern_lt (e : EType) (v : Int) : valuePattern e v < 256 ^ e.size := by
  have below := Int.emod_lt_of_pos v (b := 256 ^ e.size) (by positivity)
  rw [← valuePattern_cast] at below
  exact_mod_cast below

/-- R30, R164: a value in the range of a type is read back from the pattern written for it. -/
theorem valueOf_valuePattern {e : EType} (integer : e ≠ .f32) {v : Int} (low : leastOf e ≤ v)
    (high : v ≤ greatestOf e) : valueOf e (valuePattern e v) = v := by
  rw [valueOf, valuePattern_cast]
  have range := range_of_integer integer
  generalize (256 : Int) ^ e.size = modulus at *
  rcases le_or_gt 0 v with nonneg | neg
  · rw [Int.emod_eq_of_lt nonneg (by omega), if_neg (by omega)]
  · have wrapped : v % modulus = v + modulus := by
      rw [← Int.add_emod_right, Int.emod_eq_of_lt (by omega) (by omega)]
    rw [wrapped, if_pos (by omega)]
    omega

/-- R164: a pattern of the source type, changed or kept, is one of the target type. -/
theorem coercePattern_lt {src dst : EType} {p : Nat} (fits : p < 256 ^ src.size) :
    coercePattern src dst p < 256 ^ dst.size := by
  unfold coercePattern
  split
  next same => exact same ▸ fits
  next => exact valuePattern_lt dst _

/-- Settles O35: the value is in the target's range, so its pattern there reads back as it. -/
theorem coercionKeepsValues : Obligations.CoercionKeepsValues := by
  intro src dst p hsrc hdst fits low high
  refine ⟨coercePattern_lt fits, ?_⟩
  unfold coercePattern
  split
  next same => rw [same]
  next => rw [patternValue_eq_valueOf hsrc fits, valueOf_valuePattern hdst low high]

/-- R164: on patterns of the source type, the block's test is that no value changes. -/
theorem coercible_iff {src dst : EType} {rows : List Record}
    (fits : ∀ row ∈ rows, ∀ p ∈ row.payload, p < 256 ^ src.size) :
    coercible src dst rows = true ↔ CoercionFits src dst rows := by
  simp only [coercible, CoercionFits, Bool.or_eq_true, beq_iff_eq, Bool.and_eq_true, isInteger_iff, List.all_eq_true,
    decide_eq_true_eq, and_assoc]
  refine or_congr_right (and_congr_right fun hsrc => and_congr_right fun hdst => ?_)
  refine forall₂_congr fun row hrow => forall₂_congr fun p hp => ?_
  rw [minValue_eq_leastOf, maxValue_eq_greatestOf hdst, patternValue_eq_valueOf hsrc (fits row hrow p hp)]

end Sys2Proof.Proofs
end

section
/-! PROOF. 20_memory.md sections 2 and 5: reads of a buffer that is put together from parts (R10, R66). -/

namespace Sys2Proof.Proofs

open Sys2Proof.Machine

theorem memRead_zero_length (b : List Byte) : memRead b 0 b.length = b := by simp [memRead]

/-- R66: a place of one size before the end of `n` of them leaves room for itself. -/
theorem mul_add_le_mul {c n : Nat} (hc : c < n) (size : Nat) : c * size + size ≤ n * size :=
  Nat.succ_mul c size ▸ Nat.mul_le_mul_right size hc

/-- R10: a read is two reads, one behind the other. -/
theorem memRead_add (b : List Byte) (a m n : Nat) : memRead b a (m + n) = memRead b a m ++ memRead b (a + m) n := by
  simp [memRead, List.take_add, List.drop_drop]

theorem memRead_append_left {b : List Byte} (c : List Byte) {a n : Nat} (inside : a + n ≤ b.length) :
    memRead (b ++ c) a n = memRead b a n := by
  rw [memRead, memRead, List.drop_append_of_le_length (by omega),
    List.take_append_of_le_length (by rw [List.length_drop]; omega)]

theorem memRead_append_right (b c : List Byte) (a n : Nat) : memRead (b ++ c) (b.length + a) n = memRead c a n := by
  rw [memRead, memRead, List.drop_length_add_append]

/-- R66: a field between two other parts is read at the length of the part before it. -/
theorem memRead_field (before field after : List Byte) :
    memRead (before ++ field ++ after) before.length field.length = field := by
  rw [memRead_append_left after (by simp), ← Nat.add_zero before.length, memRead_append_right, memRead_zero_length]

/-- R10: a read within what was read. -/
theorem memRead_memRead (b : List Byte) {a n i k : Nat} (inside : i + k ≤ n) :
    memRead (memRead b a n) i k = memRead b (a + i) k := by
  rw [memRead, memRead, memRead, List.drop_take, List.drop_drop, List.take_take, Nat.min_eq_left (by omega)]

/-- R66: parts of one length are read at the multiples of it. -/
theorem memRead_flatten {parts : List (List Byte)} {n : Nat} (even : ∀ part ∈ parts, part.length = n) {r : Nat}
    {part : List Byte} (hr : parts[r]? = some part) : memRead parts.flatten (r * n) n = part := by
  induction parts generalizing r with
  | nil => simp at hr
  | cons first rest ih =>
    obtain ⟨rfl, evenRest⟩ := List.forall_mem_cons.1 even
    rw [List.flatten_cons]
    cases r with
    | zero =>
      obtain rfl : first = part := by simpa using hr
      simpa using memRead_field [] first rest.flatten
    | succ r =>
      rw [Nat.succ_mul, Nat.add_comm, memRead_append_right]
      exact ih evenRest hr

/-- R66: reading part by part gives the whole. -/
theorem flatten_memRead (b : List Byte) (a n k : Nat) :
    ((List.range k).map fun c => memRead b (a + c * n) n).flatten = memRead b a (k * n) := by
  induction k with
  | zero => simp [memRead]
  | succ k ih => rw [List.range_succ, List.map_append, List.flatten_append, ih, Nat.succ_mul, memRead_add]; simp

theorem length_flatten_of_even {parts : List (List Byte)} {n : Nat} (even : ∀ part ∈ parts, part.length = n) :
    parts.flatten.length = parts.length * n := by
  rw [List.length_flatten, List.map_congr_left even, List.map_const', List.sum_replicate_nat]

/-- R9, R66: a number within a frame is the number at its place in the buffer. -/
theorem wireNat_memRead (b : List Byte) {a n i k : Nat} (inside : i + k ≤ n) :
    wireNat (memRead b a n) i k = wireNat b (a + i) k := by
  rw [← leNat_memRead, ← leNat_memRead, memRead_memRead b inside]

end Sys2Proof.Proofs
end

section
/-! PROOF. 41_message_encode.md sections 1 to 3: the plan and the frames of ENCODE, on a table of R28 (R161 to R169). -/

namespace Sys2Proof.Proofs

open Sys2Proof.Machine

/-! ### What ENCODE's body says of ENCODE -/

/-- R171: on a valid `TBL`, ENCODE's result is that of the table. -/
theorem resultOf_encode {s : State} {t : Table} (table : s.tbl = some t) :
    resultOf .encode s = (encodeTable s.encodeOperands t).map .encoded := by
  rw [resultOf, table, operand_some, ok_bind]

theorem tableSound_of_wellFormed {s : State} {t : Table} (table : s.tbl = some t) (wf : t.wellFormed = true) :
    tableSound s = true := by
  rw [tableSound, table]
  exact wf

/-- R170, R268: ENCODE writes what its body answers. -/
theorem exec_encode_of_ok {s : State} {t : Table} {data : List Byte} (table : s.tbl = some t)
    (wf : t.wellFormed = true) (body : encodeTable s.encodeOperands t = .ok data) :
    exec .encode s = .next { s with obuf := some data, status := okAfter s.status false } :=
  exec_of_resultOf_ok (fun _ => tableSound_of_wellFormed table wf) (p := .encoded data)
    (by rw [resultOf_encode table, body]; rfl)

/-- R266: ENCODE reports what its body raises. -/
theorem faultsWith_of_encodeTable_error {s : State} {t : Table} {f : Raise} (table : s.tbl = some t)
    (wf : t.wellFormed = true) (body : encodeTable s.encodeOperands t = .error f) :
    FaultsWith .encode s f.code.num f.exp f.act :=
  faultsWith_of_resultOf_error (fun _ => tableSound_of_wellFormed table wf) (by rw [resultOf_encode table, body]; rfl)

/-- R261, log 10: an ENCODE that answers with code 0 had a table of R28, on which its body completed. -/
theorem encodeTable_of_exec_ok {s u : State} {t : Table} (table : s.tbl = some t) (run : exec .encode s = .next u)
    (ok : u.status.code = 0) : t.wellFormed = true ∧ ∃ data, encodeTable s.encodeOperands t = .ok data := by
  have sound : tableSound s = true := by
    rw [exec_eq] at run
    split at run
    · cases run
    · simp_all
  refine ⟨(tableSound_iff s).1 sound t table, ?_⟩
  cases body : encodeTable s.encodeOperands t with
  | ok data => exact ⟨data, rfl⟩
  | error f =>
    have raised : resultOf .encode s = .error f := by rw [resultOf_encode table, body]; rfl
    rw [eq_runOf_of_exec run, runOf, raised, finish_error] at ok
    exact absurd ((code_num_eq_zero f.code).1 ok) (code_ne_ok_of_resultOf raised)

/-- Settles O31: the body of a table without rows makes no test. -/
theorem encodeOfEmptyTable : Obligations.EncodeOfEmptyTable := fun _ t table empty =>
  exec_encode_of_ok table (by simp [Table.wellFormed, empty]) (by simp [encodeTable, empty])

/-! ### The plan of the frames (R162 to R166) -/

/-- R28, R30: what a row of a table with an element type is. -/
theorem fits_iff {t : Table} {src : EType} (type : t.etype = some src) (row : Record) :
    Record.fits t row = true ↔
      row.ts.isSome = stampedBy t.indexKind ∧ row.kind.isSome = t.hasKind ∧ row.payload.length = t.ncols ∧
        ∀ p ∈ row.payload, p < 256 ^ src.size := by
  simp [Record.fits, type, stampedBy, and_assoc]

theorem fits_of_mem {t : Table} (wf : t.wellFormed = true) {row : Record} (hrow : row ∈ t.rows) :
    Record.fits t row = true := List.all_eq_true.1 wf row hrow

/-- R164: on a table of R28, the block's test is that no value changes. -/
theorem coercible_iff_of_wellFormed {t : Table} {src dst : EType} (wf : t.wellFormed = true)
    (type : t.etype = some src) : coercible src dst t.rows = true ↔ CoercionFits src dst t.rows := by
  refine coercible_iff fun row hrow => ?_
  obtain ⟨-, -, -, patterns⟩ := (fits_iff type row).1 (fits_of_mem wf hrow)
  exact patterns

/-- R163: how the timestamps of a table become seconds when `EPOCH` fits. -/
def timingFor (epoch : Option Rat) : IndexKind → Timing
  | .positional => .untimed
  | .seconds => .seconds
  | .moment => .since (epoch.getD 0)

theorem timingOf_eq_ok (epoch : Option Rat) (k : IndexKind) (timing : Timing) :
    timingOf epoch k = .ok timing ↔ EpochFits epoch k ∧ timing = timingFor epoch k := by
  cases epoch <;> cases k <;> simp [timingOf, timingFor, EpochFits, eq_comm]

@[simp] theorem timingFor_stamped (epoch : Option Rat) (k : IndexKind) :
    (timingFor epoch k).stamped = stampedBy k := by
  cases k <;> rfl

/-- R163: `T_r` is the row's `ts`, less the epoch where there is one. -/
theorem timingFor_secondsOf {epoch : Option Rat} {k : IndexKind} (fits : EpochFits epoch k)
    (stamped : stampedBy k = true) (ts : Rat) : (timingFor epoch k).secondsOf ts = ts - epoch.getD 0 := by
  cases epoch <;> cases k <;> simp_all [timingFor, Timing.secondsOf, EpochFits, stampedBy]

/-- R165, R166: what the frames of an accepted table share. -/
def shapeOf (s : State) (t : Table) (src : EType) : FrameShape :=
  { timing := timingFor s.epoch t.indexKind, src := src, dst := targetType s src
    stride := tableStride t (targetType s src) }

@[simp] theorem shapeOf_dst (s : State) (t : Table) (src : EType) : (shapeOf s t src).dst = targetType s src := rfl

/-- R162: a kind is given exactly once when it is not given twice and not left out. -/
theorem kind_given_once (column constant : Bool) :
    ¬ (column = true ∧ constant = true) ∧ (column = true ∨ constant = true) ↔ constant = !column := by
  cases column <;> cases constant <;> simp

/-- R162 to R166: the plan of a table of R28 passes exactly when the tests of the rules do. -/
theorem planFrames_eq_ok_iff {s : State} {t : Table} {src : EType} (wf : t.wellFormed = true)
    (type : t.etype = some src) (f : FrameShape) :
    planFrames s.encodeOperands t = .ok f ↔
      (s.encKind.isSome = (!t.hasKind) ∧ EpochFits s.epoch t.indexKind ∧
        CoercionFits src (targetType s src) t.rows ∧ tableStride t (targetType s src) ≤ 257) ∧ f = shapeOf s t src := by
  obtain ⟨timing, src', dst, stride⟩ := f
  rw [planFrames_eq_ok, ← and_assoc, ← and_assoc, kind_given_once, timingOf_eq_ok, type,
    ← coercible_iff_of_wellFormed wf type]
  simp only [shapeOf, FrameShape.mk.injEq, State.encodeOperands, Option.getD_some]
  constructor
  · rintro ⟨⟨kind, epoch, rfl⟩, coerces, short, rfl, rfl, rfl⟩
    rw [timingFor_stamped] at short ⊢
    exact ⟨⟨kind, epoch, coerces, short⟩, rfl, rfl, rfl, rfl⟩
  · rintro ⟨⟨kind, epoch, coerces, short⟩, rfl, rfl, rfl, rfl⟩
    rw [timingFor_stamped]
    exact ⟨⟨kind, epoch, rfl⟩, coerces, short, rfl, rfl, rfl⟩

/-! ### The frame of a row (R167 to R169) -/

/-- R167: the seconds of a row's time fit in four bytes, where it is written. -/
def TimeFits (s : State) (t : Table) (row : Record) : Prop :=
  stampedBy t.indexKind = true → 0 ≤ (rowTime s row).floor ∧ (rowTime s row).floor < 4294967296

/-- R167: the timestamp field of a row. -/
def rowStamp (s : State) (t : Table) (row : Record) : List Byte :=
  if stampedBy t.indexKind then leBytes (rowTime s row).floor.toNat 4 ++ leBytes (ticksOf (rowTime s row)) 2 else []

/-- R168: the header of a row's frame. -/
def rowHeader (s : State) (t : Table) (src : EType) (row : Record) : List Byte :=
  headerBytes s.encodeOperands (shapeOf s t src) (kindWritten s.encodeOperands t row)

/-- R168, R169: the frame of a row. -/
def rowFrame (s : State) (t : Table) (src : EType) (row : Record) : List Byte :=
  sealFrame (rowHeader s t src row ++ rowStamp s t row ++ payloadBytes (shapeOf s t src) row)

/-- R163, R167: the timestamp field, or its raise, by the row's time. -/
theorem stampBytes_shapeOf {s : State} {t : Table} (src : EType) (epoch : EpochFits s.epoch t.indexKind)
    (row : Record) :
    stampBytes (shapeOf s t src) row = if stampedBy t.indexKind then timestampBytes (rowTime s row) else .ok [] := by
  simp only [stampBytes, shapeOf, timingFor_stamped]
  split
  next stamped => rw [timingFor_secondsOf epoch stamped, rowTime]
  next => rfl

/-- R167, R168: a row is encoded exactly when its time fits, and then to its frame. -/
theorem encodeRow_eq_ok_iff {s : State} {t : Table} {src : EType} (epoch : EpochFits s.epoch t.indexKind)
    (row : Record) (b : List Byte) :
    encodeRow s.encodeOperands (shapeOf s t src) t row = .ok b ↔ TimeFits s t row ∧ b = rowFrame s t src row := by
  rw [encodeRow_eq_ok, stampBytes_shapeOf src epoch, TimeFits, rowFrame, rowStamp]
  split
  next stamped => simp [timestampBytes_eq_ok, stamped, rowHeader, and_assoc]
  next plain => simp [plain, rowHeader]

/-- R167: a row whose seconds do not fit raises them. -/
theorem encodeRow_of_not_timeFits {s : State} {t : Table} {src : EType} (epoch : EpochFits s.epoch t.indexKind)
    {row : Record} (wide : ¬ TimeFits s t row) :
    encodeRow s.encodeOperands (shapeOf s t src) t row =
      .error { code := .tsRange, exp := none, act := some (.int (rowTime s row).floor) } := by
  obtain ⟨stamped, outside⟩ := Classical.not_imp.1 wide
  have stampRaises := (timestampBytes_eq_error (rowTime s row) _).2 ⟨outside, rfl⟩
  rw [encodeRow, stampBytes_shapeOf src epoch, if_pos stamped, stampRaises, error_bind]

/-- R171: a loop completes exactly when every round passes, and then with the rounds' results. -/
theorem map_eq_map_ok_iff {α β : Type} {g : α → Except Raise β} {passes : α → Prop} {result : α → β}
    (round : ∀ a b, g a = .ok b ↔ passes a ∧ b = result a) (l : List α) (bs : List β) :
    l.map g = bs.map .ok ↔ (∀ a ∈ l, passes a) ∧ bs = l.map result := by
  induction l generalizing bs with
  | nil => simp
  | cons a l ih =>
    cases bs with
    | nil => simp
    | cons b bs => simp [round, ih]; tauto

/-- R160, R171: ENCODE of a table of R28 with rows completes exactly when it is accepted, with the rows' frames. -/
theorem encodeTable_eq_ok_iff {s : State} {t : Table} {src : EType} (wf : t.wellFormed = true) (rows : t.rows ≠ [])
    (type : t.etype = some src) (data : List Byte) :
    encodeTable s.encodeOperands t = .ok data ↔
      EncodeAccepts s t src ∧ data = (t.rows.map (rowFrame s t src)).flatten := by
  rw [encodeTable_eq_ok _ _ _ rows]
  simp only [planFrames_eq_ok_iff wf type]
  constructor
  · rintro ⟨_, frames, ⟨⟨kind, epoch, coerces, short⟩, rfl⟩, each, rfl⟩
    obtain ⟨times, rfl⟩ := (map_eq_map_ok_iff (encodeRow_eq_ok_iff epoch) ..).1 each
    exact ⟨⟨wf, rows, type, kind, epoch, coerces, short, fun stamped row hrow => times row hrow stamped⟩, rfl⟩
  · rintro ⟨⟨-, -, -, kind, epoch, coerces, short, times⟩, rfl⟩
    exact ⟨_, _, ⟨⟨kind, epoch, coerces, short⟩, rfl⟩,
      (map_eq_map_ok_iff (encodeRow_eq_ok_iff epoch) ..).2 ⟨fun row hrow stamped => times stamped row hrow, rfl⟩, rfl⟩

/-! ### The bytes of a row's frame -/

theorem rowHeader_length (s : State) (t : Table) (src : EType) (row : Record) :
    (rowHeader s t src row).length = 5 := rfl

theorem rowStamp_length (s : State) (t : Table) (row : Record) :
    (rowStamp s t row).length = if stampedBy t.indexKind then 6 else 0 := by
  unfold rowStamp
  split <;> simp

/-- R168: every element takes the bytes of the target type. -/
theorem payloadBytes_parts_length (f : FrameShape) (row : Record) :
    ∀ part ∈ row.payload.map fun p => leBytes (coercePattern f.src f.dst p) f.dst.size, part.length = f.dst.size := by
  simp

theorem payloadBytes_length (f : FrameShape) (row : Record) :
    (payloadBytes f row).length = row.payload.length * f.dst.size := by
  rw [payloadBytes, length_flatten_of_even (payloadBytes_parts_length f row), List.length_map]

/-- R166: the stride of a table is a payload at its format's offset and the checksum byte. -/
theorem tableStride_eq (t : Table) (dst : EType) :
    tableStride t dst = (if stampedBy t.indexKind then 11 else 5) + t.ncols * dst.size + 1 := by
  unfold tableStride
  split <;> omega

theorem six_le_tableStride (t : Table) (dst : EType) : 6 ≤ tableStride t dst := by
  unfold tableStride
  omega

/-- R166: the length of the frame of a row of the table. -/
theorem rowFrame_length {s : State} {t : Table} {src : EType} {row : Record} (width : row.payload.length = t.ncols) :
    (rowFrame s t src row).length = tableStride t (targetType s src) := by
  rw [rowFrame, sealFrame_length, List.length_append, List.length_append, rowHeader_length, rowStamp_length,
    payloadBytes_length, width, shapeOf_dst, tableStride]
  omega

/-- R169: the last byte of a frame is the sum of the others. -/
theorem sealFrame_last (body : List Byte) :
    (byteAt (sealFrame body) ((sealFrame body).length - 1)).toNat =
      (((sealFrame body).take ((sealFrame body).length - 1)).map BitVec.toNat).sum % 256 := by
  rw [sealFrame_length, Nat.add_sub_cancel, ← checksum_toNat, sealFrame, List.take_left]
  simp [byteAt]

/-- R162: the kind in the header is the row's own, or the constant one. -/
theorem kindWritten_spec {s : State} {t : Table} {row : Record} (once : s.encKind.isSome = !t.hasKind)
    (column : row.kind.isSome = t.hasKind) : KindWritten s t row (kindWritten s.encodeOperands t row) := by
  unfold KindWritten kindWritten State.encodeOperands
  cases given : t.hasKind
  · obtain ⟨k, constant⟩ := Option.isSome_iff_exists.1 (once.trans (by rw [given]; rfl))
    simp [constant]
  · obtain ⟨k, own⟩ := Option.isSome_iff_exists.1 (column.trans given)
    simp [own]

/-- R168: the timestamp field stands behind the header. -/
theorem memRead_rowFrame_stamp (s : State) (t : Table) (src : EType) (row : Record) :
    memRead (rowFrame s t src row) 5 (rowStamp s t row).length = rowStamp s t row := by
  rw [rowFrame, sealFrame, List.append_assoc _ (payloadBytes _ _)]
  exact memRead_field ..

/-- R167: the seconds and the ticks of a timestamped frame. -/
theorem wireNat_rowFrame_time {s : State} {t : Table} (src : EType) {row : Record}
    (stamped : stampedBy t.indexKind = true) (fits : TimeFits s t row) :
    (wireNat (rowFrame s t src row) 5 4 : Int) = (rowTime s row).floor ∧
      wireNat (rowFrame s t src row) 9 2 = ticksOf (rowTime s row) := by
  obtain ⟨low, high⟩ := fits stamped
  obtain ⟨atMost, -⟩ := ticksOf_eq (rowTime s row)
  have field := memRead_rowFrame_stamp s t src row
  rw [rowStamp_length, if_pos stamped] at field
  have stamp : rowStamp s t row = leBytes (rowTime s row).floor.toNat 4 ++ leBytes (ticksOf (rowTime s row)) 2 :=
    if_pos stamped
  have seconds : memRead (rowFrame s t src row) 5 4 = leBytes (rowTime s row).floor.toNat 4 := by
    rw [← memRead_memRead (a := 5) (n := 6) (i := 0) _ (by omega), field, stamp]
    rfl
  have ticks : memRead (rowFrame s t src row) 9 2 = leBytes (ticksOf (rowTime s row)) 2 := by
    rw [← memRead_memRead (a := 5) (n := 6) (i := 4) _ (by omega), field, stamp]
    rfl
  rw [← leNat_memRead, ← leNat_memRead, seconds, ticks, leNat_leBytes _ _ (by omega), leNat_leBytes _ _ (by omega)]
  exact ⟨Int.toNat_of_nonneg low, rfl⟩

/-- R134, R168: the payload stands behind the timestamp field. -/
theorem memRead_rowFrame_payload (s : State) (t : Table) (src : EType) (row : Record) :
    memRead (rowFrame s t src row) (if stampedBy t.indexKind then 11 else 5)
      (payloadBytes (shapeOf s t src) row).length = payloadBytes (shapeOf s t src) row := by
  have start : (rowHeader s t src row ++ rowStamp s t row).length = if stampedBy t.indexKind then 11 else 5 := by
    rw [List.length_append, rowHeader_length, rowStamp_length]
    split <;> rfl
  rw [← start]
  exact memRead_field ..

/-- R138, R168: each element's number in the frame is its coerced pattern. -/
theorem wireNat_rowFrame_element {s : State} {t : Table} {src : EType} {row : Record} {c p : Nat}
    (hp : row.payload[c]? = some p) (fits : p < 256 ^ src.size) :
    wireNat (rowFrame s t src row) ((if stampedBy t.indexKind then 11 else 5) + c * (targetType s src).size)
      (targetType s src).size = coercePattern src (targetType s src) p := by
  have part : (row.payload.map fun p => leBytes (coercePattern src (targetType s src) p) (targetType s src).size)[c]? =
      some (leBytes (coercePattern src (targetType s src) p) (targetType s src).size) := by
    rw [List.getElem?_map, hp, Option.map_some]
  have inside : c * (targetType s src).size + (targetType s src).size ≤
      (payloadBytes (shapeOf s t src) row).length := by
    rw [payloadBytes_length]
    exact mul_add_le_mul (List.getElem?_eq_some_iff.1 hp).1 _
  have element : memRead (payloadBytes (shapeOf s t src) row) (c * (targetType s src).size) (targetType s src).size =
      leBytes (coercePattern src (targetType s src) p) (targetType s src).size :=
    memRead_flatten (payloadBytes_parts_length (shapeOf s t src) row) part
  rw [← leNat_memRead, ← memRead_memRead _ inside, memRead_rowFrame_payload, element,
    leNat_leBytes _ _ (coercePattern_lt fits)]

/-- R164: the coerced pattern by the value it stands for. -/
theorem coercePattern_cast {src dst : EType} {rows : List Record} (coerces : CoercionFits src dst rows) {p : Nat}
    (fits : p < 256 ^ src.size) :
    (coercePattern src dst p : Int) = if dst = src then (p : Int) else valueOf src p % 256 ^ dst.size := by
  unfold coercePattern
  rcases coerces with rfl | ⟨integer, -, -⟩
  · simp
  · simp only [eq_comm (a := dst)]
    split
    · rfl
    · rw [valuePattern_cast, patternValue_eq_valueOf integer fits]

/-- R165 to R169: the frame of a row of an accepted table is what the rules say. -/
theorem frameOfRow_rowFrame {s : State} {t : Table} {src : EType} (accepts : EncodeAccepts s t src) {row : Record}
    (hrow : row ∈ t.rows) : FrameOfRow s t src row (rowFrame s t src row) := by
  obtain ⟨wf, -, type, kind, -, coerces, short, times⟩ := accepts
  obtain ⟨-, column, width, patterns⟩ := (fits_iff type row).1 (fits_of_mem wf hrow)
  have least := six_le_tableStride t (targetType s src)
  refine ⟨rowFrame_length width, ⟨_, kindWritten_spec kind column, rfl⟩, ?lengthByte, rfl, rfl, ?tag,
    fun stamped => ?time, fun c p hp => ?element, sealFrame_last _⟩
  case lengthByte =>
    change (BitVec.ofNat 8 (tableStride t (targetType s src) - 2)).toNat + 2 = _
    rw [BitVec.toNat_ofNat]
    omega
  case tag =>
    change tagByte _ (timingFor s.epoch t.indexKind).stamped = _
    rw [timingFor_stamped]
    rfl
  case time =>
    obtain ⟨seconds, ticks⟩ := wireNat_rowFrame_time src stamped fun stamped => times stamped row hrow
    exact ⟨seconds, ticks ▸ (ticksOf_eq _).2⟩
  case element =>
    have fits := patterns p (List.mem_of_getElem? hp)
    rw [wireNat_rowFrame_element hp fits, coercePattern_cast coerces fits]

/-- R168: the frames of an accepted table are all of its stride. -/
theorem rowFrames_even {s : State} {t : Table} {src : EType} (wf : t.wellFormed = true) (type : t.etype = some src) :
    ∀ frame ∈ t.rows.map (rowFrame s t src), frame.length = tableStride t (targetType s src) := by
  refine List.forall_mem_map.2 fun row hrow => ?_
  obtain ⟨-, -, width, -⟩ := (fits_iff type row).1 (fits_of_mem wf hrow)
  exact rowFrame_length width

/-- Settles O32: the frames, all of one length, stand at the multiples of it. -/
theorem encodeWritesTheFrames : Obligations.EncodeWritesTheFrames := by
  intro s t src table accepts
  obtain ⟨wf, rows, type, -⟩ := id accepts
  have even := rowFrames_even (s := s) wf type
  have body := (encodeTable_eq_ok_iff wf rows type _).2 ⟨accepts, rfl⟩
  refine ⟨_, exec_encode_of_ok table wf body, ?_, fun r row hrow => ?_⟩
  · rw [length_flatten_of_even even, List.length_map]
  · have frame : (t.rows.map (rowFrame s t src))[r]? = some (rowFrame s t src row) := by
      rw [List.getElem?_map, hrow, Option.map_some]
    rw [memRead_flatten even frame]
    exact frameOfRow_rowFrame accepts (List.mem_of_getElem? hrow)

end Sys2Proof.Proofs
end

section
/-! PROOF. 41_message_encode.md and 60_exceptions.md section 3: the faults of ENCODE in the order of R267 (R162 to
R167). -/

namespace Sys2Proof.Proofs

open Sys2Proof.Machine

/-- R162 to R166: what the plan of a table of R28 raises: the first test that fails, those before it passed. -/
theorem planFrames_eq_error {s : State} {t : Table} {src : EType} (wf : t.wellFormed = true)
    (type : t.etype = some src) (f : Raise) :
    planFrames s.encodeOperands t = .error f ↔
      t.hasKind = true ∧ s.encKind.isSome = true ∧ f = ⟨.kindAmbiguous, none, none⟩ ∨
      ¬ (t.hasKind = true ∧ s.encKind.isSome = true) ∧
        (¬ (t.hasKind = true ∨ s.encKind.isSome = true) ∧ f = ⟨.kindUnspecified, none, none⟩ ∨
        (t.hasKind = true ∨ s.encKind.isSome = true) ∧
          (timingOf s.epoch t.indexKind = .error f ∨
          EpochFits s.epoch t.indexKind ∧
            (¬ CoercionFits src (targetType s src) t.rows ∧
              f = ⟨.coerceUnsupported, some (.etype (targetType s src)), some (.etype src)⟩ ∨
            CoercionFits src (targetType s src) t.rows ∧ 257 < tableStride t (targetType s src) ∧
              f = ⟨.frameTooLong, some (.int 257), some (.int (tableStride t (targetType s src)))⟩))) := by
  rw [← coercible_iff_of_wellFormed wf type, ← not_le]
  simp only [planFrames, bind_eq_error, require_eq_error, require_eq_ok, exists_const, reduceCtorEq, and_false,
    or_false, timingOf_eq_ok, and_assoc, exists_and_left, exists_eq_left, timingFor_stamped, type, Option.getD_some,
    not_not, eq_comm (b := f)]
  rfl

/-- R163: an epoch that does not fit the index kind is reported with the index kind it asks for. -/
theorem timingOf_of_epoch {epoch : Option Rat} {k : IndexKind} (supplied : epoch.isSome = true) (other : k ≠ .moment) :
    timingOf epoch k = .error ⟨.epochIndex, some (.indexKind .moment), some (.indexKind k)⟩ := by
  obtain ⟨e, rfl⟩ := Option.isSome_iff_exists.1 supplied
  cases k with
  | moment => contradiction
  | seconds | positional => rfl

/-- R163: moments without an epoch are reported with the index kind that needs none. -/
theorem timingOf_of_moment {epoch : Option Rat} {k : IndexKind} (absent : epoch = none) (moment : k = .moment) :
    timingOf epoch k = .error ⟨.epochIndex, some (.indexKind .seconds), some (.indexKind .moment)⟩ := by
  rw [absent, moment, timingOf]

/-- R267: a loop raises what its first raising round raises. -/
theorem collect_map_of_error {α β : Type} {g : α → Except Raise β} {l : List α} {r : Nat} {a : α} {f : Raise}
    (hr : l[r]? = some a) (before : ∀ q x, q < r → l[q]? = some x → ∃ b, g x = .ok b) (raises : g a = .error f) :
    collect (l.map g) = .error f := by
  induction l generalizing r with
  | nil => simp at hr
  | cons first rest ih =>
    cases r with
    | zero =>
      obtain rfl : first = a := by simpa using hr
      rw [List.map_cons, raises, collect_cons_error]
    | succ r =>
      obtain ⟨b, passes⟩ := before 0 first r.succ_pos rfl
      have later := ih hr fun q x hq hx => before (q + 1) x (by omega) hx
      rw [List.map_cons, passes, collect, later]

/-- Settles O33: the tests of the plan one after another, then the rows. -/
theorem encodeFaultsInOrder : Obligations.EncodeFaultsInOrder := by
  intro s t src table wf rows type
  have raises {f : Raise} (h : planFrames s.encodeOperands t = .error f) :
      FaultsWith .encode s f.code.num f.exp f.act :=
    faultsWith_of_encodeTable_error table wf (by rw [encodeTable, if_neg rows, h, error_bind])
  simp only [planFrames_eq_error wf type] at raises
  refine ⟨fun column constant => raises (.inl ⟨column, constant, rfl⟩), fun column constant => ?_, fun once => ?_⟩
  · exact raises (.inr ⟨by simp [column], .inl ⟨by simp [column, constant], rfl⟩⟩)
  obtain ⟨notTwice, given⟩ := (kind_given_once t.hasKind s.encKind.isSome).2 once
  replace raises {f : Raise} h := @raises f (.inr ⟨notTwice, .inr ⟨given, h⟩⟩)
  refine ⟨fun supplied other => raises (.inl (timingOf_of_epoch supplied other)),
    fun absent moment => raises (.inl (timingOf_of_moment absent moment)), fun epoch => ?_⟩
  replace raises {f : Raise} h := @raises f (.inr ⟨epoch, h⟩)
  refine ⟨fun changes => raises (.inl ⟨changes, rfl⟩), fun coerces => ?_⟩
  refine ⟨fun long => raises (.inr ⟨coerces, long, rfl⟩), fun short stamped r row hrow outside before => ?_⟩
  have plan := (planFrames_eq_ok_iff wf type _).2 ⟨⟨once, epoch, coerces, short⟩, rfl⟩
  have wide : ¬ TimeFits s t row := fun fits => by have := fits stamped; omega
  have loop := collect_map_of_error hrow
    (fun q prev hq hprev => ⟨_, (encodeRow_eq_ok_iff epoch prev _).2 ⟨fun _ => before q prev hq hprev, rfl⟩⟩)
    (encodeRow_of_not_timeFits (src := src) epoch wide)
  exact faultsWith_of_encodeTable_error table wf (by rw [encodeTable, if_neg rows, plan, ok_bind, loop, error_bind])

end Sys2Proof.Proofs
end

section
/-! PROOF. 41_message_encode.md section 4: what ENCODE wrote, DECODE reads back (R173). -/

namespace Sys2Proof.Proofs

open Sys2Proof.Machine

/-! ### The buffer of frames that ENCODE writes -/

/-- R165 to R169: a buffer of one frame per row of a table, each at its place. -/
structure HoldsFrames (s : State) (t : Table) (src : EType) (data : List Byte) : Prop where
  length : data.length = t.rows.length * tableStride t (targetType s src)
  frame : ∀ (r : Nat) (row : Record), t.rows[r]? = some row →
    FrameOfRow s t src row
      (memRead data (r * tableStride t (targetType s src)) (tableStride t (targetType s src)))

/-- R162 to R169: an ENCODE of a table with rows that answers with code 0 accepted it and wrote its frames. -/
theorem holdsFrames_of_exec_ok {s u : State} {t : Table} {src : EType} (table : s.tbl = some t) (rows : t.rows ≠ [])
    (type : t.etype = some src) (run : exec .encode s = .next u) (ok : u.status.code = 0) :
    EncodeAccepts s t src ∧ ∃ data, u = { s with obuf := some data, status := okAfter s.status false } ∧
      HoldsFrames s t src data := by
  obtain ⟨wf, _, body⟩ := encodeTable_of_exec_ok table run ok
  obtain ⟨accepts, -⟩ := (encodeTable_eq_ok_iff wf rows type _).1 body
  obtain ⟨data, wrote, length, frame⟩ := encodeWritesTheFrames s t src table accepts
  exact ⟨accepts, data, Host.Outcome.next.inj (run.symm.trans wrote), length, frame⟩

section

variable {s : State} {t : Table} {src : EType} {data : List Byte}

/-- R132 to R135: the header DECODE sees in ENCODE's buffer. -/
theorem HoldsFrames.header (holds : HoldsFrames s t src data) (rows : t.rows ≠ []) :
    bufferStride data = tableStride t (targetType s src) ∧
      byteAt data 4 = tagByte (targetType s src) (stampedBy t.indexKind) := by
  obtain ⟨row, rest, hrows⟩ := List.exists_cons_of_ne_nil rows
  obtain ⟨-, -, lengthByte, -, -, tag, -⟩ := holds.frame 0 row (by rw [hrows]; rfl)
  have least := six_le_tableStride t (targetType s src)
  rw [byteAt_memRead _ _ _ _ (by omega), Nat.zero_mul, Nat.zero_add] at lengthByte tag
  exact ⟨lengthByte, tag⟩

/-- R103: DECODE counts the table's columns in ENCODE's frames. -/
theorem elementCount_tableStride (t : Table) (dst : EType) :
    elementCount (tableStride t dst) (tagByte dst (stampedBy t.indexKind)) dst = t.ncols := by
  have size : 0 < dst.size := by cases dst <;> decide
  rw [elementCount, timestampFlag_tagByte, tableStride_eq, Nat.add_assoc, Nat.add_sub_cancel_left, Nat.add_sub_cancel,
    Nat.mul_div_cancel _ size]

/-- R67: DECODE counts the table's rows in ENCODE's buffer. -/
theorem HoldsFrames.rowCount (holds : HoldsFrames s t src data) :
    data.length / tableStride t (targetType s src) = t.rows.length := by
  rw [holds.length, Nat.mul_div_cancel _ (by rw [tableStride_eq]; omega)]

/-- R132 to R139: DECODE without expectations accepts what ENCODE wrote. -/
theorem HoldsFrames.decodeAccepts (holds : HoldsFrames s t src data) (rows : t.rows ≠ []) {v : State}
    (addr : v.expAddr = none) (type : v.expType = none) (len : v.expLen = none) (cols : v.ncols = none) :
    DecodeAccepts v data (targetType s src) := by
  obtain ⟨stride, tag⟩ := holds.header rows
  have least := six_le_tableStride t (targetType s src)
  refine ⟨?length, .inl addr, by rw [tag, typeOf_tagByte], .inl type, ?room, .inl len, .inl cols, fun _ r hr => ?kinds⟩
  case length =>
    rw [holds.length]
    have enough := Nat.le_mul_of_pos_left (tableStride t (targetType s src)) (List.length_pos_iff.2 rows)
    omega
  case room =>
    rw [tag, timestampFlag_tagByte, stride, tableStride_eq]
    split <;> omega
  case kinds =>
    rw [stride, holds.rowCount] at hr
    obtain ⟨-, ⟨k, -, kind⟩, -⟩ := holds.frame r _ (List.getElem?_eq_getElem hr)
    rw [byteAt_memRead _ _ _ _ (by omega), Nat.add_zero] at kind
    rw [stride, kind, ← kindOf_isSome, kindOf_kindCode]
    rfl

end

/-! ### The rows that come back -/

/-- R173: a time in whole seconds and ticks is within half a tick of the time it was rounded from, and equal to it
exactly when that is a whole number of ticks. -/
theorem rounded_time (time : Rat) :
    |(time.floor : Rat) + (ticksOf time : Rat) / 31250 - time| ≤ 1 / 62500 ∧
      ((time.floor : Rat) + (ticksOf time : Rat) / 31250 = time ↔ ∃ n : Int, time * 31250 = n) := by
  obtain ⟨-, ticks, near⟩ := ticksNeverWrap time
  refine ⟨by rw [abs_sub_comm, ← sub_sub]; exact near, fun same => ?_, fun ⟨n, whole⟩ => ?_⟩
  · refine ⟨time.floor * 31250 + ticksOf time, ?_⟩
    push_cast
    linarith
  · have exact_ticks : (time - time.floor) * 31250 = ((n - time.floor * 31250 : Int) : Rat) := by
      push_cast
      linarith
    rw [exact_ticks, roundHalfEven_intCast] at ticks
    have ticks' : (ticksOf time : Rat) = ((n - time.floor * 31250 : Int) : Rat) := mod_cast ticks
    rw [ticks', ← exact_ticks]
    ring

/-- R137, R163: with `EPOCH` as ENCODE took it, DECODE finds the table's index kind. -/
theorem indexKind_of_epochFits {epoch : Option Rat} {k : IndexKind} (fits : EpochFits epoch k) :
    (if stampedBy k then (if epoch.isSome then .moment else .seconds) else .positional) = k := by
  unfold EpochFits at fits
  cases k <;> simp_all [stampedBy]

/-- R164, R168: elements read back from a frame are the coerced patterns. -/
theorem payload_of_elements {src dst : EType} {payload payload' : List Nat} {elements : Nat → Nat}
    (length : payload'.length = payload.length)
    (written : ∀ c p, payload[c]? = some p → elements c = coercePattern src dst p)
    (read : ∀ c p, payload'[c]? = some p → p = elements c) : payload' = payload.map (coercePattern src dst) := by
  refine List.ext_getElem (by simpa using length) fun c h h' => ?_
  rw [List.getElem_map, read c _ (List.getElem?_eq_getElem h), written c _ (List.getElem?_eq_getElem (length ▸ h))]

section

variable {s : State} {t : Table} {src : EType} {data : List Byte} {r : Nat} {row : Record}

/-- R173: the time read back from a row's frame. -/
theorem HoldsFrames.time (holds : HoldsFrames s t src data) (hrow : t.rows[r]? = some row)
    (stamped : stampedBy t.indexKind = true) :
    (wireNat data (r * tableStride t (targetType s src) + 5) 4 : Rat) +
        (wireNat data (r * tableStride t (targetType s src) + 9) 2 : Rat) / 31250 =
      (rowTime s row).floor + (ticksOf (rowTime s row) : Rat) / 31250 := by
  obtain ⟨-, -, -, -, -, -, time, -⟩ := holds.frame r row hrow
  obtain ⟨seconds, ticks⟩ := time stamped
  have room := tableStride_eq t (targetType s src)
  rw [if_pos stamped] at room
  rw [wireNat_memRead data (by omega)] at seconds ticks
  rw [← (ticksOf_eq _).2] at ticks
  rw [← seconds, Int.natCast_inj.1 ticks, Int.cast_natCast]

/-- R173: the pattern read back from a place of a row's frame. -/
theorem HoldsFrames.element (holds : HoldsFrames s t src data) (accepts : EncodeAccepts s t src)
    (hrow : t.rows[r]? = some row) {c p : Nat} (hp : row.payload[c]? = some p) :
    wireNat data (r * tableStride t (targetType s src) + (if stampedBy t.indexKind then 11 else 5) +
      c * (targetType s src).size) (targetType s src).size = coercePattern src (targetType s src) p := by
  obtain ⟨wf, -, type, -, -, coerces, -⟩ := accepts
  obtain ⟨-, -, width, patterns⟩ := (fits_iff type row).1 (fits_of_mem wf (List.mem_of_getElem? hrow))
  obtain ⟨-, -, -, -, -, -, -, elements, -⟩ := holds.frame r row hrow
  have inside : c * (targetType s src).size + (targetType s src).size ≤ t.ncols * (targetType s src).size := by
    rw [← width]
    exact mul_add_le_mul (List.getElem?_eq_some_iff.1 hp).1 _
  have element := elements c p hp
  rw [← coercePattern_cast coerces (patterns p (List.mem_of_getElem? hp)),
    wireNat_memRead data (by rw [tableStride_eq]; omega), ← Nat.add_assoc] at element
  exact Int.natCast_inj.1 element

/-- R173: the kind read back from a row's frame, in a table with the kind column. -/
theorem HoldsFrames.kind (holds : HoldsFrames s t src data) (hrow : t.rows[r]? = some row) (column : t.hasKind = true) :
    kindOf (byteAt data (r * tableStride t (targetType s src))) = row.kind := by
  obtain ⟨-, ⟨k, written, byte⟩, -⟩ := holds.frame r row hrow
  have least := six_le_tableStride t (targetType s src)
  rw [byteAt_memRead _ _ _ _ (by omega), Nat.add_zero] at byte
  rw [byte, kindOf_kindCode]
  rcases written with ⟨-, own⟩ | ⟨noColumn, -⟩
  · exact own.symm
  · simp [column] at noColumn

/-- R173: what DECODE reads in the frame of a row. -/
theorem HoldsFrames.rowDecoded (holds : HoldsFrames s t src data) (accepts : EncodeAccepts s t src)
    (hrow : t.rows[r]? = some row) {v : State} (keep : v.keepKind = t.hasKind) (epoch : v.epoch = s.epoch)
    {row' : Record} (decoded : RowDecoded v data (targetType s src) r row') :
    row'.kind = row.kind ∧ row'.payload = row.payload.map (coercePattern src (targetType s src)) ∧
      ∀ x, row.ts = some x → row'.ts = some (s.epoch.getD 0 +
        ((rowTime s row).floor + (ticksOf (rowTime s row) : Rat) / 31250)) := by
  obtain ⟨wf, rows, type, -⟩ := id accepts
  obtain ⟨indexed, column, width, -⟩ := (fits_iff type row).1 (fits_of_mem wf (List.mem_of_getElem? hrow))
  obtain ⟨stride, tag⟩ := holds.header rows
  obtain ⟨ts, kind, length, elements⟩ := decoded
  rw [stride, tag, elementCount_tableStride] at length
  simp only [stride, tag, timestampFlag_tagByte, keep, epoch] at ts kind elements
  refine ⟨?kind, ?payload, fun x hx => ?time⟩
  case kind =>
    cases own : t.hasKind
    · have noKind : row.kind = none :=
        Option.isNone_iff_eq_none.1 (Option.isSome_eq_false_iff.1 (column.trans own))
      rw [kind, own, if_neg (by simp), noKind]
    · rw [kind, own, if_pos rfl, holds.kind hrow own]
  case payload =>
    exact payload_of_elements (length.trans width.symm) (fun c p => holds.element accepts hrow) elements
  case time =>
    have stamped : stampedBy t.indexKind = true := by rw [← indexed, hx, Option.isSome_some]
    rw [ts, if_pos stamped, holds.time hrow stamped]

end

/-- Settles O39: DECODE accepts the frames ENCODE wrote, and each row it reads there is the row that was written. -/
theorem tableRoundTrip : Obligations.TableRoundTrip := by
  intro s t src u table rows type run ok addr expType len cols keep
  obtain ⟨accepts, data, hu, holds⟩ := holdsFrames_of_exec_ok table rows type run ok
  obtain ⟨-, -, -, -, epochFits, -⟩ := id accepts
  obtain ⟨stride, tag⟩ := holds.header rows
  have epoch : u.epoch = s.epoch := by rw [hu]
  have keepKind : u.keepKind = t.hasKind := by rw [hu, ← keep]
  have read : DecodeAccepts { u with ibuf := u.obuf } data (targetType s src) := by
    rw [hu]
    exact holds.decodeAccepts rows addr expType len cols
  obtain ⟨t', run', index, etype, ncols, hasKind, count, decoded⟩ := decodeFillsTheTable _ data _ (by rw [hu]) read
  rw [tag, timestampFlag_tagByte, epoch] at index
  rw [stride, tag, elementCount_tableStride] at ncols
  rw [stride, holds.rowCount] at count
  refine ⟨_, t', run', rfl, rfl, ?index, etype, ncols, hasKind.trans keepKind, count, fun r row row' hrow hrow' => ?row⟩
  case index => exact index.trans (indexKind_of_epochFits epochFits)
  case row =>
    obtain ⟨kind, payload, time⟩ := holds.rowDecoded accepts hrow keepKind epoch (decoded r row' hrow')
    refine ⟨kind, payload, fun x hx => ⟨_, time x hx, ?_⟩⟩
    have written : rowTime s row = x - s.epoch.getD 0 := by rw [rowTime, hx, Option.getD_some]
    have shift (y : Rat) : s.epoch.getD 0 + y - x = y - (x - s.epoch.getD 0) := by ring
    rw [written, shift, ← eq_sub_iff_add_eq']
    exact rounded_time (x - s.epoch.getD 0)

end Sys2Proof.Proofs
end

section
/-! PROOF. 41_message_encode.md section 4: what DECODE read from a well-formed buffer, ENCODE writes back (R172), where
R137 and R163 agree on `EPOCH` (log 11). -/

namespace Sys2Proof.Proofs

open Sys2Proof.Machine

/-! ### Well-formed buffers (R108) -/

/-- R10: a read within bounds, byte by byte. -/
theorem memRead_eq_map_byteAt {b : List Byte} {a n : Nat} (inside : a + n ≤ b.length) :
    memRead b a n = (List.range n).map fun i => byteAt b (a + i) := by
  have length := memRead_length b a n inside
  refine List.ext_getElem (by simpa using length) fun i hi _ => ?_
  rw [List.getElem_map, List.getElem_range, ← byteAt_memRead b a n i (length ▸ hi), byteAt, List.getD_eq_getElem _ _ hi]

/-- R108: a frame that ends with its checksum is the rest of it sealed. -/
theorem sealFrame_take {f : List Byte} (nonempty : 1 ≤ f.length)
    (sum : byteAt f (f.length - 1) = checksum (f.take (f.length - 1))) : sealFrame (f.take (f.length - 1)) = f := by
  have last : f.length - 1 < f.length := by omega
  rw [sealFrame, ← sum, byteAt, List.getD_eq_getElem _ _ last, List.take_append_getElem last]
  exact List.take_of_length_le (by omega)

/-- R108: what the conditions on a well-formed buffer with bytes give for its layout and for each of its frames. -/
structure SingleRegister (b : List Byte) (e : EType) : Prop where
  type : typeOf (byteAt b 4) = some e
  short : bufferStride b ≤ 257
  geometry : (if timestampFlag (byteAt b 4) then 11 else 5) +
    elementCount (bufferStride b) (byteAt b 4) e * e.size + 1 = bufferStride b
  rows : 0 < b.length / bufferStride b
  length : b.length / bufferStride b * bufferStride b = b.length
  header : ∀ r < b.length / bufferStride b, memRead (frameOf b (bufferStride b) r) 1 4 = memRead b 1 4
  kind : ∀ r < b.length / bufferStride b, (byteAt b (r * bufferStride b)).toNat ≤ 3
  sealed : ∀ r < b.length / bufferStride b,
    sealFrame ((frameOf b (bufferStride b) r).take (bufferStride b - 1)) = frameOf b (bufferStride b) r
  ticks : ∀ r < b.length / bufferStride b, timestampFlag (byteAt b 4) = true →
    wireNat b (r * bufferStride b + 9) 2 ≤ 31249

/-- R67: the frames within the buffer have its stride. -/
theorem frameOf_length {b : List Byte} {stride r : Nat} (hr : r < b.length / stride) :
    (frameOf b stride r).length = stride := by
  refine memRead_length b _ _ ?_
  calc r * stride + stride ≤ b.length / stride * stride := mul_add_le_mul hr stride
    _ ≤ b.length := Nat.div_mul_le_self _ _

/-- R108: the conditions on one frame. -/
theorem frameWellFormed_iff (f : List Byte) :
    frameWellFormed f = true ↔
      6 ≤ f.length ∧ f.length ≤ Config.maxStride ∧ (byteAt f 1).toNat + 2 = f.length ∧ (byteAt f 0).toNat ≤ 3 ∧
        payloadOffset (timestampFlag (byteAt f 4)) + 1 ≤ f.length ∧
        (∃ e, typeOf (byteAt f 4) = some e ∧ e.size ∣ f.length - payloadOffset (timestampFlag (byteAt f 4)) - 1) ∧
        byteAt f (f.length - 1) = checksum (f.take (f.length - 1)) ∧
        (timestampFlag (byteAt f 4) = true → wireNat f 9 2 ≤ 31249) := by
  simp only [frameWellFormed, Bool.and_eq_true, Bool.or_eq_true, decide_eq_true_eq, beq_iff_eq, Bool.not_eq_true',
    leNat_memRead, and_assoc, Nat.dvd_iff_mod_eq_zero]
  cases typeOf (byteAt f 4) <;> cases timestampFlag (byteAt f 4) <;> simp

/-- R108: a well-formed buffer is whole frames, each well formed, each with the first one's header. -/
theorem bufferWellFormed_iff (b : List Byte) :
    bufferWellFormed b = true ↔
      bufferStride b ∣ b.length ∧ ∀ r < b.length / bufferStride b,
        frameWellFormed (frameOf b (bufferStride b) r) = true ∧
          memRead (frameOf b (bufferStride b) r) 1 4 = memRead b 1 4 := by
  simp [bufferWellFormed, Nat.dvd_iff_mod_eq_zero]

/-- R10: equal reads hold equal bytes. -/
theorem byteAt_of_memRead_eq {b c : List Byte} {a n i : Nat} (same : memRead b a n = memRead c a n) (inside : i < n) :
    byteAt b (a + i) = byteAt c (a + i) := by
  rw [← byteAt_memRead b a n i inside, same, byteAt_memRead c a n i inside]

/-- R108: the conditions on a frame of a well-formed buffer, read in the buffer. -/
theorem frame_of_bufferWellFormed {b : List Byte} (wf : bufferWellFormed b = true) {r : Nat}
    (hr : r < b.length / bufferStride b) :
    bufferStride b ≤ Config.maxStride ∧ (byteAt b (r * bufferStride b)).toNat ≤ 3 ∧
      payloadOffset (timestampFlag (byteAt b 4)) + 1 ≤ bufferStride b ∧
      (∃ e, typeOf (byteAt b 4) = some e ∧
        e.size ∣ bufferStride b - payloadOffset (timestampFlag (byteAt b 4)) - 1) ∧
      sealFrame ((frameOf b (bufferStride b) r).take (bufferStride b - 1)) = frameOf b (bufferStride b) r ∧
      (timestampFlag (byteAt b 4) = true → wireNat b (r * bufferStride b + 9) 2 ≤ 31249) := by
  obtain ⟨-, frames⟩ := (bufferWellFormed_iff b).1 wf
  obtain ⟨frame, header⟩ := frames r hr
  obtain ⟨least, short, -, kind, room, type, sum, ticks⟩ := (frameWellFormed_iff _).1 frame
  have length := frameOf_length hr
  have tag : byteAt (frameOf b (bufferStride b) r) 4 = byteAt b 4 :=
    byteAt_of_memRead_eq (a := 1) (i := 3) header (by omega)
  have sealed := sealFrame_take (by omega) sum
  rw [length] at least short room type sealed
  rw [tag] at room type ticks
  refine ⟨short, ?_, room, type, sealed, fun stamped => ?_⟩
  · rwa [frameOf, byteAt_memRead b _ _ 0 (by omega)] at kind
  · rw [stamped, payloadOffset_true] at room
    rw [← frameAddr, ← wireNat_memRead b (n := bufferStride b) (by omega)]
    exact ticks stamped

/-- R108: a well-formed buffer with bytes is frames of one register. -/
theorem singleRegister_of_wellFormed {b : List Byte} (nonempty : b ≠ []) (wf : bufferWellFormed b = true) :
    ∃ e, SingleRegister b e := by
  obtain ⟨whole, frames⟩ := (bufferWellFormed_iff b).1 wf
  have length := Nat.div_mul_cancel whole
  have rows : 0 < b.length / bufferStride b := by
    refine Nat.pos_of_ne_zero fun none => nonempty (List.length_eq_zero_iff.1 ?_)
    rw [← length, none, Nat.zero_mul]
  obtain ⟨short, -, room, ⟨e, type, fill⟩, -⟩ := frame_of_bufferWellFormed wf rows
  have payload : elementCount (bufferStride b) (byteAt b 4) e * e.size =
    bufferStride b - payloadOffset (timestampFlag (byteAt b 4)) - 1 := Nat.div_mul_cancel fill
  have geometry : payloadOffset (timestampFlag (byteAt b 4)) +
    elementCount (bufferStride b) (byteAt b 4) e * e.size + 1 = bufferStride b := by omega
  refine ⟨e, type, short, geometry, rows, length, fun r hr => (frames r hr).2, fun r hr => ?kind, fun r hr => ?sealed,
    fun r hr => ?ticks⟩
  all_goals obtain ⟨-, kind, -, -, sealed, ticks⟩ := frame_of_bufferWellFormed wf hr
  case kind => exact kind
  case sealed => exact sealed
  case ticks => exact ticks

/-! ### The decoded table -/

/-- R101: whole seconds and less than a second of ticks are the floor and the ticks of their sum. -/
theorem floor_ticksOf_time (seconds : Nat) {ticks : Nat} (less : ticks ≤ 31249) :
    ((seconds : Rat) + (ticks : Rat) / 31250).floor = seconds ∧
      ticksOf ((seconds : Rat) + (ticks : Rat) / 31250) = ticks := by
  have below : (ticks : Rat) ≤ 31249 := mod_cast less
  have nonneg : (0 : Rat) ≤ ticks := mod_cast ticks.zero_le
  have floor : ((seconds : Rat) + (ticks : Rat) / 31250).floor = seconds := by
    refine Int.floor_eq_iff (a := (seconds : Rat) + (ticks : Rat) / 31250).2 ?_
    push_cast
    constructor <;> linarith
  obtain ⟨-, rounded⟩ := ticksOf_eq ((seconds : Rat) + (ticks : Rat) / 31250)
  rw [floor, show ((seconds : Rat) + (ticks : Rat) / 31250 - ((seconds : Int) : Rat)) * 31250 = ((ticks : Int) : Rat) by
    push_cast; ring, roundHalfEven_intCast] at rounded
  exact ⟨floor, Int.natCast_inj.1 rounded⟩

/-- R137, R163: DECODE's index kind has timestamps when the frames do. -/
theorem stampedBy_indexKindOf (o : DecodeOperands) (stamped : Bool) : stampedBy (indexKindOf o stamped) = stamped := by
  unfold indexKindOf
  cases stamped
  · rfl
  · cases o.epoch <;> rfl

/-- R137, R163: with `EPOCH` absent or timestamps in the frames, DECODE's index kind is one ENCODE takes. -/
theorem epochFits_indexKindOf {o : DecodeOperands} {stamped : Bool} (agree : o.epoch = none ∨ stamped = true) :
    EpochFits o.epoch (indexKindOf o stamped) := by
  rcases agree with absent | rfl
  · cases stamped <;> simp [EpochFits, indexKindOf, absent]
  · cases epoch : o.epoch <;> simp [EpochFits, indexKindOf, epoch]

section

variable {s : State} {b : List Byte} {e : EType}

/-- R91, R108: the buffer holds a frame, and a frame its header and checksum. -/
theorem SingleRegister.bounds (register : SingleRegister b e) :
    6 ≤ bufferStride b ∧ bufferStride b ≤ b.length := by
  constructor
  · rw [← register.geometry]
    split <;> omega
  · rw [← register.length]
    exact Nat.le_mul_of_pos_left _ register.rows

/-- R132 to R139: DECODE with true or absent expectations accepts the frames of one register. -/
theorem SingleRegister.decodeAccepts (register : SingleRegister b e) (cols : s.ncols = none)
    (addr : Admits s.expAddr (byteAt b 2)) (type : Admits s.expType e)
    (len : Admits s.expLen (elementCount (bufferStride b) (byteAt b 4) e)) : DecodeAccepts s b e := by
  obtain ⟨least, enough⟩ := register.bounds
  refine ⟨by omega, addr, register.type, type, ?room, len, .inl cols, fun _ => register.kind⟩
  rw [← register.geometry]
  split <;> omega

/-- R172: the operands ENCODE is given after DECODE in state `s` of buffer `b`. -/
structure Reencodes (s v : State) (b : List Byte) : Prop where
  column : s.keepKind = true
  addr : v.encAddr = byteAt b 2
  port : v.encPort = byteAt b 3
  dtype : v.encDtype = none
  kind : v.encKind = none
  epoch : v.epoch = s.epoch

variable {v : State}

theorem Reencodes.targetType (again : Reencodes s v b) (e : EType) : targetType v e = e := by
  rw [Machine.targetType, again.dtype, Option.getD_none]

/-- R137, R163: the decoded table is encoded with timestamps when its frames have them. -/
theorem stampedBy_tableOf (s : State) (b : List Byte) (e : EType) :
    stampedBy (tableOf s b e).indexKind = timestampFlag (byteAt b 4) := stampedBy_indexKindOf ..

/-- R166: the decoded table is encoded at the stride it had. -/
theorem SingleRegister.tableStride_tableOf (register : SingleRegister b e) (s : State) :
    tableStride (tableOf s b e) e = bufferStride b := by
  rw [tableStride_eq, stampedBy_tableOf]
  exact register.geometry

/-- R100, R137: the time of a decoded row, as ENCODE takes it. -/
theorem rowTime_recordOf (epoch : v.epoch = s.epoch) (stamped : timestampFlag (byteAt b 4) = true) (r : Nat) :
    rowTime v (recordOf s b e r) =
      (wireNat b (r * bufferStride b + 5) 4 : Rat) + (wireNat b (r * bufferStride b + 9) 2 : Rat) / 31250 := by
  rw [rowTime, recordOf, rowIndex_layoutOf, if_pos stamped, Option.getD_some, epoch, add_sub_cancel_left]

variable {r : Nat}

/-- R101, R167: the floor and the ticks of a decoded row are the fields of its frame. -/
theorem SingleRegister.time_recordOf (register : SingleRegister b e) (epoch : v.epoch = s.epoch)
    (stamped : timestampFlag (byteAt b 4) = true) (hr : r < b.length / bufferStride b) :
    (rowTime v (recordOf s b e r)).floor = wireNat b (r * bufferStride b + 5) 4 ∧
      ticksOf (rowTime v (recordOf s b e r)) = wireNat b (r * bufferStride b + 9) 2 := by
  rw [rowTime_recordOf epoch stamped]
  exact floor_ticksOf_time _ (register.ticks r hr stamped)

/-- R168: the five header bytes are written as they were read. -/
theorem SingleRegister.rowHeader_recordOf (register : SingleRegister b e) (again : Reencodes s v b)
    (hr : r < b.length / bufferStride b) :
    rowHeader v (tableOf s b e) e (recordOf s b e r) = memRead (frameOf b (bufferStride b) r) 0 5 := by
  obtain ⟨least, enough⟩ := register.bounds
  obtain ⟨k, kind⟩ := Option.isSome_iff_exists.1 ((kindOf_isSome _).2 (register.kind r hr))
  have first : memRead (frameOf b (bufferStride b) r) 0 1 = [byteAt b (r * bufferStride b)] := by
    rw [memRead_eq_map_byteAt (by rw [frameOf_length hr]; omega), frameOf]
    simp [byteAt_memRead b _ _ 0 (show 0 < bufferStride b by omega), frameAddr]
  have others : memRead b 1 4 = [byteAt b 1, byteAt b 2, byteAt b 3, byteAt b 4] :=
    memRead_eq_map_byteAt (by omega)
  have written : kindWritten v.encodeOperands (tableOf s b e) (recordOf s b e r) = k := by
    simp [kindWritten, tableOf, recordOf, again.column, kind]
  have lengthByte : BitVec.ofNat 8 (bufferStride b - 2) = byteAt b 1 := by simp [bufferStride]
  rw [memRead_add _ 0 1 4, register.header r hr, first, others, rowHeader, headerBytes, written,
    kindCode_of_kindOf _ _ kind]
  simp only [shapeOf, again.targetType, register.tableStride_tableOf, lengthByte, State.encodeOperands, again.addr,
    again.port, timingFor_stamped, stampedBy_tableOf, tagByte_timestampFlag register.type]
  rfl

/-- R9: the number of a field of a frame is written back as the field. -/
theorem leBytes_wireNat_frame {stride a n : Nat} (hr : r < b.length / stride) (inside : a + n ≤ stride) :
    leBytes (wireNat b (r * stride + a) n) n = memRead (frameOf b stride r) a n := by
  have bytes := leBytes_leNat (memRead (frameOf b stride r) a n)
  rwa [memRead_length _ _ _ (by rwa [frameOf_length hr]), leNat_memRead, frameOf, wireNat_memRead b inside] at bytes

/-- R167: the timestamp field is written as it was read. -/
theorem SingleRegister.rowStamp_recordOf (register : SingleRegister b e) (epoch : v.epoch = s.epoch)
    (hr : r < b.length / bufferStride b) :
    rowStamp v (tableOf s b e) (recordOf s b e r) =
      memRead (frameOf b (bufferStride b) r) 5 (if timestampFlag (byteAt b 4) then 6 else 0) := by
  have geometry := register.geometry
  rw [rowStamp, stampedBy_tableOf]
  split
  next stamped =>
    rw [if_pos stamped] at geometry
    obtain ⟨floor, ticks⟩ := register.time_recordOf (s := s) epoch stamped hr
    rw [floor, ticks, Int.toNat_natCast, leBytes_wireNat_frame hr (by omega), leBytes_wireNat_frame hr (by omega),
      ← memRead_add]
  next => simp [memRead]

/-- R164, R168: the payload is written as it was read. -/
theorem SingleRegister.payloadBytes_recordOf (register : SingleRegister b e) (again : Reencodes s v b)
    (hr : r < b.length / bufferStride b) :
    payloadBytes (shapeOf v (tableOf s b e) e) (recordOf s b e r) =
      memRead (frameOf b (bufferStride b) r) (if timestampFlag (byteAt b 4) then 11 else 5)
        (elementCount (bufferStride b) (byteAt b 4) e * e.size) := by
  have geometry := register.geometry
  rw [payloadBytes, recordOf, rowPayload, List.map_map, ← flatten_memRead]
  refine congrArg List.flatten (List.map_congr_left fun c hc => ?_)
  have inside : c * e.size + e.size ≤ elementCount (bufferStride b) (byteAt b 4) e * e.size :=
    mul_add_le_mul (List.mem_range.1 hc) e.size
  rw [← leBytes_wireNat_frame hr (by omega), ← leNat_memRead, ← Nat.add_assoc]
  simp only [Function.comp_apply, shapeOf, again.targetType, coercePattern, if_true]
  rfl

/-- R172: each row is encoded to the frame it was decoded from. -/
theorem SingleRegister.rowFrame_recordOf (register : SingleRegister b e) (again : Reencodes s v b)
    (hr : r < b.length / bufferStride b) :
    rowFrame v (tableOf s b e) e (recordOf s b e r) = frameOf b (bufferStride b) r := by
  have geometry := register.geometry
  have body : bufferStride b - 1 = 5 + (if timestampFlag (byteAt b 4) then 6 else 0) +
      elementCount (bufferStride b) (byteAt b 4) e * e.size := by
    revert geometry
    split <;> omega
  have start : (if timestampFlag (byteAt b 4) then 11 else 5) =
      0 + (5 + if timestampFlag (byteAt b 4) then 6 else 0) := by
    split <;> rfl
  rw [rowFrame, register.rowHeader_recordOf again hr, register.rowStamp_recordOf again.epoch hr,
    register.payloadBytes_recordOf again hr, ← memRead_add, start, ← memRead_add, ← body]
  exact register.sealed r hr

/-- R162 to R167: ENCODE accepts the decoded table. -/
theorem SingleRegister.encodeAccepts (register : SingleRegister b e) (again : Reencodes s v b)
    (read : DecodeAccepts s b e) (epoch : s.epoch = none ∨ timestampFlag (byteAt b 4) = true) :
    EncodeAccepts v (tableOf s b e) e := by
  have rows : (tableOf s b e).rows ≠ [] := by simpa [tableOf] using register.rows.ne'
  refine ⟨decodeBuffer_table_wellFormed _ _ _ (decodeBuffer_of_accepts read), rows, rfl, ?kind, ?epoch,
    .inl (again.targetType e).symm, ?stride, fun stamped row hrow => ?time⟩
  case kind => simp [again.kind, tableOf, again.column]
  case epoch =>
    rw [again.epoch]
    exact epochFits_indexKindOf (o := s.decodeOperands) epoch
  case stride =>
    rw [again.targetType, register.tableStride_tableOf]
    exact register.short
  case time =>
    obtain ⟨r, hr, rfl⟩ := List.mem_map.1 hrow
    rw [stampedBy_tableOf] at stamped
    obtain ⟨floor, -⟩ := register.time_recordOf (s := s) again.epoch stamped (List.mem_range.1 hr)
    have fits := leNat_memRead_lt b (r * bufferStride b + 5) 4
    rw [leNat_memRead] at fits
    omega

/-- R172: ENCODE of the decoded table gives the buffer. -/
theorem SingleRegister.encodeTable_tableOf (register : SingleRegister b e) (again : Reencodes s v b)
    (read : DecodeAccepts s b e) (epoch : s.epoch = none ∨ timestampFlag (byteAt b 4) = true) :
    encodeTable v.encodeOperands (tableOf s b e) = .ok b := by
  have accepts := register.encodeAccepts again read epoch
  obtain ⟨wf, rows, type, -⟩ := id accepts
  refine (encodeTable_eq_ok_iff wf rows type b).2 ⟨accepts, ?_⟩
  have frames : (tableOf s b e).rows.map (rowFrame v (tableOf s b e) e) =
      (List.range (b.length / bufferStride b)).map fun r => memRead b (0 + r * bufferStride b) (bufferStride b) := by
    rw [tableOf, List.map_map]
    refine List.map_congr_left fun r hr => ?_
    rw [Nat.zero_add]
    exact register.rowFrame_recordOf again (List.mem_range.1 hr)
  rw [frames, flatten_memRead, register.length, memRead_zero_length]

end

/-- Settles O37: the empty buffer gives the empty table and back; any other one goes frame by frame. -/
theorem bufferRoundTrip : Obligations.BufferRoundTrip := by
  intro s b buffer wf keep cols expectations epoch
  by_cases empty : b = []
  · subst empty
    obtain ⟨t, run, table, -, status, -⟩ := decodeOfEmptyBuffer s buffer
    exact ⟨t, _, run, by rw [status]; rfl, encodeOfEmptyTable _ _ table rfl, rfl, rfl⟩
  · obtain ⟨e, register⟩ := singleRegister_of_wellFormed empty wf
    obtain ⟨addr, trueTypes⟩ := expectations empty
    obtain ⟨type, len⟩ := trueTypes e register.type
    have read := register.decodeAccepts cols addr type len
    have wellFormed := decodeBuffer_table_wellFormed _ _ _ (decodeBuffer_of_accepts read)
    refine ⟨_, _, exec_of_accepts rfl buffer read, rfl, exec_encode_of_ok rfl wellFormed ?_, rfl, rfl⟩
    exact register.encodeTable_tableOf ⟨keep, rfl, rfl, rfl, rfl, rfl⟩ read (epoch.resolve_left empty)

/-! ### The case the rules leave out (log 11) -/

/-- R108: one frame of one register without timestamps and without elements: kind NA, address 0, port 0, type U8. -/
def plainBuffer : List Byte := [0, 4, 0, 0, 1, 5]

/-- R172: the block with that buffer, kinds kept and an epoch supplied. -/
def epochState : State := { State.reset with ibuf := some plainBuffer, keepKind := true, epoch := some 0 }

/-- R132 to R139: the block accepts the buffer. -/
theorem decodeAccepts_plainBuffer : DecodeAccepts epochState plainBuffer .u8 := by
  refine ⟨by decide, .inl rfl, by decide, .inl rfl, by decide, .inl rfl, .inl rfl, fun _ => by decide⟩

/-- R137: the buffer decodes to a POSITIONAL table. -/
theorem indexKind_plainBuffer : (tableOf epochState plainBuffer .u8).indexKind = .positional := by decide

/-- R163: ENCODE of that table with an epoch raises `EPOCH_INDEX`, code 11. -/
theorem code_of_encode_plainBuffer {v u : State} (table : v.tbl = some (tableOf epochState plainBuffer .u8))
    (kind : v.encKind = none) (epoch : v.epoch = some 0) (run : exec .encode v = .next u) : u.status.code = 11 := by
  have wf := decodeBuffer_table_wellFormed _ _ _ (decodeBuffer_of_accepts decodeAccepts_plainBuffer)
  obtain ⟨-, -, once⟩ := encodeFaultsInOrder v _ .u8 table wf (by decide) rfl
  obtain ⟨mismatch, -⟩ := once (by rw [kind]; rfl)
  obtain ⟨w, faults, status⟩ := mismatch (by rw [epoch]; rfl) (by simp [indexKind_plainBuffer])
  rw [Host.Outcome.next.inj (run.symm.trans faults), status]

/-- Refutes O38: the plain buffer decodes, but ENCODE refuses its table while an epoch is supplied. -/
theorem not_bufferRoundTripForAnyEpoch : ¬ Obligations.BufferRoundTripForAnyEpoch := by
  intro law
  obtain ⟨t, u, decoded, -, encoded, ok, -⟩ := law epochState plainBuffer rfl (by decide) rfl rfl rfl rfl rfl
  have state := Host.Outcome.next.inj (decoded.symm.trans (exec_of_accepts rfl rfl decodeAccepts_plainBuffer))
  have code := code_of_encode_plainBuffer (by rw [state]) rfl (by rw [state]; rfl) encoded
  rw [ok] at code
  exact absurd code (by decide)

end Sys2Proof.Proofs
end

section
/-! PROOF. 42_barcode_clock.md section 1: the ranges of SEGMENT are those strictly between two gaps with no gap inside
(R191, R192), and no other list of ranges is. -/

namespace Sys2Proof.Proofs

open Sys2Proof.Machine

/-! ### The ranges between ascending boundaries -/

/-- R191: a range starts behind one boundary and ends at the next. -/
theorem mem_rangesBetween {l : List Nat} (ascends : l.Pairwise (· < ·)) (i j : Nat) :
    (i + 1, j + 1) ∈ rangesBetween l ↔ i ∈ l ∧ j ∈ l ∧ i < j ∧ ∀ k ∈ l, ¬ (i < k ∧ k < j) := by
  induction l with
  | nil => simp
  | cons a l ih =>
    obtain ⟨first, rest⟩ := List.pairwise_cons.1 ascends
    cases l with
    | nil =>
      simp only [rangesBetween_single, List.mem_singleton, List.not_mem_nil, false_iff]
      omega
    | cons b l =>
      have least : ∀ k ∈ l, b < k := (List.pairwise_cons.1 rest).1
      have second : a < b := first b (by simp)
      simp only [rangesBetween_cons, List.mem_cons, Prod.mk.injEq, Nat.add_right_cancel_iff, ih rest]
      constructor
      · rintro (⟨rfl, rfl⟩ | ⟨hi, hj, between, gapless⟩)
        · refine ⟨.inl rfl, .inr (.inl rfl), second, ?_⟩
          rintro k (rfl | rfl | hk)
          · omega
          · omega
          · have := least k hk
            omega
        · refine ⟨.inr hi, .inr hj, between, ?_⟩
          rintro k (rfl | hk)
          · have := first i (List.mem_cons.2 hi)
            omega
          · exact gapless k hk
      · rintro ⟨rfl | hi, rfl | hj, between, gapless⟩
        · omega
        · have := gapless b (.inr (.inl rfl))
          rcases hj with rfl | hj
          · exact .inl ⟨rfl, rfl⟩
          · have := least j hj
            omega
        · have := first i (List.mem_cons.2 hi)
          omega
        · exact .inr ⟨hi, hj, between, fun k hk => gapless k (.inr hk)⟩

/-- R191: each bound of a range is behind a boundary. -/
theorem exists_of_mem_rangesBetween {l : List Nat} {r : Nat × Nat} (h : r ∈ rangesBetween l) :
    ∃ i j, i ∈ l ∧ j ∈ l ∧ r = (i + 1, j + 1) := by
  obtain ⟨k, hk⟩ := List.mem_iff_getElem?.1 h
  obtain ⟨i, j, hi, hj, rfl⟩ := (rangesBetween_getElem? l k r).1 hk
  exact ⟨i, j, List.mem_of_getElem? hi, List.mem_of_getElem? hj, rfl⟩

/-- R191: the ranges of ascending boundaries ascend. -/
theorem rangesBetween_ascend {l : List Nat} (ascends : l.Pairwise (· < ·)) :
    (rangesBetween l).Pairwise fun a b => a.2 ≤ b.1 := by
  induction l with
  | nil => simp
  | cons a l ih =>
    have rest := (List.pairwise_cons.1 ascends).2
    cases l with
    | nil => simp
    | cons b l =>
      refine List.pairwise_cons.2 ⟨fun r hr => ?_, ih rest⟩
      obtain ⟨i, j, hi, -, rfl⟩ := exists_of_mem_rangesBetween hr
      rcases List.mem_cons.1 hi with rfl | hi
      · rfl
      · have := (List.pairwise_cons.1 rest).1 i hi
        simp only
        omega

/-! ### SEGMENT -/

/-- R191: the boundaries are the gaps. -/
theorem mem_boundariesFrom_zero (t : List Rat) (md : Rat) (i : Nat) : i ∈ boundariesFrom md 0 t ↔ GapAt t md i := by
  simp [mem_boundariesFrom, GapAt]

/-- R191, R192: what SEGMENT writes. -/
theorem runsBetweenGaps_segmentRanges (t : List Rat) (md : Rat) : RunsBetweenGaps t md (segmentRanges t md) := by
  have ascends := boundariesFrom_sorted md t 0
  refine ⟨rangesBetween_ascend ascends, fun a b => ?_⟩
  constructor
  · intro h
    obtain ⟨i, j, -, -, bounds⟩ := exists_of_mem_rangesBetween h
    obtain ⟨rfl, rfl⟩ := Prod.mk.inj bounds
    obtain ⟨hi, hj, between, gapless⟩ := (mem_rangesBetween ascends i j).1 h
    simp only [mem_boundariesFrom_zero] at hi hj gapless
    exact ⟨by omega, by omega, hi, hj, fun k low high gap => gapless k gap ⟨by omega, by omega⟩⟩
  · rintro ⟨positive, between, start, stop, inside⟩
    obtain ⟨i, rfl⟩ := Nat.exists_eq_add_one.2 positive
    obtain ⟨j, rfl⟩ := Nat.exists_eq_add_one.2 (Nat.zero_lt_of_lt between)
    refine (mem_rangesBetween ascends i j).2 ?_
    simp only [mem_boundariesFrom_zero]
    exact ⟨start, stop, by omega, fun k gap ⟨low, high⟩ => inside k (by omega) (by omega) gap⟩

/-- R191: the gaps fix the ranges between them. -/
theorem eq_segmentRanges_of_runsBetweenGaps {t : List Rat} {md : Rat} {ranges : List (Nat × Nat)}
    (runs : RunsBetweenGaps t md ranges) : ranges = segmentRanges t md := by
  have strict {l : List (Nat × Nat)} (h : RunsBetweenGaps t md l) : l.Pairwise fun a b => a.1 < b.1 := by
    obtain ⟨ascend, mem⟩ := h
    refine ascend.imp_of_mem fun {a b} ha _ hab => ?_
    obtain ⟨-, nonempty, -⟩ := (mem a.1 a.2).1 ha
    omega
  have other := runsBetweenGaps_segmentRanges t md
  have : Std.Irrefl fun a b : Nat × Nat => a.1 < b.1 := ⟨fun a => lt_irrefl a.1⟩
  have : Std.Antisymm fun a b : Nat × Nat => a.1 < b.1 := ⟨fun a b hab hba => absurd hab hba.asymm⟩
  exact (strict runs).eq_of_mem_iff (strict other) fun ⟨a, b⟩ => (runs.2 a b).trans (other.2 a b).symm

/-- R36: a range between gaps lies in the transitions. -/
theorem bounds_of_runsBetweenGaps {t : List Rat} {md : Rat} {ranges : List (Nat × Nat)}
    (runs : RunsBetweenGaps t md ranges) {r : Nat × Nat} (h : r ∈ ranges) : r.1 ≤ r.2 ∧ r.2 ≤ t.length := by
  obtain ⟨-, between, -, stop, -⟩ := (runs.2 r.1 r.2).1 h
  have := stop.1
  omega

/-- Settles O41: the body makes no test behind that of its operand. -/
theorem segmentFindsTheRunsBetweenGaps : Obligations.SegmentFindsTheRunsBetweenGaps := by
  intro s tr valid
  have body : resultOf .segment s = .ok (.ranges (segmentRanges tr.t s.minDelta)) := by
    rw [resultOf, valid]
    rfl
  exact ⟨_, exec_of_resultOf_ok (by simp) body, runsBetweenGaps_segmentRanges tr.t s.minDelta⟩

end Sys2Proof.Proofs
end

section
/-! PROOF. 42_barcode_clock.md section 2: BARDEC of a range of `TR` is the weighed state vector of its transitions (R193
to R197), and its faults in the order of R267 (R198). -/

namespace Sys2Proof.Proofs

open Sys2Proof.Machine

/-! ### The expansion of one barcode (R195, R196) -/

/-- R194: normalising is dividing by the units of a second. -/
theorem normalise_eq_div (s : State) (x : Rat) : normalise s.sampleRate x = x / unitsPerSecond s := by
  cases h : s.sampleRate <;> simp [normalise, unitsPerSecond, h]

/-- R195: the interval between the first two transitions. -/
theorem bitPeriods_normalise (s : State) (a b : Rat) (t : List Rat) :
    bitPeriods s.baud (normalise s.sampleRate a) (normalise s.sampleRate b) = periodsAt s (a :: b :: t) 0 := by
  simp [bitPeriods, periodsAt, normalise_eq_div]

theorem periodsAt_succ (s : State) (a : Rat) (t : List Rat) (i : Nat) :
    periodsAt s (a :: t) (i + 1) = periodsAt s t i := rfl

/-- R195: the first interval of the expansion, and the rest of it. -/
theorem expandLevels_normalise_cons (s : State) (k : Nat) (a b : Rat) (t : List Rat) (x : Bool) (levels : List Bool) :
    expandLevels s.baud k ((a :: b :: t).map (normalise s.sampleRate)) (x :: levels) =
      if periodsAt s (a :: b :: t) 0 < 0 then .error ⟨.nonAscending, none, some (.int k)⟩
      else expandLevels s.baud (k + 1) ((b :: t).map (normalise s.sampleRate)) levels >>= fun v =>
        .ok (List.replicate (periodsAt s (a :: b :: t) 0).toNat x ++ v) := by
  simp only [List.map_cons, expandLevels_cons, bitPeriods_normalise s a b t]

/-- R196: the first level lasts its interval. -/
theorem levelVector_cons (s : State) (a b : Rat) (t : List Rat) (x : Bool) (levels : List Bool) :
    levelVector s (a :: b :: t) (x :: levels) =
      List.replicate (periodsAt s (a :: b :: t) 0).toNat x ++ levelVector s (b :: t) levels := by
  simp [levelVector, List.range_succ_eq_map, Function.comp_def, periodsAt_succ]

/-- R196: without a negative interval the expansion is the state vector. -/
theorem expandLevels_of_nonneg {s : State} {t : List Rat} {levels : List Bool} (paired : t.length = levels.length)
    (ascends : ∀ i, i + 1 < t.length → 0 ≤ periodsAt s t i) (k : Nat) :
    expandLevels s.baud k (t.map (normalise s.sampleRate)) levels = .ok (levelVector s t levels) := by
  induction t generalizing k levels with
  | nil => simp [levelVector]
  | cons a t ih =>
    cases t with
    | nil => simp [levelVector]
    | cons b t =>
      obtain ⟨x, levels, rfl⟩ := List.exists_cons_of_length_eq_add_one paired.symm
      have first := ascends 0 (by simp)
      have rest := ih (Nat.succ.inj paired) (fun i hi => ascends (i + 1) (Nat.succ_lt_succ hi)) (k + 1)
      rw [expandLevels_normalise_cons, if_neg first.not_gt, rest, ok_bind, levelVector_cons]

/-- R195, R267: the expansion raises for the first negative interval. -/
theorem expandLevels_of_neg {s : State} {t : List Rat} {levels : List Bool} {i : Nat}
    (paired : t.length = levels.length) (inside : i + 1 < t.length) (negative : periodsAt s t i < 0)
    (before : ∀ j < i, 0 ≤ periodsAt s t j) (k : Nat) :
    expandLevels s.baud k (t.map (normalise s.sampleRate)) levels =
      .error ⟨.nonAscending, none, some (.int (k + i : Nat))⟩ := by
  induction t generalizing i k levels with
  | nil => simp at inside
  | cons a t ih =>
    cases t with
    | nil => simp at inside
    | cons b t =>
      obtain ⟨x, levels, rfl⟩ := List.exists_cons_of_length_eq_add_one paired.symm
      rw [expandLevels_normalise_cons]
      cases i with
      | zero => rw [if_pos negative, Nat.add_zero]
      | succ i =>
        have rest := ih (Nat.succ.inj paired) (Nat.lt_of_succ_lt_succ inside) negative
          (fun j hj => before (j + 1) (Nat.succ_lt_succ hj)) (k + 1)
        rw [if_neg (before 0 i.succ_pos).not_gt, rest, error_bind, Nat.succ_add_eq_add_succ]

/-- R200: `BarDec` of transitions that decode. -/
theorem barDec_of_readable {s : State} {t : List Rat} {levels : List Bool} (paired : t.length = levels.length)
    (readable : BarcodeReadable s t levels) :
    barDec s.rates t levels = .ok (weighLevels (levelVector s t levels)) :=
  (barDec_eq_ok ..).2 ⟨_, expandLevels_of_nonneg paired readable.1 0, readable.2, rfl⟩

/-- R195: `BarDec` reports the first negative interval. -/
theorem barDec_of_neg {s : State} {t : List Rat} {levels : List Bool} {i : Nat} (paired : t.length = levels.length)
    (inside : i + 1 < t.length) (negative : periodsAt s t i < 0) (before : ∀ j < i, 0 ≤ periodsAt s t j) :
    barDec s.rates t levels = .error ⟨.nonAscending, none, some (.int i)⟩ := by
  have raises := expandLevels_of_neg paired inside negative before 0
  rw [Nat.zero_add] at raises
  exact (barDec_eq_error ..).2 (.inl raises)

/-- R197: `BarDec` reports how many levels there are when they are too few. -/
theorem barDec_of_short {s : State} {t : List Rat} {levels : List Bool} (paired : t.length = levels.length)
    (ascends : ∀ i, i + 1 < t.length → 0 ≤ periodsAt s t i) (short : (levelVector s t levels).length < 39) :
    barDec s.rates t levels =
      .error ⟨.barcodeShort, some (.int 39), some (.int (levelVector s t levels).length)⟩ :=
  (barDec_eq_error ..).2 (.inr ⟨_, expandLevels_of_nonneg paired ascends 0, short, rfl⟩)

/-! ### BARDEC -/

/-- R8: slices of paired sequences are paired. -/
theorem slice_paired {α β : Type} {t : List α} {levels : List β} (paired : t.length = levels.length) (lo hi : Nat) :
    (slice t lo hi).length = (slice levels lo hi).length := by
  simp [slice, paired]

/-- R200: on a valid `TR`, BARDEC's result is that of the transitions. -/
theorem resultOf_bardec {s : State} {tr : Transitions} (valid : s.tr = some tr) :
    resultOf .bardec s = (barDecRange s.rates s.bcLo s.bcHi tr).map .barcode := by
  rw [resultOf, valid, operand_some, ok_bind]

/-- R198, R267: what a range raises: the first test that fails, those before it passed. -/
theorem barDecRange_eq_error (s : State) (lo hi : Nat) (tr : Transitions) (f : Raise) :
    barDecRange s.rates lo hi tr = .error f ↔
      tr.t.length ≠ tr.s.length ∧ f = ⟨.arrayLen, some (.int tr.t.length), some (.int tr.s.length)⟩ ∨
      tr.t.length = tr.s.length ∧
        (¬ (lo ≤ hi ∧ hi ≤ tr.t.length) ∧ f = ⟨.badRange, some (.int tr.t.length), some (.int hi)⟩ ∨
        (lo ≤ hi ∧ hi ≤ tr.t.length) ∧
          (¬ RatesPositive s ∧ f = ⟨.badParam, none, none⟩ ∨
          RatesPositive s ∧ barDec s.rates (slice tr.t lo hi) (slice tr.s lo hi) = .error f)) := by
  simp only [barDecRange, bind_eq_error, checkPaired_eq_error, checkPaired_eq_ok, require_eq_error, require_eq_ok,
    checkRates_eq_error, checkRates_eq_ok, exists_const, eq_comm (b := f)]
  rfl

/-- Settles O42: the tests pass, and the expansion of the range is its state vector. -/
theorem bardecWeighsTheLevels : Obligations.BardecWeighsTheLevels := by
  rintro s tr t levels valid paired low high rates rfl rfl readable
  have decoded := barDec_of_readable (slice_paired paired s.bcLo s.bcHi) readable
  have range := (barDecRange_eq_ok s.rates ..).2 ⟨paired, ⟨low, high⟩, rates, decoded⟩
  exact exec_of_resultOf_ok (p := .barcode _) (by simp) (by rw [resultOf_bardec valid, range]; rfl)

/-- Settles O43: the tests of a range one after another, then the intervals and the number of levels. -/
theorem bardecFaultsInOrder : Obligations.BardecFaultsInOrder := by
  intro s tr valid
  have raises {f : Raise} (h : barDecRange s.rates s.bcLo s.bcHi tr = .error f) :
      FaultsWith .bardec s f.code.num f.exp f.act :=
    faultsWith_of_resultOf_error (by simp) (by rw [resultOf_bardec valid, h]; rfl)
  simp only [barDecRange_eq_error] at raises
  refine ⟨fun unequal => raises (.inl ⟨unequal, rfl⟩), fun paired => ?_⟩
  replace raises {f : Raise} h := @raises f (.inr ⟨paired, h⟩)
  refine ⟨fun outside => raises (.inl ⟨by omega, rfl⟩), fun low high => ?_⟩
  replace raises {f : Raise} h := @raises f (.inr ⟨⟨low, high⟩, h⟩)
  refine ⟨fun rate => raises (.inl ⟨rate, rfl⟩), fun rates => ?_⟩
  replace raises {f : Raise} h := @raises f (.inr ⟨rates, h⟩)
  rintro t levels rfl rfl
  have marked := slice_paired paired s.bcLo s.bcHi
  exact ⟨fun i inside negative before => raises (barDec_of_neg marked inside negative before),
    fun ascends short => raises (barDec_of_short marked ascends short)⟩

end Sys2Proof.Proofs
end

section
/-! PROOF. 42_barcode_clock.md section 3: the two outlier policies on paired anchors (R201 to R203), and their fault. -/

namespace Sys2Proof.Proofs

open Sys2Proof.Machine

/-! ### The shared body of OUTLIER.* -/

/-- R201, R202: a policy on paired anchors writes its anchors and its count, and warns when the count is positive. -/
theorem correctAnchors_of_paired (policy : Anchors → Corrected) {s : State} {a : Anchors} (valid : s.an = some a)
    (paired : a.localTimes.length = a.harp.length) :
    correctAnchors policy s =
      { s with an := some (policy a).anchors, outlierCount := (policy a).count,
               status := okAfter s.status (0 < (policy a).count) } := by
  rw [correctAnchors, valid, operand_some, ok_bind, (checkPaired_eq_ok _ _ ()).2 paired, ok_bind, finish_ok]
  rfl

/-- R198: a policy on unpaired anchors reports both lengths. -/
theorem correctAnchors_of_unpaired (policy : Anchors → Corrected) {s : State} {a : Anchors} (valid : s.an = some a)
    (unequal : a.localTimes.length ≠ a.harp.length) :
    correctAnchors policy s =
      raiseFault ⟨.arrayLen, some (.int a.localTimes.length), some (.int a.harp.length)⟩ outlierDests s := by
  rw [correctAnchors, valid, operand_some, ok_bind, (checkPaired_eq_error ..).2 ⟨unequal, rfl⟩, error_bind,
    finish_error]

/-- R201, R202: both commands are one body under a policy. -/
theorem exists_policy_of_outlier {i : Instr} (h : i = .outlierRepair ∨ i = .outlierDrop) :
    ∃ policy, ∀ s, exec i s = .next (correctAnchors policy s) := by
  rcases h with rfl | rfl
  · exact ⟨repairAnchors, fun _ => rfl⟩
  · exact ⟨dropAnchors, fun _ => rfl⟩

/-- Settles O47: the first test of the shared body. -/
theorem outlierArrayLengthFault : Obligations.OutlierArrayLengthFault := by
  intro i s a command valid unequal
  obtain ⟨policy, run⟩ := exists_policy_of_outlier command
  exact ⟨_, run s, by rw [correctAnchors_of_unpaired policy valid unequal]; rfl⟩

/-! ### Repair (R201) -/

/-- R201: what a value becomes, given its repaired predecessor. -/
def repairOne (prev old : Int) : Int := if 1 < |old - prev| then prev + 1 else old

theorem repairOne_eq (prev old : Int) :
    repairOne prev old = if 1 < (old - prev).natAbs then prev + 1 else old := by
  have far : 1 < |old - prev| ↔ 1 < (old - prev).natAbs := by rw [Int.abs_eq_natAbs]; omega
  simp only [repairOne, far]

/-- R201: a value changes exactly when it is an outlier. -/
theorem repairOne_ne_iff (prev old : Int) : repairOne prev old ≠ old ↔ 1 < (old - prev).natAbs := by
  rw [repairOne_eq]
  split <;> omega

/-- R201: one step of the pass and its part of the count. -/
theorem repairFrom_cons_eq (prev old : Int) (rest : List Int) :
    repairFrom prev (old :: rest) =
      (repairOne prev old :: (repairFrom (repairOne prev old) rest).1,
        (repairFrom (repairOne prev old) rest).2 + if repairOne prev old ≠ old then 1 else 0) := by
  rw [repairFrom_cons]
  simp only [repairOne_ne_iff]
  split
  · next outlier => simp only [repairOne_eq, outlier, if_true]
  · next near => simp only [repairOne_eq, near, if_false, Nat.add_zero]

/-- R201: each value is compared with its predecessor as the pass left it. -/
theorem repairFrom_getElem? {prev p old : Int} {l : List Int} {i : Nat} (value : l[i]? = some old)
    (left : (prev :: (repairFrom prev l).1)[i]? = some p) : (repairFrom prev l).1[i]? = some (repairOne p old) := by
  induction l generalizing prev i with
  | nil => simp at value
  | cons h l ih =>
    rw [repairFrom_cons_eq] at left ⊢
    cases i with
    | zero =>
      obtain rfl : h = old := by simpa using value
      obtain rfl : prev = p := by simpa using left
      rfl
    | succ i => exact ih value left

/-- R203: at how many positions the second list has another value. -/
def changeCount (old new : List Int) : Nat := ((List.range new.length).filter fun i => new[i]? ≠ old[i]?).length

theorem changeCount_cons (x y : Int) (old new : List Int) :
    changeCount (x :: old) (y :: new) = changeCount old new + if y ≠ x then 1 else 0 := by
  by_cases same : y = x <;>
    simp [changeCount, List.range_succ_eq_map, List.filter_map, Function.comp_def, same]

/-- R201: the pass counts the values it changed. -/
theorem repairFrom_count (prev : Int) (l : List Int) : (repairFrom prev l).2 = changeCount l (repairFrom prev l).1 := by
  induction l generalizing prev with
  | nil => rfl
  | cons old l ih => rw [repairFrom_cons_eq, changeCount_cons, ← ih]

/-- R201: `Repair` keeps the first value. -/
theorem repair_getElem?_zero (l : List Int) : (repair l).1[0]? = l[0]? := by cases l <;> rfl

/-- R201: `Repair` compares each later value with its repaired predecessor. -/
theorem repair_getElem?_succ {p old : Int} {l : List Int} {i : Nat} (value : l[i + 1]? = some old)
    (left : (repair l).1[i]? = some p) : (repair l).1[i + 1]? = some (repairOne p old) := by
  cases l with
  | nil => simp at value
  | cons first rest => exact repairFrom_getElem? value left

/-- R201, R203: `Repair` counts the values it changed. -/
theorem repair_count (l : List Int) : (repair l).2 = changeCount l (repair l).1 := by
  cases l with
  | nil => rfl
  | cons first rest =>
    rw [repair_cons, changeCount_cons, ← repairFrom_count, if_neg (not_not.2 rfl), Nat.add_zero]

/-- Settles O45: the pass keeps the first value and takes the others one by one. -/
theorem repairIsSequential : Obligations.RepairIsSequential := fun _ a valid paired =>
  ⟨_, _, congrArg Host.Outcome.next (correctAnchors_of_paired repairAnchors valid paired), repair_length a.harp,
    repair_getElem?_zero a.harp, fun _ _ _ => repair_getElem?_succ, repair_count a.harp⟩

/-! ### Drop (R202) -/

/-- R202: the anchor at `i` has a neighbour one below it before or one above it behind; `joined` says whether the first
one has such a neighbour before the list. -/
def inRun (joined : Bool) (harp : List Int) (i : Nat) : Bool :=
  (if i = 0 then joined else harp.getD i 0 - harp.getD (i - 1) 0 == 1) ||
    (i + 1 < harp.length && harp.getD (i + 1) 0 - harp.getD i 0 == 1)

/-- Behind the first value, it is the first value that the second one is or is not joined to. -/
theorem inRun_succ (joined : Bool) (x y : Int) (harp : List Int) (i : Nat) :
    inRun joined (x :: y :: harp) (i + 1) = inRun (y - x == 1) (y :: harp) i := by
  cases i <;> simp [inRun]

/-- R202: the runs of length at least 2, and the first run also where it is joined to a value before it. -/
def keptRuns (joined : Bool) : List (List (Rat × Int)) → List (Rat × Int)
  | [] => []
  | run :: runs => (if joined || 2 ≤ run.length then run else []) ++ (runs.filter fun run => 2 ≤ run.length).flatten

theorem keptAnchors_eq_keptRuns (l : List (Rat × Int)) : keptAnchors l = keptRuns false (ascendingRuns l) := by
  unfold keptAnchors
  cases ascendingRuns l with
  | nil => rfl
  | cons run runs => by_cases long : 2 ≤ run.length <;> simp [keptRuns, long]

/-- R202: the first run starts with the first anchor. -/
theorem exists_ascendingRuns_cons (a : Rat × Int) (l : List (Rat × Int)) :
    ∃ run runs, ascendingRuns (a :: l) = (a :: run) :: runs := by
  unfold ascendingRuns
  split
  · split <;> exact ⟨_, _, rfl⟩
  · exact ⟨_, _, rfl⟩

/-- R202: the first anchor is kept when it is joined to one of its neighbours. -/
theorem keptRuns_cons (joined : Bool) (a b : Rat × Int) (l : List (Rat × Int)) :
    keptRuns joined (ascendingRuns (a :: b :: l)) =
      (if joined || b.2 - a.2 == 1 then [a] else []) ++ keptRuns (b.2 - a.2 == 1) (ascendingRuns (b :: l)) := by
  obtain ⟨run, runs, first⟩ := exists_ascendingRuns_cons b l
  rw [ascendingRuns, first]
  by_cases step : b.2 - a.2 = 1
  · simp [keptRuns, step]
  · by_cases long : 1 ≤ run.length <;> simp [keptRuns, step, long]

/-- R202: what the runs keep are the anchors at the positions with a neighbour in their run. -/
theorem keptRuns_eq_map (joined : Bool) (l : List (Rat × Int)) :
    keptRuns joined (ascendingRuns l) =
      ((List.range l.length).filter (inRun joined (l.map Prod.snd))).map fun i => l.getD i (0, 0) := by
  induction l generalizing joined with
  | nil => rfl
  | cons a l ih =>
    cases l with
    | nil => cases joined <;> rfl
    | cons b l =>
      have first : inRun joined ((a :: b :: l).map Prod.snd) 0 = (joined || b.2 - a.2 == 1) := by simp [inRun]
      have later : inRun joined ((a :: b :: l).map Prod.snd) ∘ Nat.succ =
          inRun (b.2 - a.2 == 1) ((b :: l).map Prod.snd) :=
        funext fun i => inRun_succ joined a.2 b.2 (l.map Prod.snd) i
      rw [List.length_cons, List.range_succ_eq_map, List.filter_cons, first, List.filter_map, later, keptRuns_cons, ih]
      split <;> simp [Function.comp_def]

/-- R202: `Drop` keeps the anchors at the positions with a neighbour in their run, each with its local time. -/
theorem dropAnchors_eq {a : Anchors} (paired : a.localTimes.length = a.harp.length) {keep : List Nat}
    (kept : keep = (List.range a.harp.length).filter (inRun false a.harp)) :
    dropAnchors a =
      { anchors := { localTimes := keep.map fun i => a.localTimes.getD i 0, harp := keep.map fun i => a.harp.getD i 0 }
        count := a.harp.length - keep.length } := by
  have times : (a.localTimes.zip a.harp).map Prod.fst = a.localTimes := List.map_fst_zip paired.le
  have harp : (a.localTimes.zip a.harp).map Prod.snd = a.harp := List.map_snd_zip paired.ge
  have anchors : keptAnchors (a.localTimes.zip a.harp) = keep.map fun i => (a.localTimes.zip a.harp).getD i (0, 0) := by
    rw [keptAnchors_eq_keptRuns, keptRuns_eq_map, harp, kept, List.length_zip, paired, Nat.min_self]
  have time (i : Nat) : ((a.localTimes.zip a.harp).getD i (0, 0)).1 = a.localTimes.getD i 0 := by
    conv_rhs => rw [← times]
    exact (List.getD_map _ (0, 0) Prod.fst).symm
  have value (i : Nat) : ((a.localTimes.zip a.harp).getD i (0, 0)).2 = a.harp.getD i 0 := by
    conv_rhs => rw [← harp]
    exact (List.getD_map _ (0, 0) Prod.snd).symm
  simp only [dropAnchors, anchors, List.map_map, Function.comp_def, time, value, List.length_map]

/-- Settles O46: the kept anchors by position; one is dropped exactly when fewer are kept than there were. -/
theorem dropKeepsTheRuns : Obligations.DropKeepsTheRuns := by
  intro s a keep valid paired kept
  have positions : keep = (List.range a.harp.length).filter (inRun false a.harp) := by
    rw [kept]
    refine congrArg (List.filter · _) (funext fun i => ?_)
    cases i <;> simp [inRun]
  have run : exec .outlierDrop s = .next (correctAnchors dropAnchors s) := rfl
  rw [run, correctAnchors_of_paired dropAnchors valid paired, dropAnchors_eq paired positions]
  simp

end Sys2Proof.Proofs
end

section
/-! PROOF. 42_barcode_clock.md section 4: CLOCKDEC.* is the chain of segmenter, barcode decoder and outlier policy
(R204, R205), with the faults of the first two (R198, R267). -/

namespace Sys2Proof.Proofs

open Sys2Proof.Machine

/-! ### The parts of the chain -/

/-- R205: the threshold is half a second in the units of `TR.t`. -/
theorem gapThreshold_eq (s : State) : gapThreshold s.sampleRate = unitsPerSecond s / 2 := by
  cases h : s.sampleRate <;> simp [gapThreshold, unitsPerSecond, Config.minDeltaSeconds, h, div_eq_inv_mul]

/-- R204: a range that decodes gives its value. -/
theorem decodeRange_of_readable {s : State} {tr : Transitions} {r : Nat × Nat} (paired : tr.t.length = tr.s.length)
    (readable : BarcodeReadable s (slice tr.t r.1 r.2) (slice tr.s r.1 r.2)) :
    decodeRange s.rates tr r = .ok (weighLevels (levelVector s (slice tr.t r.1 r.2) (slice tr.s r.1 r.2)) : Int) :=
  (decodeRange_eq_ok ..).2 ⟨_, barDec_of_readable (slice_paired paired r.1 r.2) readable, rfl⟩

/-- R204: the anchors of ranges that all decode. -/
theorem rawAnchors_of_readable {s : State} {tr : Transitions} {ranges : List (Nat × Nat)}
    (paired : tr.t.length = tr.s.length)
    (readable : ∀ r ∈ ranges, BarcodeReadable s (slice tr.t r.1 r.2) (slice tr.s r.1 r.2)) :
    rawAnchors s.rates tr ranges = .ok (anchorsOf s tr ranges) := by
  refine (rawAnchors_eq_ok ..).2 ⟨rfl, ?_⟩
  rw [anchorsOf, List.map_map]
  exact List.map_congr_left fun r hr => decodeRange_of_readable paired (readable r hr)

/-- R198, R267: what CLOCKDEC.* raise: the first test that fails, else what the first failing range raises. -/
theorem clockDecode_eq_error (policy : Anchors → Corrected) (s : State) (tr : Transitions) (f : Raise) :
    clockDecode policy s.rates tr = .error f ↔
      tr.t.length ≠ tr.s.length ∧ f = ⟨.arrayLen, some (.int tr.t.length), some (.int tr.s.length)⟩ ∨
      tr.t.length = tr.s.length ∧
        (¬ RatesPositive s ∧ f = ⟨.badParam, none, none⟩ ∨
        RatesPositive s ∧
          collect ((segmentRanges tr.t (unitsPerSecond s / 2)).map (decodeRange s.rates tr)) = .error f) := by
  rw [← gapThreshold_eq]
  simp only [clockDecode, bind_eq_error, checkPaired_eq_error, checkPaired_eq_ok, checkRates_eq_error,
    checkRates_eq_ok, rawAnchors_eq_error, exists_const, reduceCtorEq, and_false, or_false]
  rfl

/-! ### The shared body of CLOCKDEC.* -/

/-- R204: both commands are one body under a policy. -/
theorem exists_policy_of_clockdec {i : Instr} (h : i = .clockdecRepair ∨ i = .clockdecDrop) :
    ∃ policy, ∀ s, exec i s = .next (clockFrom policy s) := by
  rcases h with rfl | rfl
  · exact ⟨repairAnchors, fun _ => rfl⟩
  · exact ⟨dropAnchors, fun _ => rfl⟩

/-- R121: each command has the policy of its outlier correction. -/
theorem exists_common_policy {i policy : Instr}
    (h : (i = .clockdecRepair ∧ policy = .outlierRepair) ∨ (i = .clockdecDrop ∧ policy = .outlierDrop)) :
    ∃ correct, (∀ s, exec i s = .next (clockFrom correct s)) ∧
      ∀ s, exec policy s = .next (correctAnchors correct s) := by
  rcases h with ⟨rfl, rfl⟩ | ⟨rfl, rfl⟩
  · exact ⟨repairAnchors, fun _ => rfl, fun _ => rfl⟩
  · exact ⟨dropAnchors, fun _ => rfl, fun _ => rfl⟩

/-- R204: where every range decodes, the ranges and the policy's result on their anchors are written. -/
theorem clockFrom_of_readable (policy : Anchors → Corrected) {s : State} {tr : Transitions}
    {ranges : List (Nat × Nat)} (valid : s.tr = some tr) (paired : tr.t.length = tr.s.length)
    (rates : RatesPositive s) (runs : RunsBetweenGaps tr.t (unitsPerSecond s / 2) ranges)
    (readable : ∀ r ∈ ranges, BarcodeReadable s (slice tr.t r.1 r.2) (slice tr.s r.1 r.2)) :
    clockFrom policy s =
      { s with edg := some ranges, an := some (policy (anchorsOf s tr ranges)).anchors,
               outlierCount := (policy (anchorsOf s tr ranges)).count,
               status := okAfter s.status (0 < (policy (anchorsOf s tr ranges)).count) } := by
  have segmented : ranges = segmentRanges tr.t (gapThreshold s.rates.sampleRate) :=
    (eq_segmentRanges_of_runsBetweenGaps runs).trans (congrArg _ (gapThreshold_eq s).symm)
  have decoded : clockDecode policy s.rates tr = .ok ⟨ranges, policy (anchorsOf s tr ranges)⟩ :=
    (clockDecode_eq_ok ..).2 ⟨paired, rates, segmented, _, rawAnchors_of_readable paired readable, rfl⟩
  rw [clockFrom, valid, operand_some, ok_bind, decoded, finish_ok]
  rfl

/-- R204, R266: what a fault of the chain leaves. -/
theorem clockFrom_of_error {policy : Anchors → Corrected} {s : State} {tr : Transitions} {f : Raise}
    (valid : s.tr = some tr) (raises : clockDecode policy s.rates tr = .error f) :
    clockFrom policy s = { s with edg := none, an := none, status := faultStatus f.code f.exp f.act } := by
  rw [clockFrom, valid, operand_some, ok_bind, raises, finish_error]
  rfl

/-- Settles O49: the command and its policy alone, on the anchors of the ranges. -/
theorem clockdecIsTheChain : Obligations.ClockdecIsTheChain := by
  intro s tr ranges i policy valid paired rates commands runs readable
  obtain ⟨correct, clock, outlier⟩ := exists_common_policy commands
  have lengths : (anchorsOf s tr ranges).localTimes.length = (anchorsOf s tr ranges).harp.length :=
    (List.length_map _).trans (List.length_map _).symm
  refine ⟨_, _, ?_, (clock s).trans (congrArg _ (clockFrom_of_readable correct valid paired rates runs readable))⟩
  exact (outlier _).trans (congrArg _ (correctAnchors_of_paired correct rfl lengths))

/-! ### The first failing range -/

/-- R198, R266: a BARDEC that ends with a fault code on a valid, paired `TR`, inside it and with positive rates, reports
what `BarDec` of its range raises. -/
theorem barDec_error_of_exec_bardec {s w : State} {tr : Transitions} (valid : s.tr = some tr)
    (paired : tr.t.length = tr.s.length) (range : s.bcLo ≤ s.bcHi ∧ s.bcHi ≤ tr.t.length) (rates : RatesPositive s)
    (run : exec .bardec s = .next w) (fault : w.status.code ≠ 0) :
    ∃ f, barDec s.rates (slice tr.t s.bcLo s.bcHi) (slice tr.s s.bcLo s.bcHi) = .error f ∧
      w.status = faultStatus f.code f.exp f.act := by
  obtain rfl := eq_runOf_of_exec run
  rcases runOf_cases .bardec s with ⟨p, -, completes⟩ | ⟨f, raises, faults⟩
  · exact absurd (by rw [completes]; rfl) fault
  · rw [resultOf_bardec valid, map_eq_error, barDecRange_eq_error] at raises
    rcases raises with ⟨unequal, -⟩ | ⟨-, ⟨outside, -⟩ | ⟨-, ⟨rate, -⟩ | ⟨-, failing⟩⟩⟩
    · exact absurd paired unequal
    · exact absurd range outside
    · exact absurd rates rate
    · exact ⟨f, failing, by rw [faults, raiseFault_status]⟩

/-- Settles O50: the tests one after another, then the loop over the ranges. -/
theorem clockdecFaultsInOrder : Obligations.ClockdecFaultsInOrder := by
  intro s tr i valid command
  obtain ⟨policy, run⟩ := exists_policy_of_clockdec command
  have raises {f : Raise} (h : clockDecode policy s.rates tr = .error f) :=
    (run s).trans (congrArg _ (clockFrom_of_error valid h))
  simp only [clockDecode_eq_error] at raises
  refine ⟨fun unequal => ⟨_, raises (.inl ⟨unequal, rfl⟩), rfl⟩,
    fun paired rate => ⟨_, raises (.inr ⟨paired, .inl ⟨rate, rfl⟩⟩), rfl⟩, fun paired rates => ?_⟩
  intro ranges j r w runs hr bardec fault before
  have inside := bounds_of_runsBetweenGaps runs (List.mem_of_getElem? hr)
  obtain ⟨f, failing, status⟩ := barDec_error_of_exec_bardec (s := { s with bcLo := r.1, bcHi := r.2 }) valid paired
    inside rates bardec fault
  have loop : collect (ranges.map (decodeRange s.rates tr)) = .error f :=
    collect_map_of_error hr (fun q r' hq hr' => ⟨_, decodeRange_of_readable paired (before q r' hq hr')⟩)
      ((decodeRange_eq_error ..).2 failing)
  rw [eq_segmentRanges_of_runsBetweenGaps runs] at loop
  rw [raises (.inr ⟨paired, .inr ⟨rates, loop⟩⟩), status]

end Sys2Proof.Proofs
end

section
/-! PROOF. 43_aligner.md sections 1 and 2: ALIGN.BUILD fits a line through each pair of consecutive anchors (R233,
R234), or raises the first of its tests that fails (R231, R267). -/

namespace Sys2Proof.Proofs

open Sys2Proof.Machine

/-! ### The bodies of the aligner's commands -/

theorem resultOf_alignBuild {s : State} {a : Anchors} (valid : s.an = some a) :
    resultOf .alignBuild s = (buildFrom a).map .map := by
  rw [resultOf, valid, operand_some, ok_bind]

theorem resultOf_alignQuery {s : State} {m : PiecewiseMap} {q : List Rat} (valid : s.pm = some m)
    (queries : s.qt = some q) : resultOf .alignQuery s = .ok (.times (alignTimes m q)) := by
  rw [resultOf, valid, queries]
  rfl

theorem resultOf_align {s : State} {a : Anchors} {q : List Rat} (valid : s.an = some a) (queries : s.qt = some q) :
    resultOf .align s = (buildFrom a).map fun m => .aligned (m, alignTimes m q) := by
  rw [resultOf, valid, queries, operand_some, operand_some, ok_bind, ok_bind]
  cases buildFrom a <;> rfl

/-- R231, R234: anchors that fit give their map. -/
theorem buildFrom_of_fit {a : Anchors} (fit : AnchorsFit a) : buildFrom a = .ok (buildMap a) :=
  (buildFrom_eq_ok ..).2 ⟨fit, rfl⟩

/-- R234, R268: ALIGN.BUILD where the build completes. -/
theorem exec_alignBuild_of_buildFrom {s : State} {a : Anchors} {m : PiecewiseMap} (valid : s.an = some a)
    (built : buildFrom a = .ok m) :
    exec .alignBuild s = .next { s with pm := some m, status := okAfter s.status false } :=
  exec_of_resultOf_ok (i := .alignBuild) (p := .map _) nofun (by rw [resultOf_alignBuild valid, built]; rfl)

/-- R237, R268: ALIGN.QUERY with both operands valid. -/
theorem exec_alignQuery_of_valid {s : State} {m : PiecewiseMap} {q : List Rat} (valid : s.pm = some m)
    (queries : s.qt = some q) :
    exec .alignQuery s = .next { s with qa := some (alignTimes m q), status := okAfter s.status false } :=
  exec_of_resultOf_ok (i := .alignQuery) nofun (resultOf_alignQuery valid queries)

/-- R238, R268: ALIGN where the build completes. -/
theorem exec_align_of_buildFrom {s : State} {a : Anchors} {q : List Rat} {m : PiecewiseMap} (valid : s.an = some a)
    (queries : s.qt = some q) (built : buildFrom a = .ok m) :
    exec .align s =
      .next { s with pm := some m, qa := some (alignTimes m q), status := okAfter s.status false } :=
  exec_of_resultOf_ok (i := .align) (p := .aligned _) nofun (by rw [resultOf_align valid queries, built]; rfl)

/-- R231: ALIGN.BUILD, and ALIGN with its queries, raise what the build raises. -/
theorem resultOf_of_buildFrom_error {s : State} {a : Anchors} {i : Instr} {f : Raise} (valid : s.an = some a)
    (command : i = .alignBuild ∨ i = .align ∧ s.qt.isSome = true) (raises : buildFrom a = .error f) :
    resultOf i s = .error f := by
  rcases command with rfl | ⟨rfl, queries⟩
  · rw [resultOf_alignBuild valid, raises]
    rfl
  · obtain ⟨q, hq⟩ := Option.isSome_iff_exists.1 queries
    rw [resultOf_align valid hq, raises]
    rfl

/-! ### The local fits -/

/-- R234: `PM.x` of anchors that fit. -/
theorem mapTimes_buildMap_of_fit {a : Anchors} (fit : AnchorsFit a) : mapTimes (buildMap a) = a.localTimes := by
  obtain ⟨paired, two, -⟩ := fit
  exact mapTimes_buildMap a paired (List.ne_nil_of_length_pos (by omega))

/-- R231 (4): `PM.x` of anchors that fit ascends. -/
theorem mapTimes_buildMap_ascend {a : Anchors} (fit : AnchorsFit a) : (mapTimes (buildMap a)).Pairwise (· < ·) := by
  rw [mapTimes_buildMap_of_fit fit]
  obtain ⟨-, -, ascends⟩ := fit
  exact ascends

/-- R231 (4): the next anchor has the greater local time. -/
theorem localTimes_lt_next_of_fit {a : Anchors} (fit : AnchorsFit a) {k : Nat} {x0 x1 : Rat}
    (h0 : a.localTimes[k]? = some x0) (h1 : a.localTimes[k + 1]? = some x1) : x0 < x1 := by
  obtain ⟨-, -, ascends⟩ := fit
  obtain ⟨hk, rfl⟩ := List.getElem?_eq_some_iff.1 h0
  obtain ⟨hk1, rfl⟩ := List.getElem?_eq_some_iff.1 h1
  exact List.pairwise_iff_getElem.1 ascends k (k + 1) hk hk1 k.lt_succ_self

/-- R247: the harp seconds as rationals, which `anchorPoints` takes by a coercion of the list. -/
theorem map_coe_eq_map_cast (l : List Int) : (l.map fun h => (h : Rat)) = l.map (Int.cast : Int → Rat) := by
  simp only [List.map_id_fun', id_eq, List.bind_eq_flatMap]
  exact List.flatMap_pure_eq_map Int.cast l

/-- R247: each harp second is taken as a rational. -/
theorem anchorPoints_eq_map (a : Anchors) :
    anchorPoints a = (a.localTimes.zip a.harp).map (Prod.map id (Int.cast : Int → Rat)) := by
  rw [anchorPoints, map_coe_eq_map_cast, List.zip_map_right]

theorem anchorPoints_getElem? {a : Anchors} {k : Nat} {x : Rat} {y : Int} (hx : a.localTimes[k]? = some x)
    (hy : a.harp[k]? = some y) : (anchorPoints a)[k]? = some (x, (y : Rat)) := by
  have pair : (a.localTimes.zip a.harp)[k]? = some (x, y) := List.getElem?_zip_eq_some.2 ⟨hx, hy⟩
  rw [anchorPoints_eq_map, List.getElem?_map, pair]
  rfl

/-- The line at index `k + 1` of a map, through the anchors `k` and `k + 1` (R233). -/
def lineThrough (x0 x1 y0 y1 : Rat) : MapEntry :=
  { x := x1, slope := (y1 - y0) / (x1 - x0), offset := y0 - (y1 - y0) / (x1 - x0) * x0 }

/-- R233: index `k + 1` of the map. -/
theorem mapEntries_buildMap_succ {a : Anchors} {k : Nat} {x0 x1 : Rat} {y0 y1 : Int}
    (hx0 : a.localTimes[k]? = some x0) (hx1 : a.localTimes[k + 1]? = some x1) (hy0 : a.harp[k]? = some y0)
    (hy1 : a.harp[k + 1]? = some y1) : (mapEntries (buildMap a))[k + 1]? = some (lineThrough x0 x1 y0 y1) :=
  (localFits_getElem? ..).2 ⟨_, _, anchorPoints_getElem? hx0 hy0, anchorPoints_getElem? hx1 hy1, rfl⟩

/-- R233: the value of a line at any time, from its first point. -/
theorem lineThrough_value (x0 x1 y0 y1 t : Rat) :
    t * (lineThrough x0 x1 y0 y1).slope + (lineThrough x0 x1 y0 y1).offset =
      y0 + (t - x0) * ((y1 - y0) / (x1 - x0)) := by
  simp only [lineThrough]
  ring

/-- R233: the line passes through its second point. -/
theorem lineThrough_second {x0 x1 : Rat} (h : x0 < x1) (y0 y1 : Rat) :
    y0 + (x1 - x0) * ((y1 - y0) / (x1 - x0)) = y1 := by
  rw [mul_div_cancel₀ _ (sub_pos.2 h).ne']
  ring

/-- Settles O51: the entry at `k + 1` is the line through its two anchors. -/
theorem buildFitsConsecutiveAnchors : Obligations.BuildFitsConsecutiveAnchors := by
  intro s a valid fit
  have times := mapTimes_buildMap_of_fit fit
  have size : mapSize (buildMap a) = a.localTimes.length := by rw [← mapTimes_length, times]
  refine ⟨buildMap a, exec_alignBuild_of_buildFrom valid (buildFrom_of_fit fit), size, times, ?_⟩
  intro k entry x0 x1 y0 y1 hentry hx0 hx1 hy0 hy1
  obtain rfl : lineThrough x0 x1 y0 y1 = entry :=
    Option.some.inj ((mapEntries_buildMap_succ hx0 hx1 hy0 hy1).symm.trans hentry)
  refine ⟨rfl, rfl, ?first, ?second⟩
  case first => rw [lineThrough_value, sub_self, zero_mul, add_zero]
  case second => rw [lineThrough_value, lineThrough_second (localTimes_lt_next_of_fit fit hx0 hx1)]

/-! ### The faults of the build -/

/-- R231 (4): the first descent is reported with the index of its second time. -/
theorem firstDescent_eq_some {l : List Rat} {k : Nat} {x y : Rat} (hx : l[k]? = some x) (hy : l[k + 1]? = some y)
    (descends : y ≤ x)
    (before : ∀ (j : Nat) (x' y' : Rat), j < k → l[j]? = some x' → l[j + 1]? = some y' → x' < y') (n : Nat) :
    firstDescent n l = some (n + k) := by
  induction k generalizing l n with
  | zero =>
    match l, hx, hy with
    | a :: b :: l, hx, hy =>
      obtain rfl : a = x := Option.some.inj hx
      obtain rfl : b = y := Option.some.inj hy
      rw [firstDescent_cons, if_pos descends, Nat.add_zero]
  | succ k ih =>
    match l, hx, hy, before with
    | a :: b :: l, hx, hy, before =>
      have first : a < b := before 0 a b k.succ_pos rfl rfl
      have rest := ih hx hy (fun j x' y' hj => before (j + 1) x' y' (Nat.succ_lt_succ hj)) (n + 1)
      rw [firstDescent_cons, if_neg first.not_ge, rest, Nat.succ_add_eq_add_succ]

/-- R231: the tests of the build in their order, each with those before it passed. -/
theorem buildFrom_raises_iff (a : Anchors) (f : Raise) :
    buildFrom a = .error f ↔
      a.localTimes.length ≠ a.harp.length ∧
        f = ⟨.arrayLen, some (.int a.localTimes.length), some (.int a.harp.length)⟩ ∨
      a.localTimes.length = a.harp.length ∧
        (¬ 2 ≤ a.localTimes.length ∧ f = ⟨.tooFewAnchors, some (.int 2), some (.int a.localTimes.length)⟩ ∨
        2 ≤ a.localTimes.length ∧ checkAscending a.localTimes = .error f) := by
  simp only [buildFrom_eq_error, checkAnchors, bind_eq_error, checkPaired_eq_error, checkPaired_eq_ok,
    require_eq_error, require_eq_ok, exists_const, eq_comm (b := f)]

/-- Settles O56: the tests one after another, then the first descent. -/
theorem alignerFaultsInOrder : Obligations.AlignerFaultsInOrder := by
  intro s a i valid command
  have sound : i = .encode → tableSound s = true := by
    rcases command with rfl | ⟨rfl, -⟩ <;> exact nofun
  have raises {f : Raise} (h : buildFrom a = .error f) : FaultsWith i s f.code.num f.exp f.act :=
    faultsWith_of_resultOf_error sound (resultOf_of_buildFrom_error valid command h)
  simp only [buildFrom_raises_iff] at raises
  refine ⟨fun unequal => raises (.inl ⟨unequal, rfl⟩),
    fun paired few => raises (.inr ⟨paired, .inl ⟨few.not_ge, rfl⟩⟩), fun paired two => ?_⟩
  intro k x y hx hy descends before
  have descent : firstDescent 1 a.localTimes = some (1 + k) := firstDescent_eq_some hx hy descends before 1
  have index : ((1 + k : Nat) : Int) = (k : Int) + 1 := by omega
  rw [← index]
  exact raises (.inr ⟨paired, .inr ⟨two, (checkAscending_eq_error ..).2 ⟨_, descent, rfl⟩⟩⟩)

end Sys2Proof.Proofs
end

section
/-! PROOF. 43_aligner.md section 2: the fit at index 0 is the unique least-squares line over all anchors (R232). -/

namespace Sys2Proof.Proofs

open Sys2Proof.Machine

/-! ### The divisor -/

theorem sum_map_sq_nonneg {α : Type} (l : List α) (f : α → Rat) : 0 ≤ (l.map fun z => f z ^ 2).sum := by
  refine List.sum_nonneg fun x hx => ?_
  obtain ⟨z, -, rfl⟩ := List.mem_map.1 hx
  exact sq_nonneg _

/-- The squared distances of all points from one time. -/
theorem sum_map_sq_sub (l : List (Rat × Rat)) (x : Rat) :
    (l.map fun z => (z.1 - x) ^ 2).sum =
      (l.map fun z => z.1 * z.1).sum - 2 * x * (l.map Prod.fst).sum + (l.length : Rat) * x ^ 2 := by
  induction l with
  | nil => simp
  | cons z l ih =>
    simp only [List.map_cons, List.sum_cons, List.length_cons, Nat.cast_succ, ih]
    ring

/-- R232: the divisor grows by the squared distances of the later times from the first one. -/
theorem fitDen_cons (a : Rat × Rat) (l : List (Rat × Rat)) :
    fitDen (a :: l) = fitDen l + (l.map fun z => (z.1 - a.1) ^ 2).sum := by
  rw [sum_map_sq_sub]
  simp only [fitDen, List.map_cons, List.sum_cons, List.length_cons, Nat.cast_succ]
  ring

theorem fitDen_nonneg (l : List (Rat × Rat)) : 0 ≤ fitDen l := by
  induction l with
  | nil => simp [fitDen]
  | cons a l ih =>
    rw [fitDen_cons]
    exact add_nonneg ih (sum_map_sq_nonneg l _)

/-- R232: two different times make the divisor positive. -/
theorem fitDen_pos {a b : Rat × Rat} (h : a.1 < b.1) (l : List (Rat × Rat)) : 0 < fitDen (a :: b :: l) := by
  have distance : 0 < (b.1 - a.1) ^ 2 := pow_pos (sub_pos.2 h) 2
  rw [fitDen_cons, List.map_cons, List.sum_cons]
  exact add_pos_of_nonneg_of_pos (fitDen_nonneg _) (add_pos_of_pos_of_nonneg distance (sum_map_sq_nonneg l _))

/-! ### The squared error -/

/-- The sum of squared errors of a line over points. -/
def lineError (l : List (Rat × Rat)) (slope offset : Rat) : Rat :=
  (l.map fun z => (slope * z.1 + offset - z.2) ^ 2).sum

theorem lineError_eq (l : List (Rat × Rat)) (p q : Rat) :
    lineError l p q =
      p ^ 2 * (l.map fun z => z.1 * z.1).sum + 2 * p * q * (l.map Prod.fst).sum + (l.length : Rat) * q ^ 2 -
        2 * p * (l.map fun z => z.1 * z.2).sum - 2 * q * (l.map Prod.snd).sum + (l.map fun z => z.2 ^ 2).sum := by
  unfold lineError
  induction l with
  | nil => simp
  | cons z l ih =>
    simp only [List.map_cons, List.sum_cons, List.length_cons, Nat.cast_succ, ih]
    ring

section
variable {l : List (Rat × Rat)} (den : 0 < fitDen l) (len : 0 < (l.length : Rat))
include den len

/-- The square of a line's error sum completed twice: by its offset, then by its slope. -/
theorem length_mul_lineError (p q : Rat) :
    (l.length : Rat) * lineError l p q =
      (l.length : Rat) * lineError l (globalSlope l) (globalOffset l) +
        (((l.length : Rat) * q + p * (l.map Prod.fst).sum - (l.map Prod.snd).sum) ^ 2 +
          fitDen l * (p - globalSlope l) ^ 2) := by
  have slope : globalSlope l * fitDen l = (l.length : Rat) * (l.map fun z => z.1 * z.2).sum -
      (l.map Prod.fst).sum * (l.map Prod.snd).sum := div_mul_cancel₀ _ den.ne'
  have offset : globalOffset l * (l.length : Rat) =
      (l.map Prod.snd).sum - globalSlope l * (l.map Prod.fst).sum := div_mul_cancel₀ _ len.ne'
  generalize globalSlope l = g at slope offset ⊢
  generalize globalOffset l = o at offset ⊢
  rw [lineError_eq, lineError_eq]
  unfold fitDen at slope ⊢
  linear_combination 2 * (p - g) * slope -
    ((l.length : Rat) * o + g * (l.map Prod.fst).sum - (l.map Prod.snd).sum) * offset

/-- R232: no line has a smaller error. -/
theorem lineError_global_le (p q : Rat) : lineError l (globalSlope l) (globalOffset l) ≤ lineError l p q := by
  refine le_of_mul_le_mul_left ?_ len
  rw [length_mul_lineError den len p q]
  exact le_add_of_nonneg_right (add_nonneg (sq_nonneg _) (mul_nonneg den.le (sq_nonneg _)))

/-- R232: no other line has the same error. -/
theorem eq_global_of_lineError_eq {p q : Rat}
    (same : lineError l p q = lineError l (globalSlope l) (globalOffset l)) :
    p = globalSlope l ∧ q = globalOffset l := by
  have squares := length_mul_lineError den len p q
  rw [same, left_eq_add, add_eq_zero_iff_of_nonneg (sq_nonneg _) (mul_nonneg den.le (sq_nonneg _))] at squares
  obtain ⟨offset, slope⟩ := squares
  obtain rfl : p = globalSlope l := by simpa [den.ne', sub_eq_zero] using slope
  refine ⟨rfl, (eq_div_iff len.ne').2 ?_⟩
  linear_combination pow_eq_zero_iff two_ne_zero |>.1 offset

end

/-! ### The anchors as points -/

theorem squaredError_eq_lineError (a : Anchors) : squaredError a = lineError (anchorPoints a) := by
  funext p q
  rw [squaredError, lineError, anchorPoints_eq_map, List.map_map]
  rfl

/-- R232: the divisor of anchors that fit. -/
theorem fitDen_anchorPoints_pos {a : Anchors} (fit : AnchorsFit a) : 0 < fitDen (anchorPoints a) := by
  obtain ⟨paired, two, ascends⟩ := fit
  rw [← anchorPoints_fst a paired] at two ascends
  match anchorPoints a, two, ascends with
  | _ :: _ :: l, _, ascends => exact fitDen_pos ((List.pairwise_cons.1 ascends).1 _ List.mem_cons_self) l

theorem anchorPoints_snd {a : Anchors} (paired : a.localTimes.length = a.harp.length) :
    (anchorPoints a).map Prod.snd = a.harp.map fun h => (h : Rat) :=
  List.map_snd_zip (by rw [map_coe_eq_map_cast, List.length_map, paired])

theorem anchorPoints_length {a : Anchors} (paired : a.localTimes.length = a.harp.length) :
    (anchorPoints a).length = a.localTimes.length := by
  rw [← anchorPoints_fst a paired, List.length_map]

/-- R232: the sum of the squared times. -/
theorem anchorPoints_map_fst_mul_fst {a : Anchors} (paired : a.localTimes.length = a.harp.length) :
    ((anchorPoints a).map fun z => z.1 * z.1) = a.localTimes.map fun x => x * x := by
  conv_rhs => rw [← anchorPoints_fst a paired, List.map_map]
  rfl

/-- R232: the sum of the products of both coordinates. -/
theorem anchorPoints_map_fst_mul_snd (a : Anchors) :
    ((anchorPoints a).map fun z => z.1 * z.2) = (a.localTimes.zip a.harp).map fun z => z.1 * (z.2 : Rat) := by
  rw [anchorPoints_eq_map, List.map_map]
  rfl

/-- Settles O52: the map's fit at index 0 is that of its points, whose error sum is the minimum. -/
theorem globalFitIsLeastSquares : Obligations.GlobalFitIsLeastSquares := by
  intro s a t m valid fit run written
  rw [exec_alignBuild_of_buildFrom valid (buildFrom_of_fit fit)] at run
  cases run
  cases written
  have den := fitDen_anchorPoints_pos fit
  obtain ⟨paired, two, -⟩ := fit
  have len : 0 < ((anchorPoints a).length : Rat) := by
    rw [anchorPoints_length paired]
    exact_mod_cast (by omega : 0 < a.localTimes.length)
  rw [squaredError_eq_lineError]
  refine ⟨lineError_global_le den len, fun p q => eq_global_of_lineError_eq den len, ?_⟩
  rintro n sx sy sxx sxy rfl rfl rfl rfl rfl
  rw [← anchorPoints_length paired, ← anchorPoints_map_fst_mul_fst paired, ← anchorPoints_map_fst_mul_snd,
    ← anchorPoints_snd paired, ← anchorPoints_fst a paired]
  exact ⟨den, rfl, rfl⟩

end Sys2Proof.Proofs
end

section
/-! PROOF. 43_aligner.md sections 3 and 4: which fit answers a query (R235, R236), and ALIGN as ALIGN.BUILD followed by
ALIGN.QUERY (R238), linear between anchors (R239, R240). -/

namespace Sys2Proof.Proofs

open Sys2Proof.Machine

/-! ### The insertion index -/

/-- R235: a time up to the first of ascending times has none below it. -/
theorem filter_lt_eq_nil {b : Rat} {l : List Rat} (ascends : (b :: l).Pairwise (· < ·)) {t : Rat} (atMost : t ≤ b) :
    ((b :: l).filter fun x => x < t) = [] := by
  simp only [List.filter_eq_nil_iff, decide_eq_true_eq, not_lt]
  rintro x (_ | ⟨_, hx⟩)
  · exact atMost
  · exact atMost.trans ((List.pairwise_cons.1 ascends).1 x hx).le

/-- R235: a time above position `k` and at most position `k + 1` of ascending times has `k + 1` times below it. -/
theorem length_filter_lt_of_between {l : List Rat} (ascends : l.Pairwise (· < ·)) {k : Nat} {x0 x1 t : Rat}
    (h0 : l[k]? = some x0) (h1 : l[k + 1]? = some x1) (above : x0 < t) (atMost : t ≤ x1) :
    (l.filter fun x => x < t).length = k + 1 := by
  induction l generalizing k with
  | nil => simp at h0
  | cons a l ih =>
    obtain ⟨first, rest⟩ := List.pairwise_cons.1 ascends
    cases k with
    | zero =>
      obtain rfl : a = x0 := Option.some.inj h0
      match l, h1, rest with
      | b :: l, h1, rest =>
        obtain rfl : b = x1 := Option.some.inj h1
        rw [List.filter_cons_of_pos (by simpa using above), filter_lt_eq_nil rest atMost, List.length_singleton]
    | succ k =>
      have below : a < t := (first x0 (List.mem_of_getElem? h0)).trans above
      rw [List.filter_cons_of_pos (by simpa using below), List.length_cons, ih rest h0 h1]

/-- R236: the index used between two anchors. -/
theorem queryIndex_of_between {m : PiecewiseMap} (ascends : (mapTimes m).Pairwise (· < ·)) {k : Nat} {x0 x1 t : Rat}
    (h0 : (mapTimes m)[k]? = some x0) (h1 : (mapTimes m)[k + 1]? = some x1) (above : x0 < t) (atMost : t ≤ x1) :
    queryIndex m t = k + 1 := by
  have index : insertionIndex m t = k + 1 := length_filter_lt_of_between ascends h0 h1 above atMost
  obtain ⟨inside, -⟩ := List.getElem?_eq_some_iff.1 h1
  rw [queryIndex_of_within m t (by rw [index, ← mapTimes_length]; exact inside), index]

/-- R235, R236: up to the first anchor and beyond the last the global fit is used. -/
theorem queryIndex_of_outside {m : PiecewiseMap} (ascends : (mapTimes m).Pairwise (· < ·)) {t : Rat}
    (outside : t ≤ m.global.x ∨ ∀ x ∈ mapTimes m, x < t) : queryIndex m t = 0 := by
  rcases outside with before | beyond
  · have index : insertionIndex m t = 0 := congrArg List.length (filter_lt_eq_nil ascends before)
    rw [queryIndex_of_within m t (by rw [index]; exact Nat.succ_pos _), index]
  · have index : insertionIndex m t = mapSize m := by
      rw [insertionIndex, List.filter_eq_self.2 (by simpa using beyond), mapTimes_length]
    exact queryIndex_of_beyond m t index

/-! ### ALIGN.QUERY -/

theorem mapTimes_getElem? {m : PiecewiseMap} {k : Nat} {e : MapEntry} (h : (mapEntries m)[k]? = some e) :
    (mapTimes m)[k]? = some e.x := by
  rw [mapTimes, List.getElem?_map, h]
  rfl

/-- R237: the fit at the index used answers. -/
theorem alignTime_of_queryIndex {m : PiecewiseMap} {t : Rat} {i : Nat} {e : MapEntry} (index : queryIndex m t = i)
    (entry : (mapEntries m)[i]? = some e) : alignTime m t = t * e.slope + e.offset := by
  rw [alignTime, index, entryAt_of_getElem? m i e entry]

/-- R236, R237: between two anchors the fit at the later one answers. -/
theorem alignTime_of_between {m : PiecewiseMap} (ascends : (mapTimes m).Pairwise (· < ·)) {k : Nat} {x0 t : Rat}
    {e : MapEntry} (h0 : (mapTimes m)[k]? = some x0) (h1 : (mapEntries m)[k + 1]? = some e) (above : x0 < t)
    (atMost : t ≤ e.x) : alignTime m t = t * e.slope + e.offset :=
  alignTime_of_queryIndex (queryIndex_of_between ascends h0 (mapTimes_getElem? h1) above atMost) h1

/-- R237: a result is the answer to its query. -/
theorem eq_alignTime_of_getElem? {m : PiecewiseMap} {q : List Rat} {j : Nat} {t y : Rat} (query : q[j]? = some t)
    (result : (alignTimes m q)[j]? = some y) : y = alignTime m t := by
  rw [alignTimes_getElem?, query] at result
  exact (Option.some.inj result).symm

/-- Settles O53: the index of each query outside the anchors, and of each query between two. -/
theorem querySelectsTheSegment : Obligations.QuerySelectsTheSegment := by
  intro s m q valid queries ascends
  refine ⟨_, exec_alignQuery_of_valid valid queries, alignTimes_length m q, ?_⟩
  intro j t y query result
  rw [eq_alignTime_of_getElem? query result]
  exact ⟨fun outside => alignTime_of_queryIndex (queryIndex_of_outside ascends outside) rfl,
    fun k a b ha hb above atMost => alignTime_of_between ascends (mapTimes_getElem? ha) hb above atMost⟩

/-! ### ALIGN -/

/-- Settles O54: the fit between two anchors is the line through them. -/
theorem alignIsLinearBetweenAnchors : Obligations.AlignIsLinearBetweenAnchors := by
  intro s a q valid fit queries
  have times := mapTimes_buildMap_of_fit fit
  refine ⟨_, _, exec_align_of_buildFrom valid queries (buildFrom_of_fit fit), times, alignTimes_length _ q, ?_⟩
  intro j k t y x0 x1 y0 y1 query result hx0 hx1 hy0 hy1 above atMost
  have answer : y = y0 + (t - x0) * (((y1 : Rat) - y0) / (x1 - x0)) := by
    rw [eq_alignTime_of_getElem? query result, ← lineThrough_value]
    exact alignTime_of_between (mapTimes_buildMap_ascend fit) (times ▸ hx0)
      (mapEntries_buildMap_succ hx0 hx1 hy0 hy1) above atMost
  refine ⟨answer, ?_⟩
  rintro rfl
  rw [answer, lineThrough_second above]

/-- R266: ALIGN where the build raises leaves what ALIGN.BUILD leaves, and no times. -/
theorem exec_align_of_buildFrom_error {s : State} {a : Anchors} {f : Raise} (valid : s.an = some a)
    (queries : s.qt.isSome = true) (raises : buildFrom a = .error f) :
    exec .align s = .next { runOf .alignBuild s with qa := none } := by
  rw [exec_eq, if_neg (by simp), runOf, runOf, resultOf_of_buildFrom_error valid (.inr ⟨rfl, queries⟩) raises,
    resultOf_of_buildFrom_error valid (.inl rfl) raises]
  rfl

/-- Settles O55: both endings of the build. -/
theorem alignIsBuildThenQuery : Obligations.AlignIsBuildThenQuery := by
  intro s u anchors queries run
  obtain rfl := eq_runOf_of_exec run
  obtain ⟨a, valid⟩ := Option.isSome_iff_exists.1 anchors
  obtain ⟨q, hq⟩ := Option.isSome_iff_exists.1 queries
  cases built : buildFrom a with
  | ok m =>
    have ends := (eq_runOf_of_exec (exec_alignBuild_of_buildFrom valid built)).symm
    have query := exec_alignQuery_of_valid (s := runOf .alignBuild s) (m := m) (q := q) (by rw [ends])
      (by rw [ends, hq])
    refine ⟨fun _ => ?_, fun fault => absurd (by rw [ends]; rfl) fault⟩
    rw [exec_align_of_buildFrom valid hq built, query, ends]
    rfl
  | error f =>
    have raises := resultOf_of_buildFrom_error (i := .alignBuild) valid (.inl rfl) built
    refine ⟨fun completes => ?_, fun _ => exec_align_of_buildFrom_error valid queries built⟩
    rw [runOf, raises, finish_error, raiseFault_status] at completes
    exact absurd ((code_num_eq_zero _).1 completes) (code_ne_ok_of_resultOf raises)

end Sys2Proof.Proofs
end

section
/-! PROOF. 44_numerics_control_system.md section 4: every step answers a next state (R251), whatever the host's next action
is; the two stops of the model (logs 9, 10) need a table that is none (R28). -/

namespace Sys2Proof.Proofs

open Sys2Proof.Machine

/-- R251: a command runs to completion; ENCODE's stop (log 10) needs an ill-formed table. -/
theorem exec_of_tableSound (i : Instr) {s : State} (table : TableSound s) : exec i s = .next (runOf i s) := by
  have sound : tableSound s = true := (tableSound_iff s).2 table
  rw [exec_eq, if_neg (by simp [sound])]

/-- R120: a well-formed action of the host takes effect; the refusal (log 9) needs an ill-formed load. -/
theorem exists_next_of_hostAction {a : HostAction} (fits : a.wellFormed = true) (s : State) :
    ∃ t, hostAction a s = .next t := by
  cases a with
  | load m => exact ⟨loadMem m s, by rw [hostAction_load, if_pos fits]⟩
  | cmd | set | read | setReadOnly | reset => exact ⟨_, rfl⟩

/-- Settles O15, over the four things a step can be. -/
theorem stepAlwaysAnswers : Obligations.StepAlwaysAnswers := by
  intro s table fit
  rcases step_cases s with
    ⟨-, idle⟩ | ⟨v, rest, i, -, -, command⟩ | ⟨v, rest, -, -, illegal⟩ | ⟨a, rest, next, -, action⟩
  · exact ⟨s, idle⟩
  · exact ⟨_, command.trans (exec_of_tableSound i (s := popAction rest s) table)⟩
  · exact ⟨_, illegal⟩
  · have fits : a.wellFormed = true := fit a (next ▸ List.mem_cons_self)
    rw [action]
    exact exists_next_of_hostAction fits _

end Sys2Proof.Proofs
end

section
/-! PROOF. 60_exceptions.md sections 3 and 4: what a fault leaves (R266, R269, R271), what a completion leaves (R264,
R268), and the operand test that comes before all others (R276). -/

namespace Sys2Proof.Proofs

open Sys2Proof.Machine

/-! ### Taking a fault -/

/-- R266: a fault leaves every destination invalid. -/
theorem raiseFault_destValid {ds : List Dest} {d : Dest} (hd : d ∈ ds) (f : Raise) (s : State) :
    destValid (raiseFault f ds s) d = false := by
  rw [raiseFault_eq]
  cases d <;> simp [destValid, hd, invalidHdr]

/-- R266: a command that reports a code took a fault, which is all it did. -/
theorem exists_raiseFault_of_exec {i : Instr} {s t : State} (h : exec i s = .next t) (failed : t.status.code ≠ 0) :
    ∃ f, t = raiseFault f (destsOf i) s := by
  rw [eq_runOf_of_exec h] at failed ⊢
  rcases runOf_cases i s with ⟨p, -, run⟩ | ⟨f, -, run⟩
  · rw [run] at failed
    exact absurd rfl failed
  · exact ⟨f, run⟩

/-- Settles O18, from what `raiseFault` leaves in each field. -/
theorem faultLeavesNoResult : Obligations.FaultLeavesNoResult := by
  intro i s t h failed
  obtain ⟨f, rfl⟩ := exists_raiseFault_of_exec h failed
  exact ⟨rfl, rfl, rfl, fun _ hd => raiseFault_destValid hd f s, raiseFault_outlierCount f _ s,
    raiseFault_sameOutside f _ s⟩

/-! ### Completing -/

/-- R268: a command that reports no code wrote its product and returned OK. -/
theorem exists_returnOk_of_exec {i : Instr} {s t : State} (h : exec i s = .next t) (completed : t.status.code = 0) :
    ∃ p, resultOf i s = .ok p ∧ t = returnOk p.warns (p.commit s) := by
  rw [eq_runOf_of_exec h] at completed ⊢
  rcases runOf_cases i s with ⟨p, hp, run⟩ | ⟨f, hf, run⟩
  · exact ⟨p, hp, run⟩
  · rw [run] at completed
    exact absurd ((code_num_eq_zero _).1 completed) (code_ne_ok_of_resultOf hf)

/-- R268: the write of a product leaves `STATUS` to the ending. -/
theorem commit_status (p : Product) (s : State) : (p.commit s).status = s.status := by cases p <;> rfl

/-- R203, R264: a product warns exactly when it carries a count and the count is positive. -/
theorem warns_iff (p : Product) (s : State) : p.warns = true ↔ p.counts = true ∧ 0 < (p.commit s).outlierCount := by
  cases p with
  | corrected | clock => simp [Product.warns, Product.counts, Product.commit, outlierWarning]
  | _ => simp [Product.warns, Product.counts]

/-- R131: DECODE leaves the header out for an empty buffer only. -/
theorem header_isSome_of_decodeBuffer {o : DecodeOperands} {b : List Byte} {d : Decoded} (hb : b ≠ [])
    (h : decodeBuffer o b = .ok d) : d.header.isSome = true := by
  obtain ⟨l, rows, -, -, rfl⟩ := (decodeBuffer_eq_ok o b d hb).1 h
  rfl

/-- R122, log 1: a row's byte makes no empty buffer of another. -/
theorem ibuf_of_bufferSeen_nil {i : Instr} {s : State} (h : bufferSeen i s = some []) : s.ibuf = some [] := by
  unfold bufferSeen at h
  split at h <;> simpa [withHeaderByte] using h

/-- R131, R140: a row that decodes leaves `HDR` valid unless the buffer is empty. -/
theorem header_isSome_of_resultOf {i : Instr} {s : State} {d : Decoded} (h : resultOf i s = .ok (.decoded d))
    (bytes : s.ibuf ≠ some []) : d.header.isSome = true := by
  have row : destsOf i = [.tbl, .hdr] := (dests_of_resultOf h).symm
  rw [resultOf_of_dests row, map_eq_ok] at h
  obtain ⟨c, body, same⟩ := h
  obtain rfl := Product.decoded.inj same
  obtain ⟨b, seen, decoded⟩ := (bind_eq_ok ..).1 body
  have seen : bufferSeen i s = some b := (operand_eq_ok ..).1 seen
  refine header_isSome_of_decodeBuffer (fun empty => bytes ?_) decoded
  exact ibuf_of_bufferSeen_nil (empty ▸ seen)

/-- R268: a product validates its destinations, `HDR` when it has a header. -/
theorem commit_destValid {p : Product} {d : Dest} (hd : d ∈ p.dests)
    (header : ∀ c, p = .decoded c → d = .hdr → c.header.isSome = true) (w : Bool) (s : State) :
    destValid (returnOk w (p.commit s)) d = true := by
  cases p with
  | decoded c =>
    obtain ⟨table, fields⟩ := c
    obtain rfl | rfl : d = .tbl ∨ d = .hdr := by simpa [Product.dests] using hd
    · rfl
    · obtain ⟨fields, rfl⟩ := Option.isSome_iff_exists.1 (header _ rfl rfl)
      rfl
  | clock | aligned =>
    obtain rfl | rfl := by simpa [Product.dests] using hd
    all_goals rfl
  | _ =>
    obtain rfl := by simpa [Product.dests] using hd
    rfl

/-- Settles O19, from the product the command wrote. -/
theorem completionReportsOk : Obligations.CompletionReportsOk := by
  intro i s t h completed
  obtain ⟨p, hp, rfl⟩ := exists_returnOk_of_exec h completed
  have kept : (p.commit s).status.sticky = s.status.sticky := congrArg Status.sticky (commit_status p s)
  refine ⟨rfl, rfl, rfl, kept, ?_, fun d hd nonempty => ?_⟩
  · rw [← counts_of_resultOf hp]
    exact warns_iff p s
  · refine commit_destValid (dests_of_resultOf hp ▸ hd) ?_ _ s
    rintro c rfl rfl
    exact header_isSome_of_resultOf hp (nonempty.resolve_left (absurd rfl))

/-! ### The operand test -/

/-- R276: what a command raises on an invalid operand memory. -/
def operandInvalidRaise : Raise := { code := .operandInvalid, exp := none, act := none }

/-- R276: a body that starts with an invalid operand memory raises there. -/
theorem operand_bind_of_invalid {α β : Type} {m : Option α} (h : ¬ m.isSome = true) (g : α → Except Raise β) :
    (operand m >>= g) = .error operandInvalidRaise := by
  cases m with
  | none => rfl
  | some a => exact absurd rfl h

/-- R276: the commands with two operand memories test the second before they use the first. -/
theorem operand_bind_operand_of_invalid {α β γ : Type} {m : Option α} {n : Option β}
    (h : ¬ (m.isSome = true ∧ n.isSome = true)) (g : α → β → Except Raise γ) :
    (operand m >>= fun a => operand n >>= g a) = .error operandInvalidRaise := by
  cases m with
  | none => rfl
  | some a => exact operand_bind_of_invalid (fun valid => h ⟨rfl, valid⟩) (g a)

/-- R122, log 1: a row's byte leaves the valid bit of `IBUF` as it is. -/
theorem bufferSeen_isSome (i : Instr) (s : State) : (bufferSeen i s).isSome = s.ibuf.isSome := by
  unfold bufferSeen
  split <;> simp [withHeaderByte]

/-- R276: the operand memories are tested before anything else of a command's body. -/
theorem resultOf_of_not_operandsValid {i : Instr} {s : State} (h : ¬ OperandsValid i s) :
    resultOf i s = .error operandInvalidRaise := by
  cases i
  case encode | segment | bardec | clockdecRepair | clockdecDrop | outlierRepair | outlierDrop | alignBuild =>
    exact congrArg (Except.map _) (operand_bind_of_invalid h _)
  case alignQuery | align => exact congrArg (Except.map _) (operand_bind_operand_of_invalid h _)
  all_goals
    refine congrArg (Except.map _) (operand_bind_of_invalid ?_ _)
    rwa [bufferSeen_isSome]

/-- Settles O20: the body raises at its operand test; ENCODE does not stop (log 10) with no table in `TBL`. -/
theorem invalidOperandFaultsFirst : Obligations.InvalidOperandFaultsFirst := by
  intro i s h
  refine faultsWith_of_resultOf_error ?_ (resultOf_of_not_operandsValid h)
  rintro rfl
  have absent : s.tbl = none := by simpa [OperandsValid] using h
  simp [tableSound, absent]

/-! ### The sticky bit -/

/-- R120: no action of the host but the reset event writes `STATUS`. -/
theorem hostAction_status {a : HostAction} {s t : State} (other : a ≠ .reset) (h : hostAction a s = .next t) :
    t.status = s.status := by
  cases a with
  | set w => cases h; cases w <;> rfl
  | load m =>
    rw [hostAction_load] at h
    split at h
    · cases h; cases m <;> rfl
    · cases h
  | reset => exact absurd rfl other
  | cmd | read | setReadOnly => cases h; rfl

/-- R269: a command keeps the sticky bit, or faults and sets it. -/
theorem sticky_of_exec {i : Instr} {s t : State} (h : exec i s = .next t) :
    t.status.sticky = s.status.sticky ∨ t.status.code ≠ 0 ∧ t.status.sticky = true := by
  by_cases completed : t.status.code = 0
  · obtain ⟨-, -, -, kept, -⟩ := completionReportsOk i s t h completed
    exact .inl kept
  · obtain ⟨-, -, raised, -⟩ := faultLeavesNoResult i s t h completed
    exact .inr ⟨completed, raised⟩

/-- R269, R301: the reset event clears the sticky bit; every other step keeps it, or faults and sets it. -/
theorem sticky_of_step {s t : State} (h : step s = .next t) :
    if s.host.head? = some .reset then t.status.sticky = false
    else t.status.sticky = s.status.sticky ∨ t.status.code ≠ 0 ∧ t.status.sticky = true := by
  rcases step_cases s with
    ⟨idle, run⟩ | ⟨v, rest, i, next, -, run⟩ | ⟨v, rest, next, -, run⟩ | ⟨a, rest, next, -, run⟩ <;> rw [run] at h
  · cases h
    simp [idle]
  · rw [next]
    exact sticky_of_exec (s := popAction rest s) h
  · cases h
    rw [next]
    exact .inr ⟨by simp [illegalCommand, faultStatus, Code.num], rfl⟩
  · rw [next]
    by_cases reset : a = .reset
    · subst reset
      cases h
      rfl
    · rw [List.head?_cons, if_neg (by simpa using reset)]
      exact .inl (congrArg Status.sticky (hostAction_status (s := popAction rest s) reset h))

/-- Settles O21, from what one step does to the bit. -/
theorem stickyStaysUntilReset : Obligations.StickyStaysUntilReset := by
  refine ⟨fun i s t h failed => ?_, fun s t h clear raised => ?_, fun s t h raised other => ?_, fun s t h reset => ?_⟩
  · obtain ⟨-, -, raised, -⟩ := faultLeavesNoResult i s t h failed
    exact raised
  · have bit := sticky_of_step h
    split at bit
    · cases raised.symm.trans bit
    · obtain kept | ⟨failed, -⟩ := bit
      · cases (raised.symm.trans kept).trans clear
      · exact failed
  · have bit := sticky_of_step h
    rw [if_neg other] at bit
    exact bit.elim (fun kept => kept.trans raised) And.right
  · have bit := sticky_of_step h
    rwa [if_pos reset] at bit

/-! ### The fault again -/

/-- R45: every command but OUTLIER.* reads nothing that it writes. -/
theorem sameReads_of_sameOutside {i : Instr} {s t : State} (notRepair : i ≠ .outlierRepair)
    (notDrop : i ≠ .outlierDrop) (h : SameOutside (destsOf i) s t) : SameReads i s t := by
  obtain ⟨frame, tbl, -, -, -, -, an, pm, -⟩ := h
  cases i
  case outlierRepair => exact absurd rfl notRepair
  case outlierDrop => exact absurd rfl notDrop
  case encode =>
    rw [frame]
    exact ⟨(tbl (by decide)).symm, rfl, rfl, rfl, rfl, rfl⟩
  case segment =>
    rw [frame]
    exact ⟨rfl, rfl⟩
  case bardec =>
    rw [frame]
    exact ⟨rfl, rfl, rfl, rfl, rfl⟩
  case clockdecRepair | clockdecDrop =>
    rw [frame]
    exact ⟨rfl, rfl, rfl⟩
  case alignBuild => exact (an (by decide)).symm
  case alignQuery =>
    rw [frame]
    exact ⟨(pm (by decide)).symm, rfl⟩
  case align =>
    rw [frame]
    exact ⟨(an (by decide)).symm, rfl⟩
  all_goals
    rw [frame]
    exact ⟨rfl, rfl, rfl, rfl, rfl, rfl, rfl⟩

/-- Log 10: ENCODE's stop depends on what ENCODE reads. -/
theorem stops_congr {i : Instr} {s t : State} (reads : SameReads i s t) :
    (i = .encode ∧ tableSound s = false) ↔ (i = .encode ∧ tableSound t = false) := by
  refine and_congr_right ?_
  rintro rfl
  obtain ⟨tbl, -⟩ := reads
  rw [tableSound, tableSound, tbl]

/-- R42, R271: a command whose run leaves what it reads answers the same state when issued again. -/
theorem exec_again {i : Instr} {s t : State} (reads : SameReads i s t) (h : exec i s = .next t) :
    exec i t = .next t := by
  obtain rfl := eq_runOf_of_exec h
  calc exec i (runOf i s)
    _ = exec i s := by rw [exec_eq, exec_eq, runOf_idem reads, if_congr (stops_congr reads) rfl rfl]
    _ = .next (runOf i s) := h

/-- Settles O22: the command reads nothing that it wrote, so it answers as it did. -/
theorem reissuedFaultRepeats : Obligations.ReissuedFaultRepeats := by
  intro i s t notRepair notDrop h _
  obtain ⟨frame, -⟩ := commandsChangeOnlyTheirRow i s t h
  exact exec_again (sameReads_of_sameOutside notRepair notDrop frame) h

end Sys2Proof.Proofs
end

section
/-! PROOF. 70_reset_and_hazards.md section 1: idling, the inert actions of the host and the reset event (R300, R301),
and the reads and read-only writes without effect (R65, R272). -/

namespace Sys2Proof.Proofs

open Sys2Proof.Machine

/-- R300: a step without an action of the host. -/
theorem step_idle {s : State} (h : s.host = []) : step s = .next s := by
  rw [step, fetch_nil s h]

/-- R121: a step whose next action is no `CMD` write. -/
theorem step_hostAction {s : State} {a : HostAction} {rest : List HostAction} (h : s.host = a :: rest)
    (other : ∀ v, a ≠ .cmd v) : step s = hostAction a (popAction rest s) := by
  cases a with
  | cmd v => exact absurd rfl (other v)
  | set | load | read | setReadOnly | reset => simp only [step, fetch, h]

/-- Settles O9: what `resetEvent` leaves of the state without the action. -/
theorem resetEventRestoresReset : Obligations.ResetEventRestoresReset := fun _ _ h =>
  step_hostAction h nofun

/-- Settles O10: the step takes the action off, and the action itself leaves the state. -/
theorem inertHostActions : Obligations.InertHostActions :=
  ⟨fun _ idle => step_idle idle, fun _ _ _ h => step_hostAction h nofun,
    fun _ _ _ h => step_hostAction h nofun⟩

end Sys2Proof.Proofs
end

section
/-! PROOF. 70_reset_and_hazards.md section 3: the same outlier policy run again finds nothing to correct (R304 (h)). -/

namespace Sys2Proof.Proofs

open Sys2Proof.Machine

/-! ### Repair again (R201) -/

/-- R201: a value once repaired is no outlier to the same predecessor. -/
theorem repairOne_idem (prev old : Int) : repairOne prev (repairOne prev old) = repairOne prev old := by
  by_contra changed
  have outlier := (repairOne_ne_iff prev _).1 changed
  rw [repairOne_eq] at outlier
  split at outlier <;> omega

/-- R201, R304 (h): a pass over what the pass left overwrites nothing. -/
theorem repairFrom_again (prev : Int) (l : List Int) :
    repairFrom prev (repairFrom prev l).1 = ((repairFrom prev l).1, 0) := by
  induction l generalizing prev with
  | nil => rfl
  | cons old l ih =>
    simp only [repairFrom_cons_eq, repairOne_idem, ih, ne_eq, not_true_eq_false, if_false]

theorem repair_again (l : List Int) : repair (repair l).1 = ((repair l).1, 0) := by
  cases l with
  | nil => rfl
  | cons first rest => simp only [repair_cons, repairFrom_again]

/-! ### Drop again (R202) -/

/-- R202: the anchors kept of a list whose first anchor is or is not joined to a value before it. -/
def keptFrom (joined : Bool) (l : List (Rat × Int)) : List (Rat × Int) := keptRuns joined (ascendingRuns l)

theorem keptAnchors_eq_keptFrom (l : List (Rat × Int)) : keptAnchors l = keptFrom false l :=
  keptAnchors_eq_keptRuns l

theorem keptFrom_nil (joined : Bool) : keptFrom joined [] = [] := rfl

theorem keptFrom_singleton (joined : Bool) (a : Rat × Int) : keptFrom joined [a] = if joined then [a] else [] := by
  cases joined <;> rfl

theorem keptFrom_cons_cons (joined : Bool) (a b : Rat × Int) (l : List (Rat × Int)) :
    keptFrom joined (a :: b :: l) =
      (if joined || b.2 - a.2 == 1 then [a] else []) ++ keptFrom (b.2 - a.2 == 1) (b :: l) :=
  keptRuns_cons joined a b l

/-- R202: a first anchor joined to a value before it is kept. -/
theorem exists_keptFrom_true_cons (a : Rat × Int) (l : List (Rat × Int)) :
    ∃ rest, keptFrom true (a :: l) = a :: rest := by
  cases l with
  | nil => exact ⟨[], keptFrom_singleton true a⟩
  | cons b l => exact ⟨_, keptFrom_cons_cons true a b l⟩

/-- R202, R304 (h): a kept anchor keeps the neighbour it is joined to, so it is kept again; what is dropped between two
anchors can only join them. -/
theorem keptFrom_again {joined again : Bool} (still : joined = true → again = true) (l : List (Rat × Int)) :
    keptFrom again (keptFrom joined l) = keptFrom joined l := by
  induction l generalizing joined again with
  | nil => rfl
  | cons a l ih =>
    cases l with
    | nil => cases joined <;> simp [keptFrom_singleton, keptFrom_nil, still]
    | cons b l =>
      rw [keptFrom_cons_cons]
      cases step : b.2 - a.2 == 1
      case true =>
        obtain ⟨rest, kept⟩ := exists_keptFrom_true_cons b l
        have later : keptFrom true (b :: rest) = b :: rest := kept ▸ ih id
        simp [kept, keptFrom_cons_cons, step, later]
      case false =>
        cases joined
        case false => simpa using ih (joined := false) (again := again) (by simp)
        case true =>
          cases kept : keptFrom false (b :: l) with
          | nil => simp [keptFrom_singleton, still]
          | cons c rest =>
            have later : keptFrom (c.2 - a.2 == 1) (c :: rest) = c :: rest := kept ▸ ih (by simp)
            simp [keptFrom_cons_cons, still, later]

theorem keptAnchors_again (l : List (Rat × Int)) : keptAnchors (keptAnchors l) = keptAnchors l := by
  simp only [keptAnchors_eq_keptFrom]
  exact keptFrom_again id l

/-! ### A policy again -/

/-- R304 (h): the policy leaves paired anchors paired, and run on its own result it answers that result and counts 0. -/
def LeavesItsResult (policy : Anchors → Corrected) : Prop :=
  ∀ a : Anchors, a.localTimes.length = a.harp.length →
    (policy a).anchors.localTimes.length = (policy a).anchors.harp.length ∧
      policy (policy a).anchors = { anchors := (policy a).anchors, count := 0 }

theorem repairAnchors_leavesItsResult : LeavesItsResult repairAnchors := fun a paired =>
  ⟨by simpa using paired, by simp only [repairAnchors, repair_again]⟩

theorem dropAnchors_leavesItsResult : LeavesItsResult dropAnchors := fun a _ =>
  ⟨by simp [dropAnchors], by simp [dropAnchors, List.zip_map', keptAnchors_again]⟩

/-- R201, R202: each command runs a policy that leaves its own result. -/
theorem exists_leavesItsResult_of_outlier {i : Instr} (h : i = .outlierRepair ∨ i = .outlierDrop) :
    ∃ policy, LeavesItsResult policy ∧ ∀ s, exec i s = .next (correctAnchors policy s) := by
  rcases h with rfl | rfl
  · exact ⟨repairAnchors, repairAnchors_leavesItsResult, fun _ => rfl⟩
  · exact ⟨dropAnchors, dropAnchors_leavesItsResult, fun _ => rfl⟩

/-- R268: a correction that reports no code had paired anchors and wrote what the policy makes of them. -/
theorem exists_paired_of_correctAnchors {policy : Anchors → Corrected} {s : State}
    (completed : (correctAnchors policy s).status.code = 0) :
    ∃ a : Anchors, a.localTimes.length = a.harp.length ∧ (correctAnchors policy s).an = some (policy a).anchors := by
  rcases correctAnchors_cases policy s with ⟨a, -, paired, ends⟩ | ⟨f, failed, ends⟩ <;> rw [ends] at completed ⊢
  · exact ⟨a, paired, rfl⟩
  · rw [raiseFault_status] at completed
    exact absurd ((code_num_eq_zero f.code).1 completed) failed

/-- Settles O48: the second run is given the policy's own result. -/
theorem correctionIsIdempotent : Obligations.CorrectionIsIdempotent := by
  intro i s t command h completed
  obtain ⟨policy, leaves, run⟩ := exists_leavesItsResult_of_outlier command
  obtain rfl : correctAnchors policy s = t := Host.Outcome.next.inj ((run s).symm.trans h)
  obtain ⟨a, paired, valid⟩ := exists_paired_of_correctAnchors completed
  obtain ⟨stillPaired, again⟩ := leaves a paired
  rw [run, correctAnchors_of_paired policy valid stillPaired, again, ← valid]
  rfl

end Sys2Proof.Proofs
end
